-- ==== Sys2Proof/Word.lean ====
section
/-! DEFINITION. The word types of the block: everything is unsigned (00_scope.md R9). -/

namespace Sys2Proof

/-- A `u8`: one byte of a wire frame or of a UART stream. -/
abbrev Byte := BitVec 8

/-- A `u32`: a register value, a baud rate, a clock sample. -/
abbrev Word := BitVec 32

end Sys2Proof
end

