-- ==== Sys2Proof/Config.lean ====
section
/-! DEFINITION. The configurable parameters of 00_scope.md R8, and the free values the spec leaves open.
The parameters are plain data held in the state and written by no step (10_state.md R35; log 14). -/

namespace Sys2Proof

/-- `WRITE_END_DIRECTION` (46_read_write.md R204). -/
inductive WriteEnd where
  | hold
  | release
deriving DecidableEq, Repr

/-- `UART_WRITE_COMPLETION` (43_transceiver.md R143 (b)). No byte or state rule depends on it (log 26). -/
inductive WriteCompletion where
  | onQueue
  | onWire
deriving DecidableEq, Repr

/-- The parameter `CRC8` (42_framer_crc.md R126): the default of R127, or another function (log 15). -/
inductive CrcChoice where
  /-- The default of R127. -/
  | trinamic
  /-- Any other checksum function, one for each number; nothing is known of it. -/
  | other (n : Nat)
deriving DecidableEq, Repr

/-- The parameters of R8, with `pin_defined` and `native` of 10_state.md R27 as the list of the defined pins and
their native handles (log 23). -/
structure Params where
  /-- `MAX_RETRIES`. -/
  maxRetries : Nat
  /-- `SCAN_TIMEOUT`, ticks. -/
  scanTimeout : Nat
  /-- `ABORT_WINDOW`, ticks. -/
  abortWindow : Nat
  /-- `REPLY_DELAY_US`, microseconds. -/
  replyDelayUs : Nat
  /-- `DIR_TX_LEVEL`: the pin level meaning Transmit; `true` is 1. -/
  dirTxLevel : Bool
  /-- `WRITE_END_DIRECTION`. -/
  writeEnd : WriteEnd
  /-- `CRC8`. -/
  crc : CrcChoice
  /-- `UART_WRITE_COMPLETION`. -/
  writeCompletion : WriteCompletion
  /-- The defined pins, each with its native handle. -/
  pins : List (Nat × Nat)
deriving DecidableEq, Repr

/-- The values the state after reset holds. DESIGN CHOICE (log 14; unsafe): the source gives none of the OPEN ones;
these are the ones the spec's own vectors use (95_test_vectors.md section 2). `Hold` and the CRC are the spec's defaults. -/
def Params.vectors : Params where
  maxRetries := 2
  scanTimeout := 5
  abortWindow := 5
  replyDelayUs := 2000
  dirTxLevel := true
  writeEnd := .hold
  crc := .trinamic
  writeCompletion := .onWire
  pins := [(7, 7), (9, 9)]

/-- A checksum function other than the default (R126, D31): a free function (log 15). -/
opaque Config.otherCrc8 : Nat → List Byte → Byte

/-- The level of the direction pin of a bus before BUS_INIT makes it an output, unspecified (70 R240): one free value for each
bus (log 13). -/
opaque Config.startLevel : Nat → Bool

/-- The level an output pin comes up at, unspecified until the first SET_DIR (10_state.md R40, 70 R242): one free value for
each draw (log 13). -/
opaque Config.freeLevel : Nat → Bool

end Sys2Proof
end

