-- ==== Sys2Proof/Syntax.lean ====
section
/-! DEFINITION. The instructions: one constructor per row of spec/opcode_table.json (30_encoding.md R86, R70). -/

namespace Sys2Proof

/-- The two directions the bus buffer can be set to, the operand of SET_DIR (40_bus_buffer.md R102). -/
inductive Dir where
  | transmit
  | receive
deriving DecidableEq, Repr

/-- Host operations (op `0x01`..`0x06`), micro-steps (op `0x10`..`0x1B`) and wire frames.
Transceivers, buses, UART channels and pins are named by number; the pin `none` is `Undefined`. -/
inductive Instr where
  /-- `0x01` BUS_INIT (R100). -/
  | busInit (bus : Nat) (pin : Option Nat)
  /-- `0x02` CONSTRUCT (R110). -/
  | construct (t uart rsense : Nat) (slaveAddr : Byte) (bus : Nat) (pin : Option Nat)
  /-- `0x03` READ (R190). -/
  | read (t : Nat) (regAddr : Byte)
  /-- `0x04` WRITE (R200). -/
  | write (t : Nat) (regAddr : Byte) (value : Word)
  /-- `0x05` TRANSACT (R140). -/
  | transact (t : Nat) (dg : List Byte) (payloadLen scanTimeout : Nat)
  /-- `0x06` VALIDATE (R180). -/
  | validate (frame : BitVec 64)
  /-- `0x10` SET_DIR (R102). -/
  | setDir (d : Dir)
  /-- `0x11` FLUSH (R141, R150). -/
  | flush
  /-- `0x12` TX_BYTE (R143, R202). -/
  | txByte (i : Nat)
  /-- `0x13` WAIT (R144, R146, R203). -/
  | wait (us : Nat)
  /-- `0x14` SCAN_ENTER (R160). -/
  | scanEnter
  /-- `0x15` SCAN_POLL (R162). -/
  | scanPoll
  /-- `0x16` CAPTURE_ENTER (R166). -/
  | captureEnter
  /-- `0x17` CAPTURE_POLL (R167). -/
  | capturePoll
  /-- `0x18` BUILD_READ_REQ (R121). -/
  | buildReadReq (addr regAddr : Byte)
  /-- `0x19` BUILD_WRITE (R120). -/
  | buildWrite (addr regAddr : Byte) (value : Word)
  /-- `0x1A` CRC8 (R126). -/
  | crc8 (bs : List Byte)
  /-- `0x1B` TURNAROUND (R111). -/
  | turnaround (baud : Word)
  /-- `WRITE_FRAME`, 8 bytes, master to slave (R71). -/
  | writeFrame (addr : Byte) (reg : BitVec 7) (value : Word) (crc : Byte)
  /-- `READ_REQ`, 4 bytes, master to slave (R72). -/
  | readReq (addr : Byte) (reg : BitVec 7) (crc : Byte)
  /-- `REPLY`, 8 bytes, slave to master (R73). -/
  | reply (reg : BitVec 7) (value : Word) (crc : Byte)
deriving DecidableEq, Repr

end Sys2Proof
end

