-- ==== Sys2Proof/WellFormed.lean ====
section
/-! DEFINITION. The operand ranges the rules give an instruction, as far as they concern its operands alone.
An ill-formed instruction still decodes and runs: it records the fault its rule names (60_exceptions.md R214). -/

namespace Sys2Proof

/-- The register addresses READ, WRITE and the framer admit (20_memory.md R60). -/
def admitsReg (regAddr : Byte) : Bool := decide (regAddr.toNat ≤ 0x7F)

/-- The length relation of TRANSACT's operands (43_transceiver.md R140). -/
def admitsLength (dg : List Byte) (payloadLen : Nat) : Bool :=
  dg.length == payloadLen + 1 && decide (2 ≤ payloadLen)

/-- Each operand is in the range its rule gives it: `regAddr` (R60, R120, R121), the datagram's length and the scan
timeout (R140), the baud rate of TURNAROUND (R111). Every other operand is admitted as it is (D23, R125). -/
def Instr.wellFormed : Instr → Bool
  | .busInit _ _ => true
  | .construct _ _ _ _ _ _ => true
  | .read _ regAddr => admitsReg regAddr
  | .write _ regAddr _ => admitsReg regAddr
  | .transact _ dg payloadLen scanTimeout => admitsLength dg payloadLen && decide (1 ≤ scanTimeout)
  | .validate _ => true
  | .setDir _ => true
  | .flush => true
  | .txByte _ => true
  | .wait _ => true
  | .scanEnter => true
  | .scanPoll => true
  | .captureEnter => true
  | .capturePoll => true
  | .buildReadReq _ regAddr => admitsReg regAddr
  | .buildWrite _ regAddr _ => admitsReg regAddr
  | .crc8 _ => true
  | .turnaround baud => baud != 0
  | .writeFrame _ _ _ _ => true
  | .readReq _ _ _ => true
  | .reply _ _ _ => true

end Sys2Proof
end

