-- ==== Sys2Proof/Decode.lean ====
section
/-! DEFINITION. Encodings: bytes of words, the wire frames (30_encoding.md R70 to R73), the operations' words
(R86; the operands' places are the model's own, log 3), the decoder and the encoder. -/

namespace Sys2Proof

/-! ### Constants and field assembly -/

/-- `SYNC_BYTE` (R7, 42_framer_crc.md R123). -/
def syncByte : Byte := 0x05#8

/-- `REPLY_MARKER` (R7). -/
def replyMarker : Byte := 0xFF#8

/-- `WRITE_FLAG` (R7, 42_framer_crc.md R124). -/
def writeFlag : Byte := 0x80#8

/-- A `u32` as its four wire bytes, most significant first (20_memory.md R50, 30_encoding.md R75). -/
def wordBytes (v : Word) : List Byte :=
  [v.extractLsb' 24 8, v.extractLsb' 16 8, v.extractLsb' 8 8, v.extractLsb' 0 8]

/-- `b3 || b4 || b5 || b6` (30_encoding.md R75). -/
def wordOf (b3 b4 b5 b6 : Byte) : Word := b3 ++ b4 ++ b5 ++ b6

/-- `b_i = F[63-8i : 56-8i]` for `i = 0..7` (30_encoding.md R79). -/
def frameByte (f : BitVec 64) (i : Nat) : Byte := f.extractLsb' (56 - 8 * i) 8

/-- The eight wire bytes of a frame word, in wire order. -/
def frameBytes (f : BitVec 64) : List Byte :=
  [frameByte f 0, frameByte f 1, frameByte f 2, frameByte f 3,
    frameByte f 4, frameByte f 5, frameByte f 6, frameByte f 7]

/-- The word `b0 || … || b7` of eight bytes (00_scope.md R9). -/
def frameOf (b0 b1 b2 b3 b4 b5 b6 b7 : Byte) : BitVec 64 :=
  b0 ++ b1 ++ b2 ++ b3 ++ b4 ++ b5 ++ b6 ++ b7

/-- The register byte of a frame: the write flag in bit 7, the register below it (R71, R72). -/
def regByte (flag : Bool) (reg : BitVec 7) : Byte := BitVec.ofBool flag ++ reg

/-- Bit 7 of a register byte: 1 marks a write frame (R81). -/
def regFlag (b : Byte) : Bool := b.getLsbD 7

/-- The low seven bits of a register byte. -/
def regField (b : Byte) : BitVec 7 := b.extractLsb' 0 7

/-! ### Numbers of the operations' operands -/

/-- The digits of a natural number, seven bits a byte, least significant first, bit 7 set on every byte but the last (log 3).
`fuel` is any bound on the number of digits. -/
def natDigits : Nat → Nat → List Byte
  | 0, n => [BitVec.ofNat 8 n]
  | fuel + 1, n =>
    if n < 128 then [BitVec.ofNat 8 n] else BitVec.ofNat 8 (n % 128 + 128) :: natDigits fuel (n / 128)

/-- A natural operand as bytes. -/
def natBytes (n : Nat) : List Byte := natDigits n n

/-- A byte-list operand: its length, then its bytes. -/
def listBytes (bs : List Byte) : List Byte := natBytes bs.length ++ bs

/-- A pin operand: 0 for `Undefined`, else the pin's number and one. -/
def pinBytes : Option Nat → List Byte
  | none => natBytes 0
  | some p => natBytes (p + 1)

/-- A direction operand. -/
def dirByte : Dir → Byte
  | .transmit => 0#8
  | .receive => 1#8

/-- Why bytes spell no instruction. -/
inductive Reject where
  /-- The bytes end inside an instruction. -/
  | truncated
  /-- The first byte is no tag of R86. -/
  | badTag (op : Byte)
  /-- A number has a leading zero digit. -/
  | badNumber
  /-- A direction byte is neither 0 nor 1. -/
  | badDirection
  /-- Not the bytes of one of the three frame formats of R70. -/
  | badFrame
deriving DecidableEq, Repr

/-- Reading one piece off the front of a byte list. -/
abbrev Parse (α : Type) := List Byte → Except Reject (α × List Byte)

/-- The next byte. -/
def takeByte : Parse Byte
  | [] => .error .truncated
  | b :: bs => .ok (b, bs)

/-- The next natural number, in the one spelling `natBytes` gives it. -/
def takeNat : Parse Nat
  | [] => .error .truncated
  | b :: bs =>
    if b.toNat < 128 then .ok (b.toNat, bs)
    else
      match takeNat bs with
      | .error e => .error e
      | .ok (0, _) => .error .badNumber
      | .ok (n + 1, rest) => .ok (b.toNat - 128 + 128 * (n + 1), rest)

/-- The next `n` bytes. -/
def takeN : Nat → Parse (List Byte)
  | 0, bs => .ok ([], bs)
  | _ + 1, [] => .error .truncated
  | n + 1, b :: bs =>
    match takeN n bs with
    | .error e => .error e
    | .ok (l, rest) => .ok (b :: l, rest)

/-- The next byte-list operand. -/
def takeList : Parse (List Byte) := fun bs => do
  let (n, bs) ← takeNat bs
  takeN n bs

/-- The next pin operand. -/
def takePin : Parse (Option Nat) := fun bs => do
  match ← takeNat bs with
  | (0, bs) => return (none, bs)
  | (p + 1, bs) => return (some p, bs)

/-- The next direction operand. -/
def takeDir : Parse Dir := fun bs => do
  let (b, bs) ← takeByte bs
  if b = 0#8 then return (.transmit, bs)
  else if b = 1#8 then return (.receive, bs)
  else .error .badDirection

/-- The next four bytes, big-endian. -/
def takeWord : Parse Word
  | b0 :: b1 :: b2 :: b3 :: bs => .ok (wordOf b0 b1 b2 b3, bs)
  | _ => .error .truncated

/-- The next eight bytes, big-endian. -/
def takeFrame : Parse (BitVec 64)
  | b0 :: b1 :: b2 :: b3 :: b4 :: b5 :: b6 :: b7 :: bs => .ok (frameOf b0 b1 b2 b3 b4 b5 b6 b7, bs)
  | _ => .error .truncated

/-! ### The decoder -/

/-- The operands that follow the tag `op` (R86). -/
def decodeOperands (op : Byte) (bs : List Byte) : Except Reject (Instr × List Byte) :=
  match op.toNat with
  | 0x01 => do
    let (bus, bs) ← takeNat bs
    let (pin, bs) ← takePin bs
    return (.busInit bus pin, bs)
  | 0x02 => do
    let (t, bs) ← takeNat bs
    let (uart, bs) ← takeNat bs
    let (rsense, bs) ← takeNat bs
    let (addr, bs) ← takeByte bs
    let (bus, bs) ← takeNat bs
    let (pin, bs) ← takePin bs
    return (.construct t uart rsense addr bus pin, bs)
  | 0x03 => do
    let (t, bs) ← takeNat bs
    let (reg, bs) ← takeByte bs
    return (.read t reg, bs)
  | 0x04 => do
    let (t, bs) ← takeNat bs
    let (reg, bs) ← takeByte bs
    let (v, bs) ← takeWord bs
    return (.write t reg v, bs)
  | 0x05 => do
    let (t, bs) ← takeNat bs
    let (dg, bs) ← takeList bs
    let (n, bs) ← takeNat bs
    let (timeout, bs) ← takeNat bs
    return (.transact t dg n timeout, bs)
  | 0x06 => do
    let (f, bs) ← takeFrame bs
    return (.validate f, bs)
  | 0x10 => do
    let (d, bs) ← takeDir bs
    return (.setDir d, bs)
  | 0x11 => return (.flush, bs)
  | 0x12 => do
    let (i, bs) ← takeNat bs
    return (.txByte i, bs)
  | 0x13 => do
    let (us, bs) ← takeNat bs
    return (.wait us, bs)
  | 0x14 => return (.scanEnter, bs)
  | 0x15 => return (.scanPoll, bs)
  | 0x16 => return (.captureEnter, bs)
  | 0x17 => return (.capturePoll, bs)
  | 0x18 => do
    let (addr, bs) ← takeByte bs
    let (reg, bs) ← takeByte bs
    return (.buildReadReq addr reg, bs)
  | 0x19 => do
    let (addr, bs) ← takeByte bs
    let (reg, bs) ← takeByte bs
    let (v, bs) ← takeWord bs
    return (.buildWrite addr reg v, bs)
  | 0x1A => do
    let (l, bs) ← takeList bs
    return (.crc8 l, bs)
  | 0x1B => do
    let (baud, bs) ← takeWord bs
    return (.turnaround baud, bs)
  | _ => .error (.badTag op)

/-- One operation word at the front of a byte list: the tag of R86, then its operands. Every other tag is refused. -/
def decodeOp (bs : List Byte) : Except Reject (Instr × List Byte) := do
  let (op, bs) ← takeByte bs
  decodeOperands op bs

/-- A whole wire frame. Formats are told apart by length, by the write flag and by the reply marker (R70, R81):
4 bytes with the flag 0 a READ_REQ (R72), 8 bytes with the flag 1 a WRITE_FRAME (R71), 8 bytes with the flag 0 and the marker
a REPLY (R73). The checksum byte is a field; the validator judges it. -/
def decodeFrame : List Byte → Except Reject Instr
  | [b0, b1, b2, b3] =>
    if b0 = syncByte ∧ regFlag b2 = false then .ok (.readReq b1 (regField b2) b3) else .error .badFrame
  | [b0, b1, b2, b3, b4, b5, b6, b7] =>
    if b0 = syncByte then
      if regFlag b2 then .ok (.writeFrame b1 (regField b2) (wordOf b3 b4 b5 b6) b7)
      else if b1 = replyMarker then .ok (.reply (regField b2) (wordOf b3 b4 b5 b6) b7)
      else .error .badFrame
    else .error .badFrame
  | _ => .error .badFrame

/-- The two kinds of encoding of 30_encoding.md: operation words and wire frames. -/
inductive Format where
  | operation
  | frame
deriving DecidableEq, Repr

/-- The decoder: one instruction at the front of a byte list, and the bytes after it. A frame is taken whole (R81). -/
def decode : Format → List Byte → Except Reject (Instr × List Byte)
  | .operation, bs => decodeOp bs
  | .frame, bs => (decodeFrame bs).map (·, [])

/-! ### The encoder -/

/-- Which kind of encoding an instruction has. -/
def Instr.format : Instr → Format
  | .writeFrame _ _ _ _ => .frame
  | .readReq _ _ _ => .frame
  | .reply _ _ _ => .frame
  | _ => .operation

/-- The bytes of an instruction, from the tables of R86 and R71 to R73. -/
def encode : Instr → List Byte
  | .busInit bus pin => 0x01#8 :: (natBytes bus ++ pinBytes pin)
  | .construct t uart rsense addr bus pin =>
    0x02#8 :: (natBytes t ++ (natBytes uart ++ (natBytes rsense ++ (addr :: (natBytes bus ++ pinBytes pin)))))
  | .read t reg => 0x03#8 :: (natBytes t ++ [reg])
  | .write t reg v => 0x04#8 :: (natBytes t ++ (reg :: wordBytes v))
  | .transact t dg n timeout => 0x05#8 :: (natBytes t ++ (listBytes dg ++ (natBytes n ++ natBytes timeout)))
  | .validate f => 0x06#8 :: frameBytes f
  | .setDir d => [0x10#8, dirByte d]
  | .flush => [0x11#8]
  | .txByte i => 0x12#8 :: natBytes i
  | .wait us => 0x13#8 :: natBytes us
  | .scanEnter => [0x14#8]
  | .scanPoll => [0x15#8]
  | .captureEnter => [0x16#8]
  | .capturePoll => [0x17#8]
  | .buildReadReq addr reg => [0x18#8, addr, reg]
  | .buildWrite addr reg v => 0x19#8 :: addr :: reg :: wordBytes v
  | .crc8 bs => 0x1A#8 :: listBytes bs
  | .turnaround baud => 0x1B#8 :: wordBytes baud
  | .writeFrame addr reg v crc => syncByte :: addr :: regByte true reg :: (wordBytes v ++ [crc])
  | .readReq addr reg crc => [syncByte, addr, regByte false reg, crc]
  | .reply reg v crc => syncByte :: replyMarker :: regByte false reg :: (wordBytes v ++ [crc])

/-! ### The opcode table's words -/

/-- The `n` low bytes of `w`, most significant first: the bytes of a frame word, `b0` on top (R9). -/
def bytesHigh : Nat → Nat → List Byte
  | 0, _ => []
  | n + 1, w => BitVec.ofNat 8 (w / 256 ^ n) :: bytesHigh n w

/-- The `n` low bytes of `w`, least significant first: an operation word as its bytes are stored, the tag first. -/
def bytesLow : Nat → Nat → List Byte
  | 0, _ => []
  | n + 1, w => BitVec.ofNat 8 w :: bytesLow n (w / 256)

/-- Which encoding a row of the table has, by its width: the frames are the rows of 32 and of 64 bits, each ONE word in the
table's numbering (log 4). -/
def tableFormat (nbits : Nat) : Format := if nbits = 32 ∨ nbits = 64 then .frame else .operation

/-- The bytes of a table word: a frame's own bytes, or an operation's bytes followed by operand bytes of zero (the longest
all-zero operand list, VALIDATE's, has 8 bytes). -/
def tableBytes (nbits w : Nat) : List Byte :=
  match tableFormat nbits with
  | .frame => bytesHigh (nbits / 8) w
  | .operation => bytesLow (nbits / 8) w ++ List.replicate 8 0#8

/-- The instruction the decoder reads from a word of the opcode table. -/
def decodeTableWord (nbits w : Nat) : Option Instr :=
  match decode (tableFormat nbits) (tableBytes nbits w) with
  | .ok (i, _) => some i
  | .error _ => none

end Sys2Proof
end

