-- ==== Sys2Proof/Machine/State.lean ====
section
/-! DEFINITION. The state of the block (10_state.md), its reasons to stop, and the state at process start (70 R240). -/

namespace Sys2Proof.Machine

/-! ### Reasons to stop -/

/-- What ends a step without a next state. The model faults of the spec are none of these: they are recorded (`OpFault`). -/
inductive Fault where
  /-- Raised by a micro-step when the latches that belong to the phase contradict it (a flush after a transaction with no
  transaction in flight, a wait already passed). Safe: no run from process start reaches it (log 32). -/
  | outOfStep
deriving DecidableEq, Repr

/-- The refusals that end a step. -/
inductive Refusal where
  /-- Raised by `exec` for an instruction that has no meaning yet. Safe. -/
  | notModelled (mnemonic : String)
  /-- Raised by the step when the caller's next bytes spell no operation (30_encoding.md R86, U23). Safe. -/
  | undecodable (why : Reject)
  /-- Raised by the micro-steps when no sequencer runs them, and by the pure ones when its transceiver has no operation in
  flight: they are never issued by the caller (30_encoding.md R87). Safe (log 6). -/
  | microStepOutsideOperation
  /-- Raised by the micro-steps when the sequencer's phase names another one (10_state.md R31). Safe (log 6). -/
  | outOfPhase
deriving DecidableEq, Repr

/-- The faults and refusals of 60_exceptions.md R214, the refusal of an operation on a transceiver that was never constructed
(70 R243, U22; its name is the model's, log 10), and the fault of a read of a register never written (R44, U17; its name is the
model's, log 12). They are recorded, not raised to a handler (R213, log 8). A record is the name alone: what `raise` writes in its
parentheses (00_scope.md R10) is not kept. DESIGN CHOICE (log 36; safe). -/
inductive OpFault where
  | unsupportedContext
  | badParameter
  | notConstructed
  | notIdle
  | badRegAddr
  | badDatagramLength
  | busContention
  | zeroBaud
  /-- A micro-step reads a datapath register of 10_state.md R22 that no step has written: "a model fault, not a zero" (R44). -/
  | unwritten
deriving DecidableEq, Repr

/-! ### Values -/

/-- The error kinds of 60_exceptions.md R210. -/
inductive ErrorKind where
  | ok
  | noReply
  | incompleteFrame
  | checksumMismatch
  | zeroChecksumRejected
  | pinUnconfigured
  | retriesExhausted
deriving DecidableEq, Repr

/-- What TRANSACT returns (10_state.md R48). -/
inductive TransactResult where
  | frame (v : BitVec 64)
  | noReply
  | incompleteFrame
deriving DecidableEq, Repr

/-- What VALIDATE returns (45_validator.md R180). -/
inductive Verdict where
  | accept (value : Word)
  | reject (kind : ErrorKind)
deriving DecidableEq, Repr

/-- The return value of an operation (log 24). -/
inductive Answer where
  /-- CONSTRUCT: the transceiver is there (R110, 60 R229). -/
  | constructed
  /-- READ: the value and the success flag (R190). -/
  | read (value : Word) (ok : Bool)
  /-- WRITE returns nothing (R200). -/
  | written
  /-- TRANSACT issued directly (R151). -/
  | transact (r : TransactResult)
  /-- VALIDATE issued directly (R180). -/
  | verdict (v : Verdict)
deriving DecidableEq, Repr

/-- The value of a pure function that a sequencer has evaluated inside its operation (30_encoding.md R87; log 7). -/
inductive Value where
  /-- BUILD_READ_REQ, BUILD_WRITE: the datagram (R120, R121). -/
  | datagram (bs : List Byte)
  /-- CRC8 (R126). -/
  | checksum (c : Byte)
  /-- TURNAROUND: microseconds (R111). -/
  | micros (us : Word)
deriving DecidableEq, Repr

/-- An entry of the event trace (10_state.md R41). -/
inductive Event where
  | flushed (n : Nat)
  | dirSet (d : Dir)
  | tx (b : Byte)
  | waited (us : Nat)
  | rx (b : Byte)
  | tick
  | attempt (k : Nat) (outcome : ErrorKind)
  | log (kind : ErrorKind)
deriving DecidableEq, Repr

/-! ### The bus buffer (R27 to R29, R40) -/

/-- `BB.direction` (R28). -/
inductive BusDirection where
  | unset
  | transmit
  | receive
deriving DecidableEq, Repr

/-- The direction pin of a bus: not driven by the block, at the level `Config.startLevel` of the bus, or an output at a level
(R40, R240; log 13). `State.pinLevel` reads the level of either. -/
inductive Pin where
  | undriven
  | output (level : Bool)
deriving DecidableEq, Repr

/-- The BusBufferResource `BB` of one physical bus. -/
structure Bus where
  initialized : Bool
  handle : Option Nat
  direction : BusDirection
  busy : Bool
  pin : Pin
deriving DecidableEq, Repr

/-- A `BB` at process start (R240). -/
def Bus.start : Bus where
  initialized := false
  handle := none
  direction := .unset
  busy := false
  pin := .undriven

/-! ### UART channels (R37, R38) -/

/-- A UART channel: its baud rate, its receive FIFO `RX` and its transmit log `TXLOG`. -/
structure Uart where
  baud : Word
  rx : List Byte
  txlog : List Byte
deriving DecidableEq, Repr

/-- A channel at process start. DESIGN CHOICE (log 16; unsafe): nobody has opened it, so its rate is 0, and its FIFO
is empty. -/
def Uart.start : Uart where
  baud := 0#32
  rx := []
  txlog := []

/-! ### Transceivers (R22 to R26, R30 to R34, R45 to R48) -/

/-- The sequencer phases of R30. -/
inductive Phase where
  | idle
  | preFlush
  | dirTx
  | tx (i : Nat)
  | turnaround
  | dirRx
  | replyWait
  | scanEnter
  | scan
  | captureEnter
  | capture
  | postFlush
  | validate
  | wDirTx
  | wTx (i : Nat)
  | wReplyWait
  | wEnd
deriving DecidableEq, Repr

/-- The operation in flight on a transceiver, with the operands its micro-steps use (R140, R190, R200; log 24). -/
inductive Job where
  | none
  /-- READ; its datagram is `T.req`, its scan timeout `SCAN_TIMEOUT`. -/
  | read
  /-- TRANSACT issued directly. -/
  | direct (dg : List Byte) (scanTimeout : Nat)
  /-- WRITE, with its frame `f`. -/
  | write (f : List Byte)
deriving DecidableEq, Repr

/-- Where a blocking write or wait of the sequencer stands (R11, R20, R143, R144; log 18). -/
inductive Hold where
  /-- The micro-step has not begun. -/
  | free
  /-- The write or wait has been asked for; the sequencer is held. -/
  | started
  /-- The environment or the delay agent has completed it. -/
  | completed
  /-- The wait of `WEnd` is over and its SET_DIR is next (R204; log 19). -/
  | passed
deriving DecidableEq, Repr

/-- `T.cfg` (R34). -/
structure DriverConfig where
  baud : Word
  delayUs : Word
  slaveAddr : Byte
  rsense : Nat
deriving DecidableEq, Repr

/-- A transceiver record. A datapath register of R22 that no step has written holds no value: `none` (R44; log 12). -/
structure Transceiver where
  cfg : DriverConfig
  bus : Nat
  uart : Nat
  phase : Phase
  readFailed : Bool
  window : Option (BitVec 24)
  acc : Option (BitVec 64)
  budget : Option Nat
  lastMs : Option Word
  capCount : Option Nat
  target : Option (BitVec 24)
  req : Option (List Byte)
  attempt : Option Nat
  result : Option TransactResult
  /-- The operation in flight. -/
  job : Job
  /-- The hold of the running write or wait. -/
  hold : Hold
  /-- The bytes the running flush has discarded: the local `n` of R141. -/
  flushed : Nat
  /-- A fault has stopped the operation in flight: no later step of it runs (60_exceptions.md R213; log 8). -/
  stopped : Bool
  /-- The return value of the last operation, once it has one. -/
  answer : Option Answer
  /-- The value of the pure function its sequencer last evaluated; no rule reads it (log 7). -/
  value : Option Value
deriving DecidableEq, Repr

/-! ### The agents' moves (R20) -/

/-- The caller-side flag of 60_exceptions.md R218. -/
inductive Context where
  | stallTolerant
  | realTime
deriving DecidableEq, Repr

/-- What the environment may do (R20, R37, R143, R252). -/
inductive EnvStep where
  /-- Bytes arrive on the receive line of a UART channel. -/
  | deliver (uart : Nat) (bytes : List Byte)
  /-- The blocking UART write that transceiver `t` is held on completes. -/
  | writeDone (t : Nat)
  /-- A UART channel is opened or re-rated from outside the block. -/
  | configure (uart : Nat) (baud : Word)
deriving DecidableEq, Repr

/-- One move of one agent: the five agents of R20. -/
inductive Move where
  /-- The caller issues the next operation of its program, in a context. -/
  | caller (ctx : Context)
  /-- The sequencer of transceiver `t` runs its next micro-step. -/
  | sequencer (t : Nat)
  /-- The sequencer of transceiver `t` evaluates a pure function inside its operation (30_encoding.md R87; log 7). -/
  | evaluate (t : Nat) (i : Instr)
  /-- The environment acts. -/
  | environment (e : EnvStep)
  /-- The millisecond clock advances by `n`. -/
  | clock (n : Nat)
  /-- The delay agent completes the wait that transceiver `t` is held on. -/
  | delay (t : Nat)
deriving DecidableEq, Repr

/-- A table of numbered things, in canonical form when its keys rise and no entry is what an unlisted key reads as. -/
abbrev Table (α : Type) := List (Nat × α)

/-- The whole state. -/
structure State where
  /-- The parameters of R8; no step writes them (R35). -/
  params : Params
  /-- The bus-buffer resources that differ from process start. -/
  buses : Table Bus
  /-- The UART channels that differ from process start. -/
  uarts : Table Uart
  /-- The transceivers that have been constructed. -/
  transceivers : Table Transceiver
  /-- `CLK` (R39). -/
  clk : Word
  /-- `EVENTS`, oldest first (R41). -/
  events : List Event
  /-- The fault list, oldest first; no step clears it (60_exceptions.md R213). -/
  faults : List OpFault
  /-- The return value of the last VALIDATE issued directly. -/
  answer : Option Answer
  /-- The operations the caller will issue, as bytes, the next one first (R62, R86; log 2). -/
  program : List Byte
  /-- The agents' moves to come, the next one first (R20; log 1). -/
  schedule : List Move
  /-- The context of the caller's operation (R218). -/
  ctx : Context
  /-- The transceiver whose sequencer takes this step; `none` when the caller does. -/
  running : Option Nat
  /-- The UART channel of the environment's step. -/
  line : Nat
  /-- The MODEL's own counter of the free values drawn (log 13). -/
  draws : Nat
deriving DecidableEq, Repr

/-- Process start with parameters `p` (70 R240). `RX` and `CLK` are unspecified there: log 16. -/
def State.processStart (p : Params) : State where
  params := p
  buses := []
  uarts := []
  transceivers := []
  clk := 0#32
  events := []
  faults := []
  answer := none
  program := []
  schedule := []
  ctx := .stallTolerant
  running := none
  line := 0
  draws := 0

/-- The machine right after reset: the block has no reset but process start (70 R240). -/
def State.reset : State := State.processStart Params.vectors

end Sys2Proof.Machine
end

