-- ==== Sys2Proof/Machine/Operands.lean ====
section
/-! DEFINITION. Every operand form and datapath computation: checksums, datagrams, the scan target, the window and the
accumulator, the turnaround delay, pins and levels, and the operands of the operation in flight. All of it is pure. -/

namespace Sys2Proof.Machine

/-! ### Checksum (42_framer_crc.md R126, R127) -/

/-- `n` rounds of the bit loop of R127 on the checksum `c` and the byte `cur`, least significant bit first. -/
def crcBits : Nat → Byte → Byte → Byte
  | 0, c, _ => c
  | n + 1, c, cur =>
    crcBits n (if c.getLsbD 7 ^^ cur.getLsbD 0 then (c <<< 1) ^^^ 0x07#8 else c <<< 1) (cur >>> 1)

/-- The default `CRC8` of R127. PRESUMED (log 15; the spec's own general knowledge). -/
def crcTrinamic (bs : List Byte) : Byte := bs.foldl (crcBits 8) 0#8

/-- `CRC8(bs)` under the parameter `CRC8` (R126). -/
def crc8 : CrcChoice → List Byte → Byte
  | .trinamic, bs => crcTrinamic bs
  | .other n, bs => Config.otherCrc8 n bs

/-! ### Datagrams (R120, R121, R122) -/

/-- A frame's bytes closed by their checksum (R122, 30_encoding.md R77). -/
def closed (crc : CrcChoice) (body : List Byte) : List Byte := body ++ [crc8 crc body]

/-- `BUILD_WRITE(addr, regAddr, value)` (R120). -/
def writeDatagram (crc : CrcChoice) (addr regAddr : Byte) (value : Word) : List Byte :=
  closed crc (syncByte :: addr :: (regAddr ||| writeFlag) :: wordBytes value)

/-- `BUILD_READ_REQ(addr, regAddr)` (R121). -/
def readDatagram (crc : CrcChoice) (addr regAddr : Byte) : List Byte :=
  closed crc [syncByte, addr, regAddr]

/-! ### Synchronizer datapath (R74, R78, R162, R167) -/

/-- The scan target of a datagram with bytes `b0` and `b2` (30_encoding.md R74). -/
def targetOf (b0 b2 : Byte) : BitVec 24 :=
  (b0.setWidth 24 <<< 16) ||| 0xFF00#24 ||| b2.setWidth 24

/-- The window after one received byte (10_state.md R23). -/
def shiftWindow (w : BitVec 24) (b : Byte) : BitVec 24 := ((w <<< 8) ||| b.setWidth 24) &&& 0xFFFFFF#24

/-- The accumulator after one captured byte (44_synchronizer.md R167). -/
def shiftAcc (a : BitVec 64) (b : Byte) : BitVec 64 := (a <<< 8) ||| b.setWidth 64

/-- `CAPTURE_LEN` (00_scope.md R7). -/
def captureLen : Nat := 5

/-! ### Validator (45_validator.md R180, R181) -/

/-- VALIDATE of a captured frame: mismatch first, then the zero checksum, else the big-endian value. -/
def verdictOf (crc : CrcChoice) (f : BitVec 64) : Verdict :=
  let c := crc8 crc ((frameBytes f).take 7)
  if c ≠ frameByte f 7 then .reject .checksumMismatch
  else if c = 0#8 then .reject .zeroChecksumRejected
  else .accept (wordOf (frameByte f 3) (frameByte f 4) (frameByte f 5) (frameByte f 6))

/-! ### Turnaround timer (41_turnaround_timer.md R111) -/

/-- `US_PER_S` (R7). -/
def usPerS : Nat := 1000000

/-- `TURNAROUND_BITS` (R7, R112). -/
def turnaroundBits : Nat := 40

/-- `TURNAROUND(baud)`, microseconds, truncated toward zero. -/
def turnaroundUs (baud : Word) : Word := BitVec.ofNat 32 (usPerS * turnaroundBits / baud.toNat)

/-! ### Pins (10_state.md R27, 40_bus_buffer.md R103) -/

/-- `native(p)` of a defined pin, `none` for any other: `pin_defined(p)` is `isSome`. -/
def nativeHandle (pins : List (Nat × Nat)) (p : Nat) : Option Nat := pins.lookup p

/-- The native handle of a pin operand; `Undefined` has none. -/
def pinHandle (pins : List (Nat × Nat)) : Option Nat → Option Nat
  | none => none
  | some p => nativeHandle pins p

/-- `level(d)` (R103). -/
def level (p : Params) : Dir → Bool
  | .transmit => p.dirTxLevel
  | .receive => !p.dirTxLevel

/-- The bus direction SET_DIR sets (R102). -/
def directionOf : Dir → BusDirection
  | .transmit => .transmit
  | .receive => .receive

/-! ### Operands of the operation in flight (43_transceiver.md R140, 46_read_write.md R190, R200) -/

/-- The bytes the running operation sends. -/
def Transceiver.datagram (T : Transceiver) : Option (List Byte) :=
  match T.job with
  | .none => none
  | .read => T.req
  | .direct dg _ => some dg
  | .write f => some f

/-- `dg[i]` of the running operation. -/
def Transceiver.byteAt (T : Transceiver) (i : Nat) : Option Byte :=
  match T.datagram with
  | none => none
  | some dg => dg[i]?

/-- `scanTimeout` of the running TRANSACT; READ passes `SCAN_TIMEOUT`. -/
def Transceiver.scanBudget (p : Params) (T : Transceiver) : Option Nat :=
  match T.job with
  | .read => some p.scanTimeout
  | .direct _ scanTimeout => some scanTimeout
  | _ => none

/-- The phase after byte `i` of a datagram of `n` bytes (R143, R202). -/
def Phase.afterByte (ph : Phase) (i n : Nat) : Phase :=
  match ph with
  | .wTx _ => if i + 1 < n then .wTx (i + 1) else .wReplyWait
  | _ => if i + 1 < n then .tx (i + 1) else .turnaround

/-- The phases in which the sequencer is held on a UART write (R143, R202). -/
def Phase.sends : Phase → Bool
  | .tx _ => true
  | .wTx _ => true
  | _ => false

/-- The phases in which the sequencer is held on a wait (R144, R146, R203, R204). -/
def Phase.waits : Phase → Bool
  | .turnaround => true
  | .replyWait => true
  | .wReplyWait => true
  | .wEnd => true
  | _ => false

end Sys2Proof.Machine
end

