-- ==== Sys2Proof/Machine/Flags.lean ====
section
/-! DEFINITION. Flags, codes and counts: the flags of 10_state.md R33, the error-kind codes of 60_exceptions.md R210, the fault
table of R214, and the tick rule of 44_synchronizer.md R161. The block has no condition codes (R33). -/

namespace Sys2Proof.Machine

/-- The code of an error kind (R210). -/
def ErrorKind.code : ErrorKind → Nat
  | .ok => 0
  | .noReply => 1
  | .incompleteFrame => 2
  | .checksumMismatch => 3
  | .zeroChecksumRejected => 4
  | .pinUnconfigured => 5
  | .retriesExhausted => 6

/-- Whether R214 calls a recorded stop a refusal (else it is a fault). An operation on a transceiver never constructed is
refused (70 R243); a read of an unwritten register is a fault (10_state.md R44). -/
def OpFault.isRefusal : OpFault → Bool
  | .unsupportedContext => true
  | .badParameter => true
  | .notConstructed => true
  | .notIdle => false
  | .badRegAddr => false
  | .badDatagramLength => false
  | .busContention => false
  | .zeroBaud => true
  | .unwritten => false

/-- The parameters meet their constraints (00_scope.md R8, 70 R243). -/
def paramsValid (p : Params) : Bool :=
  decide (1 ≤ p.maxRetries) && decide (1 ≤ p.scanTimeout) && decide (1 ≤ p.abortWindow)

/-- `BB.busy` (R29). -/
def Bus.setBusy (v : Bool) (b : Bus) : Bus := { b with busy := v }

/-- `T.read_failed` (R32). -/
def Transceiver.setReadFailed (v : Bool) (T : Transceiver) : Transceiver := { T with readFailed := v }

/-- The tick rule of R161 at clock value `now`: the transceiver after it, and whether it ticked.
`none` if the budget or the last clock value was never written (R44). -/
def Transceiver.tick (now : Word) (T : Transceiver) : Option (Transceiver × Bool) :=
  match T.budget, T.lastMs with
  | some n, some ms =>
    if now ≠ ms then some ({ T with budget := some (n - 1), lastMs := some now }, true)
    else some (T, false)
  | _, _ => none

/-- What VALIDATE's rejection or a failed TRANSACT records in the `Attempt` event (46 R190). -/
def TransactResult.kind : TransactResult → ErrorKind
  | .frame _ => .ok
  | .noReply => .noReply
  | .incompleteFrame => .incompleteFrame

end Sys2Proof.Machine
end

