-- ==== Sys2Proof/Machine/Ops.lean ====
section
/-! DEFINITION. The named operations over the state: the numbered tables, the accessors of buses, UART channels and
transceivers, the recording of a fault, the preconditions of an operation, the sequencer's choice of its micro-step, and the
ends of an attempt and of an operation. -/

namespace Sys2Proof.Machine

/-- The outcome of a step. -/
abbrev Step := Host.Outcome State Fault Refusal

/-! ### Numbered tables -/

/-- The entry under a key. -/
def Table.find {α : Type} (k : Nat) : Table α → Option α
  | [] => none
  | (j, v) :: rest => if j = k then some v else Table.find k rest

/-- The table with an entry under a key, keys rising. -/
def Table.insert {α : Type} (k : Nat) (v : α) : Table α → Table α
  | [] => [(k, v)]
  | (j, w) :: rest =>
    if k < j then (k, v) :: (j, w) :: rest
    else if k = j then (k, v) :: rest
    else (j, w) :: Table.insert k v rest

/-- The table without a key. -/
def Table.erase {α : Type} (k : Nat) : Table α → Table α
  | [] => []
  | (j, w) :: rest => if j = k then Table.erase k rest else (j, w) :: Table.erase k rest

/-- What a key reads as, where an unlisted key reads as `d`. -/
def Table.read {α : Type} (d : α) (k : Nat) (m : Table α) : α := (Table.find k m).getD d

/-- Writing a key; writing what an unlisted key reads as removes the entry, so that equal contents are equal tables. -/
def Table.write {α : Type} [DecidableEq α] (d : α) (k : Nat) (v : α) (m : Table α) : Table α :=
  if v = d then Table.erase k m else Table.insert k v m

/-- Every key of a table is above `k`. -/
def Table.above {α : Type} (k : Nat) (m : Table α) : Bool := m.all (fun e => decide (k < e.1))

/-- The keys rise. -/
def Table.rising {α : Type} : Table α → Bool
  | [] => true
  | (k, _) :: rest => Table.above k rest && Table.rising rest

/-- The canonical form: keys rise and no entry is what an unlisted key reads as. -/
def Table.wf {α : Type} [DecidableEq α] (d : α) (m : Table α) : Bool :=
  Table.rising m && m.all (fun e => decide (e.2 ≠ d))

/-! ### Accessors -/

/-- The `BB` of bus `b`; every bus has one from process start (40_bus_buffer.md R105). -/
def State.bus (s : State) (b : Nat) : Bus := Table.read Bus.start b s.buses

/-- The state with another `BB` of bus `b`. -/
def State.setBus (b : Nat) (v : Bus) (s : State) : State := { s with buses := Table.write Bus.start b v s.buses }

/-- The level of the direction pin of bus `b` (R40, R240): the one SET_DIR wrote, or a free value (log 13). -/
def State.pinLevel (s : State) (b : Nat) : Bool :=
  match (s.bus b).pin with
  | .undriven => Config.startLevel b
  | .output l => l

/-- UART channel `u`. -/
def State.uart (s : State) (u : Nat) : Uart := Table.read Uart.start u s.uarts

/-- The state with another UART channel `u`. -/
def State.setUart (u : Nat) (v : Uart) (s : State) : State := { s with uarts := Table.write Uart.start u v s.uarts }

/-- Transceiver `t`, if it has been constructed (70 R240). -/
def State.transceiver (s : State) (t : Nat) : Option Transceiver := Table.find t s.transceivers

/-- The state with another record of transceiver `t`. -/
def State.setTransceiver (t : Nat) (T : Transceiver) (s : State) : State :=
  { s with transceivers := Table.insert t T s.transceivers }

/-- `Emit(e)` (00_scope.md R10). -/
def State.emit (e : Event) (s : State) : State := { s with events := s.events ++ [e] }

/-- The state with the block's answer port written. -/
def State.setAnswer (a : Answer) (s : State) : State := { s with answer := some a }

/-- The tables are in canonical form. -/
def State.wf (s : State) : Bool :=
  Table.wf Bus.start s.buses && Table.wf Uart.start s.uarts && Table.rising s.transceivers

/-! ### UART primitives (00_scope.md R10) -/

/-- Bytes arrive at the tail of `RX` of channel `u` (10_state.md R37). -/
def State.deliver (u : Nat) (bs : List Byte) (s : State) : State :=
  s.setUart u { s.uart u with rx := (s.uart u).rx ++ bs }

/-- `RX` of channel `u` after `UartRead()` has taken its head byte. -/
def State.setRx (u : Nat) (rest : List Byte) (s : State) : State := s.setUart u { s.uart u with rx := rest }

/-- A completed `UartWrite(b)` on channel `u` (10_state.md R38). -/
def State.logTx (u : Nat) (b : Byte) (s : State) : State :=
  s.setUart u { s.uart u with txlog := (s.uart u).txlog ++ [b] }

/-! ### Faults and preconditions (60_exceptions.md R213 to R215) -/

/-- Raising a fault or a refusal of R214: its name is recorded in the fault list (R213; log 8). What `raise` writes in its
parentheses (00_scope.md R10), such as `T` in `raise ZeroBaud(T)`, is not kept. DESIGN CHOICE (log 36; safe). -/
def State.raise (f : OpFault) (s : State) : State := { s with faults := s.faults ++ [f] }

/-- A fault raised by a step of the operation in flight on `t`: it is recorded, and the operation is stopped, so that no later step
of it runs (R213; log 8). -/
def State.stopOperation (t : Nat) (T : Transceiver) (f : OpFault) (s : State) : State :=
  (s.raise f).setTransceiver t { T with stopped := true }

/-- The first failing precondition of a list in the order of R215. -/
def firstFault : List (Bool × OpFault) → Option OpFault
  | [] => none
  | (fails, f) :: rest => if fails then some f else firstFault rest

/-- An operation with its preconditions: they are all checked before its first step (R213). -/
def guarded (checks : List (Bool × OpFault)) (s : State) (run : Step) : Step :=
  match firstFault checks with
  | some f => .next (s.raise f)
  | none => run

/-- The preconditions of every operation: its context (R218) and the model's parameters (R243; log 9). -/
def State.requestChecks (s : State) : List (Bool × OpFault) :=
  [(decide (s.ctx = .realTime), .unsupportedContext), (!paramsValid s.params, .badParameter)]

/-- `T.phase = Idle`; a transceiver that does not exist is not busy with anything. -/
def State.idle (s : State) (t : Nat) : Bool :=
  match s.transceiver t with
  | some T => decide (T.phase = .idle)
  | none => true

/-- `BB.busy` of the bus of transceiver `t`. -/
def State.contended (s : State) (t : Nat) : Bool :=
  match s.transceiver t with
  | some T => (s.bus T.bus).busy
  | none => false

/-- The preconditions of an operation on a constructed transceiver `t` (R214, R243; log 10). -/
def State.ownerChecks (s : State) (t : Nat) : List (Bool × OpFault) :=
  [((s.transceiver t).isNone, .notConstructed), (!s.idle t, .notIdle)]

/-- The preconditions of READ and of WRITE (46_read_write.md R190, R200), in the order of R215. -/
def State.registerChecks (s : State) (t : Nat) (regAddr : Byte) : List (Bool × OpFault) :=
  s.requestChecks ++ s.ownerChecks t ++ [(!admitsReg regAddr, .badRegAddr), (s.contended t, .busContention)]

/-- The preconditions of TRANSACT issued directly (43_transceiver.md R140), in the order of R215. -/
def State.transactChecks (s : State) (t : Nat) (dg : List Byte) (payloadLen scanTimeout : Nat) :
    List (Bool × OpFault) :=
  s.requestChecks ++ [(decide (scanTimeout = 0), .badParameter)] ++ s.ownerChecks t ++
    [(!admitsLength dg payloadLen, .badDatagramLength), (s.contended t, .busContention)]

/-- The preconditions of CONSTRUCT (41_turnaround_timer.md R110), in the order of R215. -/
def State.constructChecks (s : State) (t uart : Nat) : List (Bool × OpFault) :=
  s.requestChecks ++ [(!s.idle t, .notIdle), (decide ((s.uart uart).baud = 0#32), .zeroBaud)]

/-- Running an operation on the record of `t`. -/
def State.withTransceiver (s : State) (t : Nat) (run : Transceiver → Step) : Step :=
  match s.transceiver t with
  | some T => run T
  | none => .next (s.raise .notConstructed)

/-! ### The sequencer (10_state.md R30, R31) -/

/-- The micro-step the phase of `T` names; `none` when it names no row: `Idle`, a `WEnd` that only ends the operation (R204),
or a `Validate` with no frame. -/
def microOp (p : Params) (T : Transceiver) : Option Instr :=
  match T.phase with
  | .idle => none
  | .preFlush => some .flush
  | .dirTx => some (.setDir .transmit)
  | .tx i => some (.txByte i)
  | .turnaround => some (.wait T.cfg.delayUs.toNat)
  | .dirRx => some (.setDir .receive)
  | .replyWait => some (.wait p.replyDelayUs)
  | .scanEnter => some .scanEnter
  | .scan => some .scanPoll
  | .captureEnter => some .captureEnter
  | .capture => some .capturePoll
  | .postFlush => some .flush
  | .validate =>
    match T.result with
    | some (.frame f) => some (.validate f)
    | _ => none
  | .wDirTx => some (.setDir .transmit)
  | .wTx i => some (.txByte i)
  | .wReplyWait => some (.wait p.replyDelayUs)
  | .wEnd =>
    match p.writeEnd with
    | .hold => none
    | .release => if T.hold = .passed then some (.setDir .receive) else some (.wait T.cfg.delayUs.toNat)

/-- The transceiver whose sequencer takes the step; the caller has none (30_encoding.md R87; log 6). -/
def State.withRunning (s : State) (run : Nat → Transceiver → Step) : Step :=
  match s.running with
  | none => .refused .microStepOutsideOperation
  | some t =>
    match s.transceiver t with
    | none => .refused .microStepOutsideOperation
    | some T => run t T

/-- A micro-step runs on the transceiver whose sequencer takes the step, and only in a phase that names it (R31, R87; log 6). -/
def onSequencer (i : Instr) (s : State) (run : Nat → Transceiver → Step) : Step :=
  s.withRunning fun t T => if microOp s.params T = some i then run t T else .refused .outOfPhase

/-- The micro-steps that are pure functions, which no phase names (30_encoding.md R86, R87). -/
def isPure : Instr → Bool
  | .buildReadReq _ _ => true
  | .buildWrite _ _ _ => true
  | .crc8 _ => true
  | .turnaround _ => true
  | .busInit _ _ => false
  | .construct _ _ _ _ _ _ => false
  | .read _ _ => false
  | .write _ _ _ => false
  | .transact _ _ _ _ => false
  | .validate _ => false
  | .setDir _ => false
  | .flush => false
  | .txByte _ => false
  | .wait _ => false
  | .scanEnter => false
  | .scanPoll => false
  | .captureEnter => false
  | .capturePoll => false
  | .writeFrame _ _ _ _ => false
  | .readReq _ _ _ => false
  | .reply _ _ _ => false

/-- A pure function is evaluated by a sequencer with an operation in flight, and writes nothing of the spec's state: its value
goes to the latch `value` (30_encoding.md R87). It has no exception (41 R111, 42 R120, R121, R126), and no operation applies it
out of its operand range (30 R83, 41 R110), so there nothing is evaluated and the operation goes on (20_memory.md R56).
DESIGN CHOICE (log 7). -/
def evaluated (inRange : Bool) (v : Value) (s : State) : Step :=
  s.withRunning fun t T =>
    if T.phase = .idle then .refused .microStepOutsideOperation
    else if inRange then .next (s.setTransceiver t { T with value := some v })
    else .next s

/-- The running operation has no byte to give: READ's request `T.req` is unwritten (10_state.md R44), or the latches contradict
the phase (log 32). -/
def State.noDatagram (t : Nat) (T : Transceiver) (s : State) : Step :=
  if T.job = .read ∧ T.req = none then .next (s.stopOperation t T .unwritten) else .fault .outOfStep

/-! ### Starting and ending an operation -/

/-- An operation starts on `T` (already in its first phase): the bus is busy for its duration (R29). The caller's own step does
this, and so takes `T.phase` off `Idle`; R31 does not say how an issue reaches the sequencer. DESIGN CHOICE (log 37; safe). -/
def State.startOperation (t : Nat) (T : Transceiver) (s : State) : State :=
  (s.setBus T.bus ((s.bus T.bus).setBusy true)).setTransceiver t
    { T with hold := .free, flushed := 0, stopped := false, answer := none }

/-- An operation ends: the bus is free, the phase is `Idle`, the return value is fixed (R230). -/
def State.endOperation (t : Nat) (T : Transceiver) (a : Answer) (s : State) : State :=
  (s.setBus T.bus ((s.bus T.bus).setBusy false)).setTransceiver t
    { T with phase := .idle, job := .none, hold := .free, answer := some a }

/-- Attempt `k` of a READ has failed with `kind`; `T.attempt` counts it already. The next attempt starts, or READ returns
`(0, false)` with the failure flag up (46_read_write.md R190, R191, 60 R221). -/
def State.failAttempt (t : Nat) (T : Transceiver) (k : Nat) (kind : ErrorKind) (s : State) : State :=
  let s := s.emit (.attempt k kind)
  if k + 1 < s.params.maxRetries then s.setTransceiver t { T with phase := .preFlush, flushed := 0 }
  else s.endOperation t (T.setReadFailed true) (.read 0#32 false)

/-- The last turn of PostFlush ends TRANSACT (43_transceiver.md R150, R151), which returns to the caller, or to READ
(46_read_write.md R190). A result or an attempt counter that nothing has written is the fault of R44. -/
def State.afterTransact (t : Nat) (T : Transceiver) (s : State) : Step :=
  match T.job, T.result with
  | .direct _ _, some r => .next ((s.emit (.flushed T.flushed)).endOperation t T (.transact r))
  | .read, some r =>
    match T.attempt with
    | none => .next (s.stopOperation t T .unwritten)
    | some k =>
      match r with
      | .frame _ =>
        .next ((s.emit (.flushed T.flushed)).setTransceiver t { T with attempt := some (k + 1), phase := .validate })
      | .noReply => .next ((s.emit (.flushed T.flushed)).failAttempt t { T with attempt := some (k + 1) } k r.kind)
      | .incompleteFrame =>
        .next ((s.emit (.flushed T.flushed)).failAttempt t { T with attempt := some (k + 1) } k r.kind)
  | .direct _ _, none => .next (s.stopOperation t T .unwritten)
  | .read, none => .next (s.stopOperation t T .unwritten)
  | _, _ => .fault .outOfStep

end Sys2Proof.Machine
end

