-- ==== Sys2Proof/Machine/Bus.lean ====
section
/-! DEFINITION. The bus buffer: BUS_INIT and SET_DIR (40_bus_buffer.md). -/

namespace Sys2Proof.Machine

/-- The body of BUS_INIT (R100, R101): nothing on an initialised bus; a defined pin becomes an output at a level that is
unspecified (R242; a free value, log 13); an undefined pin is logged. -/
def State.initBus (b : Nat) (pin : Option Nat) (s : State) : State :=
  if (s.bus b).initialized then s
  else
    match pinHandle s.params.pins pin with
    | some h =>
      ({ s with draws := s.draws + 1 } : State).setBus b
        { s.bus b with
          handle := some h, initialized := true, pin := .output (Config.freeLevel s.draws) }
    | none => s.emit (.log .pinUnconfigured)

/-- The body of SET_DIR on bus `b` (R102): nothing on an uninitialised bus. -/
def State.setDirection (b : Nat) (d : Dir) (s : State) : State :=
  if (s.bus b).initialized then
    (s.setBus b { s.bus b with direction := directionOf d, pin := .output (level s.params d) }).emit (.dirSet d)
  else s

/-- BUS_INIT (R100). The caller's own step runs it whole: a bus has no sequencer (10_state.md R20). DESIGN CHOICE (log 38; safe). -/
def execBusInit (bus : Nat) (pin : Option Nat) (s : State) : Step :=
  guarded s.requestChecks s (.next (s.initBus bus pin))

/-- SET_DIR in the phases `DirTx`, `DirRx` (43 R142, R145), `WDirTx`, `WEnd` (46 R201, R204). -/
def execSetDir (d : Dir) (s : State) : Step :=
  onSequencer (.setDir d) s fun t T =>
    match T.phase with
    | .dirTx => .next ((s.setDirection T.bus d).setTransceiver t { T with phase := .tx 0 })
    | .dirRx => .next ((s.setDirection T.bus d).setTransceiver t { T with phase := .replyWait })
    | .wDirTx => .next ((s.setDirection T.bus d).setTransceiver t { T with phase := .wTx 0 })
    | .wEnd => .next ((s.setDirection T.bus d).endOperation t T .written)
    | _ => .fault .outOfStep

end Sys2Proof.Machine
end

