-- ==== Sys2Proof/Machine/Construct.lean ====
section
/-! DEFINITION. CONSTRUCT and TURNAROUND (41_turnaround_timer.md). -/

namespace Sys2Proof.Machine

/-- The record CONSTRUCT creates (R110): every datapath register is unwritten, and the operation has returned (60 R230). -/
def Transceiver.fresh (baud : Word) (uart rsense : Nat) (slaveAddr : Byte) (bus : Nat) : Transceiver where
  cfg := { baud := baud, delayUs := turnaroundUs baud, slaveAddr := slaveAddr, rsense := rsense }
  bus := bus
  uart := uart
  phase := .idle
  readFailed := false
  window := none
  acc := none
  budget := none
  lastMs := none
  capCount := none
  target := none
  req := none
  attempt := none
  result := none
  job := .none
  hold := .free
  flushed := 0
  stopped := false
  answer := some .constructed
  value := none

/-- CONSTRUCT (R110): refused with ZeroBaud before any state is written; else BUS_INIT, then the record. Nothing checks that the
transceivers of one UART channel are on one bus. DESIGN CHOICE (log 35; safe): on two buses they share `RX` and `TXLOG`. The caller's own step runs it whole: its transceiver, whose
sequencer would, is not there yet (10_state.md R20). DESIGN CHOICE (log 38; safe). -/
def execConstruct (t uart rsense : Nat) (slaveAddr : Byte) (bus : Nat) (pin : Option Nat) (s : State) : Step :=
  guarded (s.constructChecks t uart) s
    (.next ((s.initBus bus pin).setTransceiver t
      (Transceiver.fresh (s.uart uart).baud uart rsense slaveAddr bus)))

/-- TURNAROUND as a row of its own (R111). "`baud = 0` never reaches this function". -/
def execTurnaround (baud : Word) (s : State) : Step :=
  evaluated (decide (baud ≠ 0#32)) (.micros (turnaroundUs baud)) s

end Sys2Proof.Machine
end

