-- ==== Sys2Proof/Machine/Framer.lean ====
section
/-! DEFINITION. The framer and the checksum as rows of their own (42_framer_crc.md): pure functions that only a sequencer
evaluates, inside an operation (30_encoding.md R87; log 7). -/

namespace Sys2Proof.Machine

/-- BUILD_READ_REQ (R121). No frame is built for a register address above `0x7F` (30_encoding.md R83). -/
def execBuildReadReq (addr regAddr : Byte) (s : State) : Step :=
  evaluated (admitsReg regAddr) (.datagram (readDatagram s.params.crc addr regAddr)) s

/-- BUILD_WRITE (R120). No frame is built for a register address above `0x7F` (30_encoding.md R83). -/
def execBuildWrite (addr regAddr : Byte) (value : Word) (s : State) : Step :=
  evaluated (admitsReg regAddr) (.datagram (writeDatagram s.params.crc addr regAddr value)) s

/-- CRC8 (R126). -/
def execCrc8 (bs : List Byte) (s : State) : Step := evaluated true (.checksum (crc8 s.params.crc bs)) s

end Sys2Proof.Machine
end

