-- ==== Sys2Proof/Machine/ReadWrite.lean ====
section
/-! DEFINITION. READ and WRITE at issue (46_read_write.md); their phases run as the sequencer's micro-steps. -/

namespace Sys2Proof.Machine

/-- READ (R190): the request is built once, the attempt counter starts at 0, the first TRANSACT starts at `PreFlush`. -/
def execRead (t : Nat) (regAddr : Byte) (s : State) : Step :=
  guarded (s.registerChecks t regAddr) s
    (s.withTransceiver t fun T =>
      .next (s.startOperation t
        { T with
          req := some (readDatagram s.params.crc T.cfg.slaveAddr regAddr), attempt := some 0, job := .read,
          phase := .preFlush }))

/-- WRITE (R200): the frame is built, the first phase is `WDirTx`. -/
def execWrite (t : Nat) (regAddr : Byte) (value : Word) (s : State) : Step :=
  guarded (s.registerChecks t regAddr) s
    (s.withTransceiver t fun T =>
      .next (s.startOperation t
        { T with
          job := .write (writeDatagram s.params.crc T.cfg.slaveAddr regAddr value), phase := .wDirTx }))

end Sys2Proof.Machine
end

