-- ==== Sys2Proof/Machine/Synchronizer.lean ====
section
/-! DEFINITION. The byte-stream synchronizer and the capture (44_synchronizer.md). -/

namespace Sys2Proof.Machine

/-- SCAN_ENTER (R160). -/
def execScanEnter (s : State) : Step :=
  onSequencer .scanEnter s fun t T =>
    match T.byteAt 0, T.byteAt 2, T.scanBudget s.params with
    | some b0, some b2, some n =>
      .next (s.setTransceiver t
        { T with
          target := some (targetOf b0 b2), window := some 0#24, budget := some n, lastMs := some s.clk,
          phase := .scan })
    | _, _, _ => s.noDatagram t T

/-- One poll (R163): sample the clock, tick, test for zero, attempt one read, process the byte. `expired` is the result
of a budget that has run out, `accept` what the phase does with a byte (`none`: it reads an unwritten register, and the poll has no
effect but the fault, log 12). -/
def poll (t : Nat) (T : Transceiver) (expired : TransactResult) (accept : Transceiver → Byte → Option Transceiver)
    (s : State) : Step :=
  match T.tick s.clk with
  | none => .next (s.stopOperation t T .unwritten)
  | some (T', ticked) =>
    let s1 := if ticked then s.emit .tick else s
    if T'.budget = some 0 then
      .next (s1.setTransceiver t { T' with result := some expired, phase := .postFlush, flushed := 0 })
    else
      match (s.uart T.uart).rx with
      | [] => .next (s1.setTransceiver t T')
      | b :: rest =>
        match accept T' b with
        | none => .next (s.stopOperation t T .unwritten)
        | some T'' => .next (((s1.setRx T.uart rest).emit (.rx b)).setTransceiver t T'')

/-- What the scan does with a byte (R162): shift the window, lock when it equals the target. -/
def scanByte (T : Transceiver) (b : Byte) : Option Transceiver :=
  match T.window, T.target with
  | some w, some g =>
    some { T with
      window := some (shiftWindow w b),
      phase := if shiftWindow w b = g then .captureEnter else .scan }
  | _, _ => none

/-- SCAN_POLL (R162). -/
def execScanPoll (s : State) : Step :=
  onSequencer .scanPoll s fun t T => poll t T .noReply scanByte s

/-- CAPTURE_ENTER (R166): the window's bytes, the second budget; the clock is not sampled again. -/
def execCaptureEnter (s : State) : Step :=
  onSequencer .captureEnter s fun t T =>
    match T.window with
    | some w =>
      .next (s.setTransceiver t
        { T with
          acc := some (w.setWidth 64), capCount := some 0, budget := some s.params.abortWindow,
          phase := .capture })
    | none => .next (s.stopOperation t T .unwritten)

/-- What the capture does with a byte (R167): shift the accumulator, count, end at the fifth byte. -/
def captureByte (T : Transceiver) (b : Byte) : Option Transceiver :=
  match T.acc, T.capCount with
  | some a, some n =>
    if n + 1 = captureLen then
      some { T with
        acc := some (shiftAcc a b), capCount := some (n + 1), result := some (.frame (shiftAcc a b)),
        phase := .postFlush, flushed := 0 }
    else some { T with acc := some (shiftAcc a b), capCount := some (n + 1), phase := .capture }
  | _, _ => none

/-- CAPTURE_POLL (R167). -/
def execCapturePoll (s : State) : Step :=
  onSequencer .capturePoll s fun t T => poll t T .incompleteFrame captureByte s

end Sys2Proof.Machine
end

