-- ==== Sys2Proof/Machine/Transceiver.lean ====
section
/-! DEFINITION. The half-duplex transaction: TRANSACT issued directly, FLUSH, TX_BYTE and WAIT (43_transceiver.md). -/

namespace Sys2Proof.Machine

/-- TRANSACT issued directly (R140): the preconditions, then `BB.busy` and the phase `PreFlush`. -/
def execTransact (t : Nat) (dg : List Byte) (payloadLen scanTimeout : Nat) (s : State) : Step :=
  guarded (s.transactChecks t dg payloadLen scanTimeout) s
    (s.withTransceiver t fun T =>
      .next (s.startOperation t { T with job := .direct dg scanTimeout, phase := .preFlush }))

/-- FLUSH (R141, R150), one turn of its loop: a byte is discarded, or the empty FIFO ends the flush (log 17). -/
def execFlush (s : State) : Step :=
  onSequencer .flush s fun t T =>
    match (s.uart T.uart).rx with
    | _ :: rest => .next ((s.setRx T.uart rest).setTransceiver t { T with flushed := T.flushed + 1 })
    | [] =>
      match T.phase with
      | .postFlush => s.afterTransact t T
      | _ => .next ((s.emit (.flushed T.flushed)).setTransceiver t { T with phase := .dirTx })

/-- TX_BYTE (R143, R202): the write is asked for, the sequencer is held until the UART completes it, then the byte is on the
wire and in `TXLOG` (log 18). -/
def execTxByte (i : Nat) (s : State) : Step :=
  onSequencer (.txByte i) s fun t T =>
    match T.hold, T.datagram, T.byteAt i with
    | .free, _, some _ => .next (s.setTransceiver t { T with hold := .started })
    | .started, _, _ => .next s
    | .completed, some dg, some b =>
      .next (((s.logTx T.uart b).emit (.tx b)).setTransceiver t
        { T with hold := .free, phase := T.phase.afterByte i dg.length })
    | .passed, _, _ => .fault .outOfStep
    | _, _, _ => s.noDatagram t T

/-- WAIT (R144, R146, R203, R204): the wait is asked for, the sequencer is held until the delay agent completes it, then it
is recorded (log 18). -/
def execWait (us : Nat) (s : State) : Step :=
  onSequencer (.wait us) s fun t T =>
    match T.hold with
    | .free => .next (s.setTransceiver t { T with hold := .started })
    | .started => .next s
    | .completed =>
      match T.phase with
      | .turnaround => .next ((s.emit (.waited us)).setTransceiver t { T with hold := .free, phase := .dirRx })
      | .replyWait => .next ((s.emit (.waited us)).setTransceiver t { T with hold := .free, phase := .scanEnter })
      | .wReplyWait => .next ((s.emit (.waited us)).setTransceiver t { T with hold := .free, phase := .wEnd })
      | .wEnd => .next ((s.emit (.waited us)).setTransceiver t { T with hold := .passed })
      | _ => .fault .outOfStep
    | .passed => .fault .outOfStep

end Sys2Proof.Machine
end

