-- ==== Sys2Proof/Machine/Validator.lean ====
section
/-! DEFINITION. The reply validator (45_validator.md). -/

namespace Sys2Proof.Machine

/-- The verdict on the frame of the current attempt, in READ's phase `Validate` (46_read_write.md R190, R191). -/
def State.judge (t : Nat) (T : Transceiver) (v : Verdict) (s : State) : Step :=
  match T.attempt, v with
  | some (k + 1), .accept value =>
    .next ((s.emit (.attempt k .ok)).endOperation t (T.setReadFailed false) (.read value true))
  | some (k + 1), .reject kind => .next (s.failAttempt t T k kind)
  | none, _ => .next (s.stopOperation t T .unwritten)
  | some 0, _ => .fault .outOfStep

/-- VALIDATE (R180): issued by the caller, its verdict goes to the answer port; run by a sequencer in phase `Validate`, it
ends READ's attempt (log 33). Issued by the caller it names no transceiver, so the caller's own step runs it (10_state.md R20).
DESIGN CHOICE (log 38; safe). -/
def execValidate (frame : BitVec 64) (s : State) : Step :=
  match s.running with
  | none => guarded s.requestChecks s (.next (s.setAnswer (.verdict (verdictOf s.params.crc frame))))
  | some _ => onSequencer (.validate frame) s fun t T => s.judge t T (verdictOf s.params.crc frame)

end Sys2Proof.Machine
end

