-- ==== Sys2Proof/Machine/Wire.lean ====
section
/-! DEFINITION. The wire frames (30_encoding.md R70 to R73) as the environment's steps: the frame arrives on the receive line of
the channel the environment acts on, an echo of the master's own frame or the slave's reply (10_state.md R20, R37, R42; log 5). -/

namespace Sys2Proof.Machine

/-- A WRITE_FRAME on the receive line: the echo of a WRITE (46_read_write.md R205). -/
def execWriteFrame (addr : Byte) (reg : BitVec 7) (value : Word) (crc : Byte) (s : State) : Step :=
  .next (s.deliver s.line (encode (.writeFrame addr reg value crc)))

/-- A READ_REQ on the receive line: the echo of a read request. -/
def execReadReq (addr : Byte) (reg : BitVec 7) (crc : Byte) (s : State) : Step :=
  .next (s.deliver s.line (encode (.readReq addr reg crc)))

/-- A REPLY on the receive line: the slave answers. -/
def execReply (reg : BitVec 7) (value : Word) (crc : Byte) (s : State) : Step :=
  .next (s.deliver s.line (encode (.reply reg value crc)))

end Sys2Proof.Machine
end

