-- ==== Sys2Proof/Machine/Dispatch.lean ====
section
/-! DEFINITION. One arm per instruction: each calls its meaning. -/

namespace Sys2Proof.Machine

def exec (i : Instr) (s : State) : Host.Outcome State Fault Refusal :=
  match i with
  -- host operations
  | .busInit bus pin => Sys2Proof.Machine.execBusInit bus pin s
  | .construct t uart rsense slaveAddr bus pin => Sys2Proof.Machine.execConstruct t uart rsense slaveAddr bus pin s
  | .read t regAddr => Sys2Proof.Machine.execRead t regAddr s
  | .write t regAddr value => Sys2Proof.Machine.execWrite t regAddr value s
  | .transact t dg payloadLen scanTimeout => Sys2Proof.Machine.execTransact t dg payloadLen scanTimeout s
  | .validate frame => Sys2Proof.Machine.execValidate frame s
  -- micro-steps
  | .setDir d => Sys2Proof.Machine.execSetDir d s
  | .flush => Sys2Proof.Machine.execFlush s
  | .txByte n => Sys2Proof.Machine.execTxByte n s
  | .wait us => Sys2Proof.Machine.execWait us s
  | .scanEnter => Sys2Proof.Machine.execScanEnter s
  | .scanPoll => Sys2Proof.Machine.execScanPoll s
  | .captureEnter => Sys2Proof.Machine.execCaptureEnter s
  | .capturePoll => Sys2Proof.Machine.execCapturePoll s
  -- pure rows
  | .buildReadReq addr regAddr => Sys2Proof.Machine.execBuildReadReq addr regAddr s
  | .buildWrite addr regAddr value => Sys2Proof.Machine.execBuildWrite addr regAddr value s
  | .crc8 bs => Sys2Proof.Machine.execCrc8 bs s
  | .turnaround baud => Sys2Proof.Machine.execTurnaround baud s
  -- wire frames
  | .writeFrame addr reg value crc => Sys2Proof.Machine.execWriteFrame addr reg value crc s
  | .readReq addr reg crc => Sys2Proof.Machine.execReadReq addr reg crc s
  | .reply reg value crc => Sys2Proof.Machine.execReply reg value crc s

end Sys2Proof.Machine
end

