-- ==== Sys2Proof/Machine/Agents.lean ====
section
/-! DEFINITION. The moves of the five agents (10_state.md R20), and how a word of the opcode table is put where the step
finds its next instruction. -/

namespace Sys2Proof.Machine

/-! ### The caller -/

/-- The caller issues the next operation of its program, in a context; with no program left it does nothing (log 2). -/
def callerStep (ctx : Context) (s : State) : Step :=
  match s.program with
  | [] => .next s
  | b :: bs =>
    match decode .operation (b :: bs) with
    | .error e => .refused (.undecodable e)
    | .ok (i, rest) => exec i { s with program := rest, ctx := ctx, running := none }

/-! ### The sequencer -/

/-- What a sequencer does in a phase that names no row: `Idle` stays, `WEnd` ends the WRITE (46_read_write.md R204), a `Validate`
with no result written is the fault of 10_state.md R44. -/
def plainStep (t : Nat) (T : Transceiver) (s : State) : Step :=
  match T.phase with
  | .idle => .next s
  | .wEnd => .next (s.endOperation t T .written)
  | .validate => if T.result = none then .next (s.stopOperation t T .unwritten) else .fault .outOfStep
  | _ => .fault .outOfStep

/-- A fault has stopped the operation of `t`: no later step of it runs (60_exceptions.md R213; log 8). -/
def State.halted (s : State) (t : Nat) : Bool :=
  match s.transceiver t with
  | some T => T.stopped
  | none => false

/-- The sequencer of `t` runs the micro-step its phase names (R30, R31). One that does not exist does nothing, nor does one whose
operation a fault has stopped. -/
def sequencerStep (t : Nat) (s : State) : Step :=
  match s.transceiver t with
  | none => .next s
  | some T =>
    if T.stopped then .next s
    else
      match microOp s.params T with
      | some i => exec i { s with running := some t }
      | none => plainStep t T s

/-- The sequencer of `t` evaluates a pure function inside its operation (30_encoding.md R87), unless a fault has stopped it;
anything else is out of phase. -/
def evaluateStep (t : Nat) (i : Instr) (s : State) : Step :=
  if isPure i then (if s.halted t then .next s else exec i { s with running := some t }) else .refused .outOfPhase

/-! ### The environment, the clock and the delay agent -/

/-- Completing the hold of `t`, when its phase is one that holds for this agent. -/
def State.completeHold (holds : Phase → Bool) (t : Nat) (s : State) : State :=
  match s.transceiver t with
  | none => s
  | some T =>
    if holds T.phase ∧ T.hold = .started then s.setTransceiver t { T with hold := .completed } else s

/-- The environment's steps: bytes that are a frame of R70 run as that row, any others are noise on the line (R147);
it completes UART writes (R143) and opens or re-rates channels (R252). -/
def environmentStep (e : EnvStep) (s : State) : Step :=
  match e with
  | .deliver u bytes =>
    match decode .frame bytes with
    | .ok (i, _) => exec i { s with line := u }
    | .error _ => .next (({ s with line := u } : State).deliver u bytes)
  | .writeDone t => .next (s.completeHold Phase.sends t)
  | .configure u baud => .next (s.setUart u { s.uart u with baud := baud })

/-- The clock advances by `n`, modulo 2^32 (10_state.md R39). -/
def State.advance (n : Nat) (s : State) : State := { s with clk := s.clk + BitVec.ofNat 32 n }

/-- One move of one agent. -/
def move (m : Move) (s : State) : Step :=
  match m with
  | .caller ctx => callerStep ctx s
  | .sequencer t => sequencerStep t s
  | .evaluate t i => evaluateStep t i s
  | .environment e => environmentStep e s
  | .clock n => .next (s.advance n)
  | .delay t => .next (s.completeHold Phase.waits t)

/-! ### Placing a table word (log 29) -/

/-- A transceiver whose sequencer is about to run the micro-step `i`: in a phase that names it, with the operands and
registers that phase finds written. -/
def Transceiver.about (T : Transceiver) : Instr → Option Transceiver
  | .setDir .transmit => some { T with phase := .dirTx, hold := .free }
  | .setDir .receive => some { T with phase := .dirRx, hold := .free }
  | .flush => some { T with phase := .preFlush, hold := .free, flushed := 0 }
  | .txByte i => some { T with phase := .tx i, hold := .free, job := .direct (List.replicate (i + 3) 0#8) 1 }
  | .wait us =>
    some { T with phase := .turnaround, hold := .free, cfg := { T.cfg with delayUs := BitVec.ofNat 32 us } }
  | .scanEnter => some { T with phase := .scanEnter, hold := .free, job := .direct (List.replicate 3 0#8) 1 }
  | .scanPoll =>
    some { T with
      phase := .scan, hold := .free, target := some (targetOf 0#8 0#8), window := some 0#24, budget := some 1,
      lastMs := some 0#32 }
  | .captureEnter => some { T with phase := .captureEnter, hold := .free, window := some 0#24 }
  | .capturePoll =>
    some { T with
      phase := .capture, hold := .free, acc := some 0#64, capCount := some 0, budget := some 1,
      lastMs := some 0#32 }
  | i => if isPure i then some { T with phase := .preFlush, hold := .free } else none

/-- `s` with operation word `bytes` (it decodes to `i`) as the next thing to run: a micro-step at the control point of
transceiver 0, made if there is none; anything else at the head of the caller's program. -/
def State.placeOperation (i : Instr) (bytes : List Byte) (s : State) : State :=
  match ({ (s.transceiver 0).getD (Transceiver.fresh 1#32 0 0 0#8 0) with stopped := false }).about i with
  | some T =>
    ({ s with schedule := (if isPure i then .evaluate 0 i else .sequencer 0) :: s.schedule } : State).setTransceiver 0 T
  | none => { s with program := bytes ++ s.program, schedule := .caller .stallTolerant :: s.schedule }

/-- `s` with a word of the opcode table as the next thing to run: a frame on the receive line of channel 0, or an operation
word. Bytes that decode to nothing go to the head of the program. -/
def State.placeWord (nbits w : Nat) (s : State) : State :=
  match tableFormat nbits with
  | .frame => { s with schedule := .environment (.deliver 0 (tableBytes nbits w)) :: s.schedule }
  | .operation =>
    match decode .operation (tableBytes nbits w) with
    | .ok (i, rest) =>
      s.placeOperation i ((tableBytes nbits w).take ((tableBytes nbits w).length - rest.length))
    | .error _ =>
      { s with program := tableBytes nbits w ++ s.program, schedule := .caller .stallTolerant :: s.schedule }

end Sys2Proof.Machine
end

