-- ==== Sys2Proof/Machine/Step.lean ====
section
/-! DEFINITION. The step: the next move of the schedule (10_state.md R20). -/

namespace Sys2Proof.Machine

/-- One step: the agent whose move is next moves. With no move scheduled nothing happens (log 1). -/
def step (s : State) : Host.Outcome State Fault Refusal :=
  match s.schedule with
  | [] => .next s
  | m :: rest => move m { s with schedule := rest }

/-- `s` with a word of the opcode table as the instruction its next step runs. -/
def State.withFetchWord (s : State) (nbits w : Nat) : State := s.placeWord nbits w

end Sys2Proof.Machine
end

