-- ==== Sys2Proof/Safety.lean ====
section
/-! DEFINITION. The terms claims are stated in: what a step leaves unchanged, the end of an operation and of a run
(60_exceptions.md R230), the invariants of the machine, and runs of one micro-step. -/

namespace Sys2Proof.Machine

/-! ### Frames -/

/-- Everything but the event trace, the answer port, the counter of free values and the named bus, UART channel and
transceiver is unchanged. -/
structure Frame (s s' : State) (bus uart t : Option Nat) : Prop where
  params : s'.params = s.params
  clk : s'.clk = s.clk
  faults : s'.faults = s.faults
  program : s'.program = s.program
  schedule : s'.schedule = s.schedule
  ctx : s'.ctx = s.ctx
  running : s'.running = s.running
  line : s'.line = s.line
  buses : ∀ b, bus ≠ some b → s'.bus b = s.bus b
  uarts : ∀ u, uart ≠ some u → s'.uart u = s.uart u
  transceivers : ∀ k, t ≠ some k → s'.transceiver k = s.transceiver k

/-- `Frame`, with the answer port and the counter of free values unchanged too: what every micro-step keeps. -/
structure MicroFrame (s s' : State) (bus uart t : Option Nat) : Prop where
  frame : Frame s s' bus uart t
  answer : s'.answer = s.answer
  draws : s'.draws = s.draws

/-! ### Ends (R213, R230) -/

/-- A fault or a refusal is recorded: the state is never the final state of a run (R213). -/
def State.faulted (s : State) : Bool := !s.faults.isEmpty

/-- The last operation on a transceiver has returned: the phase is `Idle` and the return value is fixed. -/
def Transceiver.returned (T : Transceiver) : Bool := decide (T.phase = .idle) && T.answer.isSome

/-- The operation on transceiver `t` has ended: the phase is `Idle`, the return value is fixed, no fault is recorded (R230). -/
def State.ended (s : State) (t : Nat) : Bool :=
  match s.transceiver t with
  | some T => T.returned && !s.faulted
  | none => false

/-- A run of a program has ended: every operation the caller issued has ended (R230). -/
def State.runEnded (s : State) : Bool :=
  s.program.isEmpty && !s.faulted && s.transceivers.all fun e => e.2.returned

/-! ### Invariants -/

/-- The latches of a running TRANSACT: its datagram, its scan timeout, and under READ its attempt (R140, R190). -/
def Transceiver.inTransaction (p : Params) (T : Transceiver) : Prop :=
  paramsValid p = true ∧
    match T.job with
    | .read => (∃ q, T.req = some q ∧ q.length = 4) ∧ ∃ k, T.attempt = some k ∧ k < p.maxRetries
    | .direct dg n => 3 ≤ dg.length ∧ 1 ≤ n
    | _ => False

/-- The latches of a running WRITE: its 8-byte frame (R200). -/
def Transceiver.inWrite (T : Transceiver) : Prop := ∃ f, T.job = .write f ∧ f.length = 8

/-- A live budget: loaded, not yet 0, with the clock value it counts from (10_state.md R25, R26). -/
def Transceiver.counting (T : Transceiver) : Prop := (∃ n, T.budget = some n ∧ 1 ≤ n) ∧ T.lastMs.isSome = true

/-- The latches each phase finds written (10_state.md R44: no rule reads a register before it is written). -/
def Transceiver.consistent (p : Params) (T : Transceiver) : Prop :=
  match T.phase with
  | .idle => T.job = .none ∧ T.hold = .free ∧ T.answer.isSome = true
  | .preFlush => T.inTransaction p ∧ T.hold = .free
  | .dirTx => T.inTransaction p ∧ T.hold = .free
  | .tx i => T.inTransaction p ∧ (T.byteAt i).isSome = true ∧ T.hold ≠ .passed
  | .turnaround => T.inTransaction p ∧ T.hold ≠ .passed
  | .dirRx => T.inTransaction p ∧ T.hold = .free
  | .replyWait => T.inTransaction p ∧ T.hold ≠ .passed
  | .scanEnter => T.inTransaction p ∧ T.hold = .free
  | .scan => T.inTransaction p ∧ T.hold = .free ∧ T.counting ∧ T.window.isSome = true ∧ T.target.isSome = true
  | .captureEnter => T.inTransaction p ∧ T.hold = .free ∧ T.window.isSome = true ∧ T.lastMs.isSome = true
  | .capture =>
    T.inTransaction p ∧ T.hold = .free ∧ T.counting ∧ T.acc.isSome = true ∧ ∃ n, T.capCount = some n ∧ n < captureLen
  | .postFlush => T.inTransaction p ∧ T.hold = .free ∧ T.result.isSome = true
  | .validate =>
    T.hold = .free ∧ paramsValid p = true ∧ T.job = .read ∧ (∃ q, T.req = some q ∧ q.length = 4) ∧
      (∃ k, T.attempt = some (k + 1) ∧ k < p.maxRetries) ∧ ∃ f, T.result = some (.frame f)
  | .wDirTx => T.inWrite ∧ T.hold = .free
  | .wTx i => T.inWrite ∧ i < 8 ∧ T.hold ≠ .passed
  | .wReplyWait => T.inWrite ∧ T.hold ≠ .passed
  | .wEnd => T.inWrite

/-- Every transceiver's latches fit its phase. -/
def LatchesFit (s : State) : Prop := ∀ t T, s.transceiver t = some T → T.consistent s.params

/-- The next poll, at clock value `now`, does not find the budget of `T` run out (44_synchronizer.md R161, R163). -/
def Transceiver.pollsOn (T : Transceiver) (now : Word) : Prop :=
  ∃ n l, T.budget = some n ∧ T.lastMs = some l ∧ (if now = l then n else n - 1) ≠ 0

/-- The step of this phase reads a register of 10_state.md R22 that holds no value (R44): one it reads first, or one it reads on
the way it takes from `s`, where a byte waits, the FIFO is empty, or a write has not begun or is complete. -/
def Transceiver.readsUnwritten (T : Transceiver) (s : State) : Prop :=
  match T.phase with
  | .tx _ => T.job = .read ∧ T.req = none ∧ (T.hold = .free ∨ T.hold = .completed)
  | .wTx _ => T.job = .read ∧ T.req = none ∧ (T.hold = .free ∨ T.hold = .completed)
  | .scanEnter => T.job = .read ∧ T.req = none
  | .scan =>
    T.budget = none ∨ T.lastMs = none ∨
      (T.window = none ∨ T.target = none) ∧ T.pollsOn s.clk ∧ (s.uart T.uart).rx ≠ []
  | .captureEnter => T.window = none
  | .capture =>
    T.budget = none ∨ T.lastMs = none ∨
      (T.acc = none ∨ T.capCount = none) ∧ T.pollsOn s.clk ∧ (s.uart T.uart).rx ≠ []
  | .postFlush =>
    (s.uart T.uart).rx = [] ∧
      (T.job = .read ∧ (T.result = none ∨ T.attempt = none) ∨ (∃ dg n, T.job = .direct dg n) ∧ T.result = none)
  | .validate => T.result = none ∨ (∃ f, T.result = some (.frame f)) ∧ T.attempt = none
  | _ => False

/-- At most one operation is in flight on a bus, and `BB.busy` says whether one is (10_state.md R29). -/
structure OneInFlight (s : State) : Prop where
  marked : ∀ t T, s.transceiver t = some T → T.phase ≠ .idle → (s.bus T.bus).busy = true
  one : ∀ t T k K, s.transceiver t = some T → s.transceiver k = some K → T.phase ≠ .idle → K.phase ≠ .idle →
    T.bus = K.bus → t = k
  real : ∀ b, (s.bus b).busy = true → ∃ t T, s.transceiver t = some T ∧ T.phase ≠ .idle ∧ T.bus = b

/-- What the fields of a `BB` say of one another (10_state.md R27, R28, 70 R240): an uninitialised bus has no handle, no direction
and a pin the block does not drive; an initialised one has a handle and drives its pin; a set direction is at its level. -/
def PinsFit (s : State) : Prop :=
  ∀ b,
    ((s.bus b).initialized = false →
      (s.bus b).handle = none ∧ (s.bus b).direction = .unset ∧ (s.bus b).pin = .undriven) ∧
    ((s.bus b).initialized = true → (s.bus b).handle.isSome = true ∧ ∃ l, (s.bus b).pin = .output l) ∧
    ((s.bus b).direction = .transmit → (s.bus b).pin = .output s.params.dirTxLevel) ∧
    ((s.bus b).direction = .receive → (s.bus b).pin = .output (!s.params.dirTxLevel))

/-- Every transceiver's delay is the turnaround delay of the baud rate it was constructed at, and that rate is not 0
(10_state.md R34). -/
def DelaysFit (s : State) : Prop :=
  ∀ t T, s.transceiver t = some T → T.cfg.baud ≠ 0#32 ∧ T.cfg.delayUs = turnaroundUs T.cfg.baud

/-! ### Runs -/

/-- `n` times the same instruction, stopping at the first fault or refusal. -/
def repeatExec (i : Instr) : Nat → State → Step
  | 0, s => .next s
  | n + 1, s =>
    match exec i s with
    | .next s' => repeatExec i n s'
    | .fault r => .fault r
    | .refused r => .refused r

/-- `n` steps of the machine. -/
def runSteps : Nat → State → Step
  | 0, s => .next s
  | n + 1, s =>
    match step s with
    | .next s' => runSteps n s'
    | .fault r => .fault r
    | .refused r => .refused r

/-- The moves of the phase `WEnd`: the plain step under `Hold`; the wait and the SET_DIR under `Release` (46_read_write.md R204). -/
def writeEndMoves (t : Nat) : WriteEnd → List Move
  | .hold => [.sequencer t]
  | .release => [.sequencer t, .delay t, .sequencer t, .sequencer t]

/-- The moves that carry a WRITE from its issue to its end: the direction; each of the eight bytes asked for, completed and logged;
the reply delay; the phase `WEnd`. -/
def writeMoves (t : Nat) (e : WriteEnd) : List Move :=
  [.sequencer t] ++ (List.replicate 8 [.sequencer t, .environment (.writeDone t), .sequencer t]).flatten ++
    [.sequencer t, .delay t, .sequencer t] ++ writeEndMoves t e

/-- Moves of the sequencer of `t` and of the clock only. -/
def quietMoves (t : Nat) (moves : List Move) : Prop := ∀ m ∈ moves, m = .sequencer t ∨ ∃ n, m = .clock n

/-- The changes of the clock that the polls of `moves` observe, from the clock value `now` and the value `last` the last poll
observed; the size of a change does not matter (44_synchronizer.md R161, R168). -/
def changesSeen : List Move → (now last : Word) → Nat
  | [], _, _ => 0
  | .clock n :: moves, now, last => changesSeen moves (now + BitVec.ofNat 32 n) last
  | .sequencer _ :: moves, now, last => (if now = last then 0 else 1) + changesSeen moves now now
  | _ :: moves, now, last => changesSeen moves now last

/-- The window holds the last three bytes of a stream scanned from window 0: the stream so far ends in `g0 FF g2`, where
bytes before its start read as 0 (44_synchronizer.md R160, R164). -/
def endsInHeader (g0 g2 : Byte) (bs : List Byte) : Prop :=
  ∃ front, [0#8, 0#8, 0#8] ++ bs = front ++ [g0, replyMarker, g2]

end Sys2Proof.Machine
end

