-- ==== Sys2Proof/Certificates/Slice0/Obligations.lean ====
section
/-! DEFINITION. The statements. Each docstring names the rules it formalises and, where it rests on a choice of the model, the
log entry. -/

open Sys2Proof Sys2Proof.Machine

/-! ### Encoding -/

/-- Decoding an encoded instruction gives it back with every operand: an operation word at the front of any bytes, a wire
frame taken whole. The operand bytes of operation words are the model's own (log 3); the frames are R71 to R73. -/
def Obligations.DecodeOfEncode : Prop :=
  ∀ (i : Instr) (rest : List Byte),
    (i.format = .operation → decode .operation (encode i ++ rest) = .ok (i, rest)) ∧
    (i.format = .frame → decode .frame (encode i) = .ok (i, []))

/-- Each instruction has one spelling: whatever decodes is the encoding of what it decodes to. For operation words that rests on
the operand layout, the model's choice (log 3; R86 gives the tag alone); for wire frames on R71 to R73. -/
def Obligations.EncodeOfDecode : Prop :=
  ∀ (f : Format) (bs : List Byte) (i : Instr) (rest : List Byte),
    decode f bs = .ok (i, rest) → i.format = f ∧ bs = encode i ++ rest

/-- Words written out from the frame tables R71 to R73 and the tags of R86, with bytes of the vectors FR3, FW4, VA1 of
95_test_vectors.md, decode to what they stand for. That the operand of VALIDATE follows its tag as eight bytes, most significant
first, is the model's choice (log 3). -/
def Obligations.SpecWordsDecode : Prop :=
  decode .frame [0x05#8, 0x00#8, 0x10#8, 0x70#8] = .ok (.readReq 0x00#8 0x10#7 0x70#8, []) ∧
  decode .frame [0x05#8, 0x03#8, 0xEC#8, 0x10#8, 0x00#8, 0x00#8, 0x53#8, 0x06#8] =
    .ok (.writeFrame 0x03#8 0x6C#7 0x10000053#32 0x06#8, []) ∧
  decode .frame [0x05#8, 0xFF#8, 0x10#8, 0x00#8, 0x00#8, 0x01#8, 0x2C#8, 0xA7#8] =
    .ok (.reply 0x10#7 0x0000012C#32 0xA7#8, []) ∧
  decode .operation [0x06#8, 0x05#8, 0xFF#8, 0x10#8, 0x00#8, 0x00#8, 0x01#8, 0x2C#8, 0xA7#8] =
    .ok (.validate 0x05FF100000012CA7#64, []) ∧
  decode .operation [0x15#8] = .ok (.scanPoll, [])

/-- A caller whose next byte is none of the eighteen tags of R86 is refused, whatever follows it (U23). That a program is such
bytes is the model's choice (log 2). -/
def Obligations.UnknownTagRefused : Prop :=
  ∀ (s : State) (ctx : Context) (moves : List Move) (op : Byte) (bs : List Byte),
    s.schedule = .caller ctx :: moves → s.program = op :: bs →
    op ∉ [0x01#8, 0x02#8, 0x03#8, 0x04#8, 0x05#8, 0x06#8, 0x10#8, 0x11#8, 0x12#8, 0x13#8, 0x14#8, 0x15#8, 0x16#8, 0x17#8,
      0x18#8, 0x19#8, 0x1A#8, 0x1B#8] →
    step s = .refused (.undecodable (.badTag op))

/-- R80: `decode_write` recovers address, register and value from every write frame the block builds. -/
def Obligations.WriteFrameRoundTrip : Prop :=
  ∀ (crc : CrcChoice) (addr regAddr : Byte) (value : Word), regAddr.toNat ≤ 0x7F →
    ∃ b0 b1 b2 b3 b4 b5 b6 b7 : Byte,
      writeDatagram crc addr regAddr value = [b0, b1, b2, b3, b4, b5, b6, b7] ∧
      (frameOf b0 b1 b2 b3 b4 b5 b6 b7).extractLsb' 48 8 = addr ∧
      ((frameOf b0 b1 b2 b3 b4 b5 b6 b7).extractLsb' 40 7).setWidth 8 = regAddr ∧
      (frameOf b0 b1 b2 b3 b4 b5 b6 b7).extractLsb' 8 32 = value

/-- R76, R122 as the rows BUILD_READ_REQ and BUILD_WRITE run them inside an operation: byte 2 of a read request is the register
address unchanged, of a write frame the register address with 0x80 set; the last byte is the checksum of all the bytes before it;
nothing but the latch of the sequencer's value changes. That the rows run on their own and leave their value there is the model's
choice (log 7), and the first byte is the spec's own decision (R123). READ and WRITE build the same frames at issue (ReadStarts,
WriteStarts). -/
def Obligations.FramerBuildsFrames : Prop :=
  ∀ (s : State) (t : Nat) (T : Transceiver) (addr regAddr : Byte) (value : Word),
    s.running = some t → s.transceiver t = some T → T.phase ≠ .idle → regAddr.toNat ≤ 0x7F →
    ∃ q b2 b3 b4 b5 b6 : Byte,
      exec (.buildReadReq addr regAddr) s =
        .next (s.setTransceiver t { T with value := some (.datagram [0x05#8, addr, regAddr, q]) }) ∧
      q = crc8 s.params.crc [0x05#8, addr, regAddr] ∧
      exec (.buildWrite addr regAddr value) s =
        .next (s.setTransceiver t
          { T with
            value := some (.datagram
              [0x05#8, addr, b2, b3, b4, b5, b6, crc8 s.params.crc [0x05#8, addr, b2, b3, b4, b5, b6]]) }) ∧
      b2.toNat = regAddr.toNat + 0x80 ∧
      value.toNat = b3.toNat * 2 ^ 24 + b4.toNat * 2 ^ 16 + b5.toNat * 2 ^ 8 + b6.toNat

/-- No evaluation of a pure function disturbs the operation it is made in (R56, R111, R120, R121, R126): whatever its operands, it
records no fault, emits nothing and changes nothing but the latch of the value. Outside their operand ranges, where no operation
applies them (R83, R110), the rows evaluate nothing. That they have moves of their own, that latch, and what such a move does out of
range are the model's choice (log 7), and so is the schedule (log 1). -/
def Obligations.PureRowsNeverDisturb : Prop :=
  ∀ (s : State) (t : Nat) (T : Transceiver), s.transceiver t = some T →
    (∀ (s' : State) (i : Instr) (moves : List Move), T.stopped = false → s.schedule = .evaluate t i :: moves →
      step s = .next s' →
      s'.events = s.events ∧ (∃ v, s'.transceiver t = some { T with value := v }) ∧
      MicroFrame { s with schedule := moves, running := some t } s' none none (some t)) ∧
    ∀ (addr regAddr : Byte) (value : Word), s.running = some t → T.phase ≠ .idle →
      (0x7F < regAddr.toNat →
        exec (.buildWrite addr regAddr value) s = .next s ∧ exec (.buildReadReq addr regAddr) s = .next s) ∧
      exec (.turnaround 0#32) s = .next s

/-! ### Checksum -/

/-- R126, R127 as the row CRC8 runs inside an operation: it gives one byte for every byte list and changes nothing but the latch of
the sequencer's value, which is the model's (log 7). With the default checksum, the spec's own general knowledge (log 15), that
byte is 0 for no bytes, and each further byte is fed through eight rounds, least significant bit first. -/
def Obligations.Crc8RowEffect : Prop :=
  ∀ (s : State) (t : Nat) (T : Transceiver) (bs : List Byte),
    s.running = some t → s.transceiver t = some T → T.phase ≠ .idle →
    ∃ c : Byte, exec (.crc8 bs) s = .next (s.setTransceiver t { T with value := some (.checksum c) }) ∧
      (s.params.crc = .trinamic →
        (bs = [] → c = 0#8) ∧
        ∀ b : Byte, exec (.crc8 (bs ++ [b])) s =
          .next (s.setTransceiver t
            { T with
              value := some (.checksum
                ((fun x : Byte × Byte =>
                  (if x.1.getLsbD 7 != x.2.getLsbD 0 then (x.1 <<< 1) ^^^ 0x07#8 else x.1 <<< 1, x.2 >>> 1))^[8]
                  (c, b)).1) }))

/-- R128: the properties of the default checksum the rules rely on. -/
def Obligations.CrcDefaultProperties : Prop :=
  crc8 .trinamic [] = 0#8 ∧
  (∀ n, crc8 .trinamic (List.replicate n 0#8) = 0#8) ∧
  (∀ a b : List Byte, a.length = b.length →
    crc8 .trinamic (List.zipWith (fun x y => x ^^^ y) a b) = crc8 .trinamic a ^^^ crc8 .trinamic b) ∧
  (∀ (a : List Byte) (n bit : Nat), a.length = 7 → n < 7 → bit < 8 →
    crc8 .trinamic (a.modify n (fun x => x ^^^ (1#8 <<< bit))) ≠ crc8 .trinamic a) ∧
  crc8 .trinamic [0x05#8, 0xFF#8, 0x10#8, 0x00#8, 0x00#8, 0x00#8, 0x7A#8] = 0#8

/-! ### Bus buffer -/

/-- R100, R101: BUS_INIT has no effect on an initialised bus; with a defined pin it gives the bus its handle and makes the pin
an output at some level, leaving the direction Unset; with an undefined pin it only logs PinUnconfigured. The level is a free
value (log 13), and the counter of its draws the model's own. -/
def Obligations.BusInitEffect : Prop :=
  ∀ (s : State) (bus : Nat) (pin : Option Nat), s.ctx = .stallTolerant → paramsValid s.params = true →
    ((s.bus bus).initialized = true → exec (.busInit bus pin) s = .next s) ∧
    ((s.bus bus).initialized = false → ∀ p h, pin = some p → s.params.pins.lookup p = some h →
      ∃ s' l, exec (.busInit bus pin) s = .next s' ∧
        s'.bus bus = { s.bus bus with handle := some h, initialized := true, pin := .output l } ∧
        s'.events = s.events ∧ s'.answer = s.answer ∧ Frame s s' (some bus) none none) ∧
    ((s.bus bus).initialized = false → (∀ p, pin = some p → s.params.pins.lookup p = none) →
      exec (.busInit bus pin) s = .next { s with events := s.events ++ [.log .pinUnconfigured] })

/-- R102, R103 in the phases DirTx, DirRx and WDirTx (R142, R145, R201): on an initialised bus the pin takes the level of the
direction, the direction is recorded and emitted; on an uninitialised bus nothing is toggled; the phase moves on either way. -/
def Obligations.SetDirEffect : Prop :=
  ∀ (s : State) (t : Nat) (T : Transceiver), s.running = some t → s.transceiver t = some T →
    ∀ ph d next, (ph, d, next) ∈ [(Phase.dirTx, Dir.transmit, Phase.tx 0), (.dirRx, .receive, .replyWait),
        (.wDirTx, .transmit, .wTx 0)] → T.phase = ph →
      ∃ s', exec (.setDir d) s = .next s' ∧
        s'.transceiver t = some { T with phase := next } ∧
        ((s.bus T.bus).initialized = true →
          s'.bus T.bus =
            { s.bus T.bus with
              direction := if d = .transmit then .transmit else .receive,
              pin := .output (if d = .transmit then s.params.dirTxLevel else !s.params.dirTxLevel) } ∧
          s'.events = s.events ++ [.dirSet d]) ∧
        ((s.bus T.bus).initialized = false → s'.bus T.bus = s.bus T.bus ∧ s'.events = s.events) ∧
        MicroFrame s s' (some T.bus) none (some t)

/-- R40: the pin and the direction of an initialised bus move only in a step of a sequencer on that bus that runs SET_DIR. -/
def Obligations.PinMovesOnlyBySetDir : Prop :=
  ∀ (s s' : State) (b : Nat), step s = .next s' → (s.bus b).initialized = true →
    ((s'.bus b).pin ≠ (s.bus b).pin ∨ (s'.bus b).direction ≠ (s.bus b).direction) →
    ∃ t T moves d, s.schedule = .sequencer t :: moves ∧ s.transceiver t = some T ∧ T.bus = b ∧
      microOp s.params T = some (.setDir d)

/-- R105: a `BB` exists from process start, uninitialised; once it is initialised no step makes it uninitialised, changes its
handle (so at most one BUS_INIT succeeds on it), or makes its pin anything but an output. -/
def Obligations.InitializedBusStays : Prop :=
  (∀ (p : Params) (b : Nat), ((State.processStart p).bus b).initialized = false) ∧
  ∀ (s s' : State) (b : Nat), step s = .next s' → (s.bus b).initialized = true →
    (s'.bus b).initialized = true ∧ (s'.bus b).handle = (s.bus b).handle ∧
    ((∃ l, (s.bus b).pin = .output l) → ∃ l, (s'.bus b).pin = .output l)

/-! ### Construction and the turnaround timer -/

/-- R110 on an open channel: BUS_INIT's effect on the bus, and a transceiver with the channel's rate, the delay of that rate,
the arguments, `read_failed` false, phase Idle, and no datapath register written; unless a fault is recorded, the operation has
ended (R230). A name in use and idle is bound to a fresh record (log 11). An unwritten register is the model's `none` (log 12),
and the return value `constructed` its own (log 24). -/
def Obligations.ConstructEffect : Prop :=
  ∀ (s : State) (t uart rsense : Nat) (addr : Byte) (bus : Nat) (pin : Option Nat),
    s.ctx = .stallTolerant → paramsValid s.params = true → (s.uart uart).baud ≠ 0#32 →
    (∀ T, s.transceiver t = some T → T.phase = .idle) →
    ∃ s' s1 T, exec (.construct t uart rsense addr bus pin) s = .next s' ∧
      exec (.busInit bus pin) s = .next s1 ∧
      (∀ b, s'.bus b = s1.bus b) ∧ s'.events = s1.events ∧ s'.answer = s.answer ∧
      s'.transceiver t = some T ∧
      T.cfg.baud = (s.uart uart).baud ∧ T.cfg.delayUs.toNat = 40000000 / (s.uart uart).baud.toNat ∧
      T.cfg.slaveAddr = addr ∧ T.cfg.rsense = rsense ∧ T.bus = bus ∧ T.uart = uart ∧
      T.readFailed = false ∧ T.phase = .idle ∧
      T.window = none ∧ T.acc = none ∧ T.budget = none ∧ T.lastMs = none ∧ T.capCount = none ∧ T.target = none ∧
      T.req = none ∧ T.attempt = none ∧ T.result = none ∧
      T.stopped = false ∧ T.answer = some .constructed ∧ (s.faulted = false → s'.ended t = true) ∧
      Frame s s' (some bus) none (some t)

/-- R111 as the row TURNAROUND runs it inside an operation: 40 bit periods in microseconds, truncated toward zero, in the latch of
the sequencer's value, which is the model's (log 7). -/
def Obligations.TurnaroundTruncates : Prop :=
  ∀ (s : State) (t : Nat) (T : Transceiver) (baud : Word),
    s.running = some t → s.transceiver t = some T → T.phase ≠ .idle → baud ≠ 0#32 →
    ∃ us : Word, exec (.turnaround baud) s = .next (s.setTransceiver t { T with value := some (.micros us) }) ∧
      us.toNat * baud.toNat ≤ 1000000 * 40 ∧ 1000000 * 40 < (us.toNat + 1) * baud.toNat

/-- R63, and R34: no step but a CONSTRUCT the caller issues on it changes a transceiver's configuration, its delay among it, its bus
or its UART channel, whatever happens to the channel's baud rate. The caller's program and the schedule are the model's (logs 1,
2). -/
def Obligations.ConfigurationReadOnly : Prop :=
  ∀ (s s' : State) (t : Nat) (T : Transceiver), step s = .next s' → s.transceiver t = some T →
    (∃ ctx moves uart rsense addr bus pin rest, s.schedule = .caller ctx :: moves ∧
      decode .operation s.program = .ok (.construct t uart rsense addr bus pin, rest)) ∨
    ∃ T', s'.transceiver t = some T' ∧ T'.cfg = T.cfg ∧ T'.bus = T.bus ∧ T'.uart = T.uart

/-! ### The transaction -/

/-- R140: TRANSACT issued directly with its preconditions met takes the bus and starts at PreFlush. Holding the datagram and
the timeout in `job` is the model's choice (log 24), and so is that the caller's own issue step writes the phase, the busy flag and the
latches (log 37), `stopped` among them (log 8). -/
def Obligations.TransactStarts : Prop :=
  ∀ (s : State) (t : Nat) (T : Transceiver) (dg : List Byte) (payloadLen scanTimeout : Nat),
    s.ctx = .stallTolerant → paramsValid s.params = true → s.transceiver t = some T → T.phase = .idle →
    dg.length = payloadLen + 1 → 2 ≤ payloadLen → 1 ≤ scanTimeout → (s.bus T.bus).busy = false →
    ∃ s', exec (.transact t dg payloadLen scanTimeout) s = .next s' ∧
      s'.transceiver t =
        some { T with
          job := .direct dg scanTimeout, phase := .preFlush, hold := .free, flushed := 0, stopped := false, answer := none } ∧
      s'.bus T.bus = { s.bus T.bus with busy := true } ∧
      s'.events = s.events ∧ MicroFrame s s' (some T.bus) none (some t)

/-- R141, R150 without arrivals during the loop: a turn of FLUSH that finds a byte discards it; in PreFlush it discards every
pending byte, and the turn that finds the FIFO empty records how many and moves on to DirTx. One byte for each step, counted
in `flushed`, is the model's choice (log 17). -/
def Obligations.FlushDiscardsPending : Prop :=
  ∀ (s : State) (t : Nat) (T : Transceiver), s.running = some t → s.transceiver t = some T →
    (T.phase = .preFlush ∨ T.phase = .postFlush) →
    (∀ b rest, (s.uart T.uart).rx = b :: rest →
      ∃ s', exec .flush s = .next s' ∧
        s'.uart T.uart = { s.uart T.uart with rx := rest } ∧ s'.events = s.events ∧
        s'.transceiver t = some { T with flushed := T.flushed + 1 } ∧
        MicroFrame s s' none (some T.uart) (some t)) ∧
    (T.phase = .preFlush →
      ∃ s', repeatExec .flush ((s.uart T.uart).rx.length + 1) s = .next s' ∧
        s'.uart T.uart = { s.uart T.uart with rx := [] } ∧
        s'.events = s.events ++ [.flushed (T.flushed + (s.uart T.uart).rx.length)] ∧
        s'.transceiver t = some { T with phase := .dirTx, flushed := T.flushed + (s.uart T.uart).rx.length } ∧
        MicroFrame s s' none (some T.uart) (some t))

/-- R143, R202: TX_BYTE asks for the write of byte `i`, is held until the UART completes it, then logs the byte and moves to
the next byte or past the last. The hold in three steps is the model's choice (log 18). -/
def Obligations.TxByteEffect : Prop :=
  ∀ (s : State) (t : Nat) (T : Transceiver) (i : Nat) (dg : List Byte) (b : Byte),
    s.running = some t → s.transceiver t = some T → (T.phase = .tx i ∨ T.phase = .wTx i) →
    T.datagram = some dg → dg[i]? = some b →
    (T.hold = .free → ∃ s', exec (.txByte i) s = .next s' ∧
      s'.transceiver t = some { T with hold := .started } ∧ s'.events = s.events ∧
      MicroFrame s s' none none (some t)) ∧
    (T.hold = .started → exec (.txByte i) s = .next s) ∧
    (T.hold = .completed → ∃ s', exec (.txByte i) s = .next s' ∧
      s'.uart T.uart = { s.uart T.uart with txlog := (s.uart T.uart).txlog ++ [b] } ∧
      s'.events = s.events ++ [.tx b] ∧
      s'.transceiver t =
        some { T with
          hold := .free,
          phase :=
            if T.phase = .tx i then (if i + 1 < dg.length then .tx (i + 1) else .turnaround)
            else (if i + 1 < dg.length then .wTx (i + 1) else .wReplyWait) } ∧
      MicroFrame s s' none (some T.uart) (some t))

/-- R144, R146, R203: a WAIT is asked for, held until the delay agent completes it, then recorded, and the phase moves on. The
hold in three steps is the model's choice (log 18). -/
def Obligations.WaitEffect : Prop :=
  ∀ (s : State) (t : Nat) (T : Transceiver), s.running = some t → s.transceiver t = some T →
    ∀ ph us next, (ph, us, next) ∈ [(Phase.turnaround, T.cfg.delayUs.toNat, Phase.dirRx),
        (.replyWait, s.params.replyDelayUs, .scanEnter), (.wReplyWait, s.params.replyDelayUs, .wEnd)] → T.phase = ph →
      (T.hold = .free → ∃ s', exec (.wait us) s = .next s' ∧
        s'.transceiver t = some { T with hold := .started } ∧ s'.events = s.events ∧
        MicroFrame s s' none none (some t)) ∧
      (T.hold = .started → exec (.wait us) s = .next s) ∧
      (T.hold = .completed → ∃ s', exec (.wait us) s = .next s' ∧
        s'.transceiver t = some { T with hold := .free, phase := next } ∧
        s'.events = s.events ++ [.waited us] ∧ MicroFrame s s' none none (some t))

/-- R150, R151: the PostFlush that finds the FIFO empty ends a TRANSACT issued directly, whatever its result: Idle, the bus
free, the result returned. That this is one step with the last turn of the flush is the model's choice (logs 17, 20). -/
def Obligations.PostFlushReturnsResult : Prop :=
  ∀ (s : State) (t : Nat) (T : Transceiver) (dg : List Byte) (n : Nat) (r : TransactResult),
    s.running = some t → s.transceiver t = some T → T.phase = .postFlush → T.job = .direct dg n → T.result = some r →
    (s.uart T.uart).rx = [] →
    ∃ s', exec .flush s = .next s' ∧
      s'.transceiver t =
        some { T with phase := .idle, job := .none, hold := .free, answer := some (.transact r) } ∧
      s'.bus T.bus = { s.bus T.bus with busy := false } ∧
      s'.events = s.events ++ [.flushed T.flushed] ∧ MicroFrame s s' (some T.bus) none (some t)

/-! ### Synchronizer and capture -/

/-- R160: SCAN_ENTER computes the target from the datagram's bytes 0 and 2, clears the window, loads the budget and samples
the clock. -/
def Obligations.ScanEnterEffect : Prop :=
  ∀ (s : State) (t : Nat) (T : Transceiver) (dg : List Byte) (b0 b2 : Byte) (n : Nat),
    s.running = some t → s.transceiver t = some T → T.phase = .scanEnter →
    ((T.job = .read ∧ T.req = some dg ∧ n = s.params.scanTimeout) ∨ T.job = .direct dg n) →
    dg[0]? = some b0 → dg[2]? = some b2 →
    ∃ s' g, exec .scanEnter s = .next s' ∧
      s'.transceiver t =
        some { T with
          target := some g, window := some 0#24, budget := some n, lastMs := some s.clk, phase := .scan } ∧
      g.toNat = b0.toNat * 0x10000 + 0xFF00 + b2.toNat ∧
      s'.events = s.events ∧ MicroFrame s s' none none (some t)

/-- R161, R162, R163: one SCAN_POLL. It ticks if the clock changed; a budget of 0 ends the scan with NoReply and reads nothing;
an empty FIFO polls again; a byte shifts into the window, and the scan locks exactly when the window is the target. -/
def Obligations.ScanPollEffect : Prop :=
  ∀ (s : State) (t : Nat) (T : Transceiver) (n : Nat) (ms : Word) (w g : BitVec 24),
    s.running = some t → s.transceiver t = some T → T.phase = .scan → T.budget = some n → 1 ≤ n →
    T.lastMs = some ms → T.window = some w → T.target = some g →
    ∃ s' n' ticks, exec .scanPoll s = .next s' ∧
      n' = (if s.clk = ms then n else n - 1) ∧ ticks = (if s.clk = ms then [] else [Event.tick]) ∧
      (n' = 0 →
        s'.transceiver t =
          some { T with
            budget := some 0, lastMs := some s.clk, result := some .noReply, phase := .postFlush, flushed := 0 } ∧
        s'.uart T.uart = s.uart T.uart ∧ s'.events = s.events ++ ticks) ∧
      (n' ≠ 0 → (s.uart T.uart).rx = [] →
        s'.transceiver t = some { T with budget := some n', lastMs := some s.clk } ∧
        s'.uart T.uart = s.uart T.uart ∧ s'.events = s.events ++ ticks) ∧
      (n' ≠ 0 → ∀ b rest, (s.uart T.uart).rx = b :: rest →
        ∃ w' : BitVec 24, w'.toNat = (w.toNat * 256 + b.toNat) % 0x1000000 ∧
        s'.transceiver t =
          some { T with
            budget := some n', lastMs := some s.clk, window := some w',
            phase := if w' = g then .captureEnter else .scan } ∧
        s'.uart T.uart = { s.uart T.uart with rx := rest } ∧ s'.events = s.events ++ ticks ++ [.rx b]) ∧
      MicroFrame s s' none (some T.uart) (some t)

/-- R166: CAPTURE_ENTER takes the window's bytes into the accumulator and loads the second budget; the clock value it counts
from is carried over. -/
def Obligations.CaptureEnterEffect : Prop :=
  ∀ (s : State) (t : Nat) (T : Transceiver) (w : BitVec 24),
    s.running = some t → s.transceiver t = some T → T.phase = .captureEnter → T.window = some w →
    ∃ s' a, exec .captureEnter s = .next s' ∧ a.toNat = w.toNat ∧
      s'.transceiver t =
        some { T with
          acc := some a, capCount := some 0, budget := some s.params.abortWindow, phase := .capture } ∧
      s'.events = s.events ∧ MicroFrame s s' none none (some t)

/-- R167: one CAPTURE_POLL, as SCAN_POLL with the result IncompleteFrame; a byte shifts into the accumulator and the fifth byte
is the result Frame. -/
def Obligations.CapturePollEffect : Prop :=
  ∀ (s : State) (t : Nat) (T : Transceiver) (n : Nat) (ms : Word) (a : BitVec 64) (k : Nat),
    s.running = some t → s.transceiver t = some T → T.phase = .capture → T.budget = some n → 1 ≤ n →
    T.lastMs = some ms → T.acc = some a → T.capCount = some k →
    ∃ s' n' ticks, exec .capturePoll s = .next s' ∧
      n' = (if s.clk = ms then n else n - 1) ∧ ticks = (if s.clk = ms then [] else [Event.tick]) ∧
      (n' = 0 →
        s'.transceiver t =
          some { T with
            budget := some 0, lastMs := some s.clk, result := some .incompleteFrame, phase := .postFlush,
            flushed := 0 } ∧
        s'.uart T.uart = s.uart T.uart ∧ s'.events = s.events ++ ticks) ∧
      (n' ≠ 0 → (s.uart T.uart).rx = [] →
        s'.transceiver t = some { T with budget := some n', lastMs := some s.clk } ∧
        s'.uart T.uart = s.uart T.uart ∧ s'.events = s.events ++ ticks) ∧
      (n' ≠ 0 → ∀ b rest, (s.uart T.uart).rx = b :: rest →
        ∃ a' : BitVec 64, a'.toNat = (a.toNat * 256 + b.toNat) % 2 ^ 64 ∧
        s'.transceiver t =
          some (if k + 1 = 5 then
              { T with
                budget := some n', lastMs := some s.clk, acc := some a', capCount := some 5,
                result := some (.frame a'), phase := .postFlush, flushed := 0 }
            else { T with budget := some n', lastMs := some s.clk, acc := some a', capCount := some (k + 1) }) ∧
        s'.uart T.uart = { s.uart T.uart with rx := rest } ∧ s'.events = s.events ++ ticks ++ [.rx b]) ∧
      MicroFrame s s' none (some T.uart) (some t)

/-- R164: from the window 0 that SCAN_ENTER leaves and on a clock that does not move, the scan reads `bs` byte by byte and is in
CaptureEnter after the last exactly when `bs` ends in `g0 FF g2`, provided no shorter beginning of it did; it has then read no
byte further. -/
def Obligations.ScanLocksOnFirstHeader : Prop :=
  ∀ (s : State) (t : Nat) (T : Transceiver) (n : Nat) (g0 g2 : Byte) (bs rest : List Byte),
    s.running = some t → s.transceiver t = some T → T.phase = .scan → T.budget = some n → 1 ≤ n →
    T.lastMs = some s.clk → T.window = some 0#24 → T.target = some (targetOf g0 g2) →
    (s.uart T.uart).rx = bs ++ rest → bs ≠ [] →
    (∀ k, 0 < k → k < bs.length → ¬ endsInHeader g0 g2 (bs.take k)) →
    ∃ s' T', repeatExec .scanPoll bs.length s = .next s' ∧ s'.transceiver t = some T' ∧
      (endsInHeader g0 g2 bs → T'.phase = .captureEnter ∧ T'.window = some (targetOf g0 g2)) ∧
      (¬ endsInHeader g0 g2 bs → T'.phase = .scan) ∧
      s'.uart T.uart = { s.uart T.uart with rx := rest } ∧ s'.events = s.events ++ bs.map .rx ∧
      MicroFrame s s' none (some T.uart) (some t)

/-- R24, R78, R167: five capture polls on a clock that does not move turn the three header bytes and the next five bytes into
the frame word, in wire order. -/
def Obligations.CaptureAssemblesFrame : Prop :=
  ∀ (s : State) (t : Nat) (T : Transceiver) (n : Nat) (b0 b1 b2 c0 c1 c2 c3 c4 : Byte) (rest : List Byte),
    s.running = some t → s.transceiver t = some T → T.phase = .capture → T.budget = some n → 1 ≤ n →
    T.lastMs = some s.clk → T.acc = some ((b0 ++ b1 ++ b2).setWidth 64) → T.capCount = some 0 →
    (s.uart T.uart).rx = [c0, c1, c2, c3, c4] ++ rest →
    ∃ s' T' f, repeatExec .capturePoll 5 s = .next s' ∧ s'.transceiver t = some T' ∧ T'.phase = .postFlush ∧
      T'.result = some (.frame f) ∧ frameBytes f = [b0, b1, b2, c0, c1, c2, c3, c4] ∧
      s'.uart T.uart = { s.uart T.uart with rx := rest } ∧ MicroFrame s s' none (some T.uart) (some t)

/-- R161, R168, R169: among moves of the clock, of any size, and polls of its own, a scan that receives no byte stays in the scan
while its polls have observed fewer than `n` changes of the clock, the budget down by those observed, and ends with NoReply at
the poll that observes the `n`-th. Other agents' moves are left out, and so is a scan that a fault has stopped (R213). The schedule is the model's (log
1). -/
def Obligations.SilentScanTimesOut : Prop :=
  ∀ (s : State) (t : Nat) (T : Transceiver) (n : Nat) (ms : Word) (quiet moves : List Move),
    s.transceiver t = some T → T.stopped = false → T.phase = .scan → T.budget = some n → 1 ≤ n → T.lastMs = some ms →
    (s.uart T.uart).rx = [] → quietMoves t quiet → s.schedule = quiet ++ moves →
    (changesSeen quiet s.clk ms < n →
      ∃ s' T', runSteps quiet.length s = .next s' ∧ s'.transceiver t = some T' ∧ s'.schedule = moves ∧
        T'.phase = .scan ∧ T'.result = T.result ∧ T'.budget = some (n - changesSeen quiet s.clk ms)) ∧
    (∀ before, quiet = before ++ [.sequencer t] → changesSeen before s.clk ms < n →
      changesSeen quiet s.clk ms = n →
      ∃ s' T', runSteps quiet.length s = .next s' ∧ s'.transceiver t = some T' ∧ s'.schedule = moves ∧
        T'.phase = .postFlush ∧ T'.result = some .noReply ∧ T'.budget = some 0)

/-- R171: the scan and the capture never write a bus, a pin, a transmit log or the failure flag. -/
def Obligations.PollsLeaveBusAndFlag : Prop :=
  ∀ (s s' : State) (i : Instr), i ∈ [Instr.scanEnter, .scanPoll, .captureEnter, .capturePoll] →
    exec i s = .next s' →
    (∀ b, s'.bus b = s.bus b) ∧ (∀ u, (s'.uart u).txlog = (s.uart u).txlog) ∧
    ∀ k K, s.transceiver k = some K → ∃ K', s'.transceiver k = some K' ∧ K'.readFailed = K.readFailed

/-! ### Validator -/

/-- R180, R181: VALIDATE issued by the caller answers ChecksumMismatch when the computed checksum is not byte 7, else
ZeroChecksumRejected when it is 0, else the value of bytes 3 to 6, and changes nothing else; under the default checksum (log 15) a
frame whose seven leading bytes are zero is rejected whatever byte 7 holds. The answer port, and the one row for the operation and
READ's phase Validate (ValidatePhaseEndsAttempt), are the model's (logs 24, 33). -/
def Obligations.ValidateVerdict : Prop :=
  ∀ (s : State) (b0 b1 b2 b3 b4 b5 b6 b7 : Byte), s.running = none → s.ctx = .stallTolerant →
    paramsValid s.params = true →
    ∃ v : Verdict,
      exec (.validate (frameOf b0 b1 b2 b3 b4 b5 b6 b7)) s = .next { s with answer := some (.verdict v) } ∧
      (crc8 s.params.crc [b0, b1, b2, b3, b4, b5, b6] ≠ b7 → v = .reject .checksumMismatch) ∧
      (crc8 s.params.crc [b0, b1, b2, b3, b4, b5, b6] = b7 → b7 = 0#8 → v = .reject .zeroChecksumRejected) ∧
      (crc8 s.params.crc [b0, b1, b2, b3, b4, b5, b6] = b7 → b7 ≠ 0#8 →
        ∃ value, v = .accept value ∧
          value.toNat = b3.toNat * 2 ^ 24 + b4.toNat * 2 ^ 16 + b5.toNat * 2 ^ 8 + b6.toNat) ∧
      (s.params.crc = .trinamic → [b0, b1, b2, b3, b4, b5, b6] = List.replicate 7 0#8 →
        v = .reject .checksumMismatch ∨ v = .reject .zeroChecksumRejected)

/-- R182, R183 under the default checksum: a frame whose seven leading bytes are zero is rejected, as a mismatch unless byte 7 is 0
too; and for each header and bytes 3 to 5 exactly one byte 6 makes the checksum 0, and a genuine reply with it is rejected. -/
def Obligations.ZeroChecksumsRejected : Prop :=
  ∀ b0 b1 b2 b3 b4 b5 b7 : Byte,
    (b7 ≠ 0#8 → verdictOf .trinamic (frameOf 0#8 0#8 0#8 0#8 0#8 0#8 0#8 b7) = .reject .checksumMismatch) ∧
    (b7 = 0#8 → verdictOf .trinamic (frameOf 0#8 0#8 0#8 0#8 0#8 0#8 0#8 b7) = .reject .zeroChecksumRejected) ∧
    ∃ b6 : Byte, crc8 .trinamic [b0, b1, b2, b3, b4, b5, b6] = 0#8 ∧
      verdictOf .trinamic (frameOf b0 b1 b2 b3 b4 b5 b6 0#8) = .reject .zeroChecksumRejected ∧
      ∀ b : Byte, crc8 .trinamic [b0, b1, b2, b3, b4, b5, b] = 0#8 → b = b6

/-- R185: under the default checksum a frame VALIDATE accepts is rejected when one bit of its bytes 0 to 6 is flipped. -/
def Obligations.SingleBitFlipRejected : Prop :=
  ∀ (f : BitVec 64) (v : Word) (j : Nat), verdictOf .trinamic f = .accept v → 8 ≤ j → j < 64 →
    ∃ k, verdictOf .trinamic (f ^^^ (1#64 <<< j)) = .reject k

/-! ### READ and WRITE -/

/-- R190: READ with its preconditions met takes the bus, builds the request once, sets the attempt counter to 0 and starts at
PreFlush. Holding the operation in `job` is the model's choice (log 24), and so is that the caller's own issue step writes the phase,
the busy flag, `T.req`, `T.attempt` and the latches (log 37), `stopped` among them (log 8). -/
def Obligations.ReadStarts : Prop :=
  ∀ (s : State) (t : Nat) (T : Transceiver) (regAddr : Byte),
    s.ctx = .stallTolerant → paramsValid s.params = true → s.transceiver t = some T → T.phase = .idle →
    regAddr.toNat ≤ 0x7F → (s.bus T.bus).busy = false →
    ∃ s', exec (.read t regAddr) s = .next s' ∧
      s'.transceiver t =
        some { T with
          req := some [syncByte, T.cfg.slaveAddr, regAddr, crc8 s.params.crc [syncByte, T.cfg.slaveAddr, regAddr]],
          attempt := some 0, job := .read, phase := .preFlush, hold := .free, flushed := 0, stopped := false, answer := none } ∧
      s'.bus T.bus = { s.bus T.bus with busy := true } ∧
      s'.events = s.events ∧ MicroFrame s s' (some T.bus) none (some t)

/-- R190, R191: in READ's phase Validate, an accepted frame ends READ with `(value, true)`; a rejected one starts the next
attempt, or ends READ with `(0, false)` and the failure flag after the last. That READ's code after Validate runs in the same
step is the model's choice (log 20). -/
def Obligations.ValidatePhaseEndsAttempt : Prop :=
  ∀ (s : State) (t : Nat) (T : Transceiver) (f : BitVec 64) (k : Nat),
    s.running = some t → s.transceiver t = some T → T.phase = .validate → T.result = some (.frame f) →
    T.attempt = some (k + 1) →
    ∃ s', exec (.validate f) s = .next s' ∧
      (∀ value, verdictOf s.params.crc f = .accept value →
        s'.transceiver t =
          some { T with
            readFailed := false, phase := .idle, job := .none, hold := .free, answer := some (.read value true) } ∧
        s'.bus T.bus = { s.bus T.bus with busy := false } ∧ s'.events = s.events ++ [.attempt k .ok]) ∧
      (∀ kind, verdictOf s.params.crc f = .reject kind → k + 1 < s.params.maxRetries →
        s'.transceiver t = some { T with phase := .preFlush, flushed := 0 } ∧
        s'.bus T.bus = s.bus T.bus ∧ s'.events = s.events ++ [.attempt k kind]) ∧
      (∀ kind, verdictOf s.params.crc f = .reject kind → s.params.maxRetries ≤ k + 1 →
        s'.transceiver t =
          some { T with
            readFailed := true, phase := .idle, job := .none, hold := .free, answer := some (.read 0#32 false) } ∧
        s'.bus T.bus = { s.bus T.bus with busy := false } ∧ s'.events = s.events ++ [.attempt k kind]) ∧
      MicroFrame s s' (some T.bus) none (some t)

/-- R190, R191: under READ the PostFlush that finds the FIFO empty counts the attempt; a Frame goes to Validate, NoReply and
IncompleteFrame count as a failed attempt: the next one starts, or READ returns `(0, false)`. That READ's code runs in the
step of the flush is the model's choice (log 20). -/
def Obligations.PostFlushEndsReadTransaction : Prop :=
  ∀ (s : State) (t : Nat) (T : Transceiver) (r : TransactResult) (k : Nat),
    s.running = some t → s.transceiver t = some T → T.phase = .postFlush → T.job = .read → T.result = some r →
    T.attempt = some k → (s.uart T.uart).rx = [] →
    ∃ s', exec .flush s = .next s' ∧
      (∀ f, r = .frame f →
        s'.transceiver t = some { T with attempt := some (k + 1), phase := .validate } ∧
        s'.bus T.bus = s.bus T.bus ∧ s'.events = s.events ++ [.flushed T.flushed]) ∧
      (∀ kind, (r, kind) ∈ [(TransactResult.noReply, ErrorKind.noReply), (.incompleteFrame, .incompleteFrame)] →
        s'.events = s.events ++ [.flushed T.flushed, .attempt k kind] ∧
        (k + 1 < s.params.maxRetries →
          s'.transceiver t = some { T with attempt := some (k + 1), phase := .preFlush, flushed := 0 } ∧
          s'.bus T.bus = s.bus T.bus) ∧
        (s.params.maxRetries ≤ k + 1 →
          s'.transceiver t =
            some { T with
              attempt := some (k + 1), readFailed := true, phase := .idle, job := .none, hold := .free,
              answer := some (.read 0#32 false) } ∧
          s'.bus T.bus = { s.bus T.bus with busy := false })) ∧
      MicroFrame s s' (some T.bus) none (some t)

/-- R200: WRITE with its preconditions met takes the bus, builds its frame and starts at WDirTx; the failure flag and the
receive FIFO are untouched. Holding the frame in `job` is the model's choice (log 24), and so is that the caller's own issue step
writes the phase, the busy flag and the latches (log 37), `stopped` among them (log 8). -/
def Obligations.WriteStarts : Prop :=
  ∀ (s : State) (t : Nat) (T : Transceiver) (regAddr : Byte) (value : Word),
    s.ctx = .stallTolerant → paramsValid s.params = true → s.transceiver t = some T → T.phase = .idle →
    regAddr.toNat ≤ 0x7F → (s.bus T.bus).busy = false →
    ∃ s' f, exec (.write t regAddr value) s = .next s' ∧
      s'.transceiver t =
        some { T with job := .write f, phase := .wDirTx, hold := .free, flushed := 0, stopped := false, answer := none } ∧
      decode .frame f =
        .ok (.writeFrame T.cfg.slaveAddr (regAddr.setWidth 7) value (crc8 s.params.crc (f.take 7)), []) ∧
      s'.bus T.bus = { s.bus T.bus with busy := true } ∧
      s'.events = s.events ∧ MicroFrame s s' (some T.bus) none (some t)

/-- R204: with Release, WEnd waits the turnaround delay and sets Receive, and that ends the WRITE. The four steps are the
model's choice (logs 18, 19). -/
def Obligations.WriteReleasesBus : Prop :=
  ∀ (s : State) (t : Nat) (T : Transceiver), s.running = some t → s.transceiver t = some T → T.phase = .wEnd →
    s.params.writeEnd = .release →
    (T.hold = .free → ∃ s', exec (.wait T.cfg.delayUs.toNat) s = .next s' ∧
      s'.transceiver t = some { T with hold := .started } ∧ s'.events = s.events ∧
      MicroFrame s s' none none (some t)) ∧
    (T.hold = .started → exec (.wait T.cfg.delayUs.toNat) s = .next s) ∧
    (T.hold = .completed → ∃ s', exec (.wait T.cfg.delayUs.toNat) s = .next s' ∧
      s'.transceiver t = some { T with hold := .passed } ∧
      s'.events = s.events ++ [.waited T.cfg.delayUs.toNat] ∧ MicroFrame s s' none none (some t)) ∧
    (T.hold = .passed → ∃ s', exec (.setDir .receive) s = .next s' ∧
      s'.transceiver t =
        some { T with phase := .idle, job := .none, hold := .free, answer := some .written } ∧
      (s'.bus T.bus).busy = false ∧
      ((s.bus T.bus).initialized = true → (s'.bus T.bus).direction = .receive ∧
        (s'.bus T.bus).pin = .output (!s.params.dirTxLevel) ∧ s'.events = s.events ++ [.dirSet .receive]) ∧
      ((s.bus T.bus).initialized = false →
        s'.bus T.bus = { s.bus T.bus with busy := false } ∧ s'.events = s.events) ∧
      MicroFrame s s' (some T.bus) none (some t))

/-- R200 to R205 end to end, with Hold and with Release: from the caller's issue, with every write and wait completed as it is asked
for, WRITE sends exactly the frame's eight bytes, leaves the bus free and, if it is initialised, in Transmit under Hold and in
Receive, after the turnaround delay, under Release, leaves `RX` and `read_failed` as they were, and returns. The moves are the
model's (logs 1, 18, 19, 37). -/
def Obligations.WriteRunsToEnd : Prop :=
  ∀ (s : State) (t : Nat) (T : Transceiver) (regAddr : Byte) (value : Word) (more : List Byte) (moves : List Move),
    paramsValid s.params = true → s.transceiver t = some T → T.phase = .idle →
    regAddr.toNat ≤ 0x7F → (s.bus T.bus).busy = false →
    s.program = encode (.write t regAddr value) ++ more →
    s.schedule = .caller .stallTolerant :: writeMoves t s.params.writeEnd ++ moves →
    ∃ s', runSteps (1 + (writeMoves t s.params.writeEnd).length) s = .next s' ∧
      s'.program = more ∧ s'.schedule = moves ∧ s'.faults = s.faults ∧
      s'.uart T.uart =
        { s.uart T.uart with
          txlog := (s.uart T.uart).txlog ++ writeDatagram s.params.crc T.cfg.slaveAddr regAddr value } ∧
      s'.events =
        s.events ++ (if (s.bus T.bus).initialized then [.dirSet .transmit] else []) ++
          (writeDatagram s.params.crc T.cfg.slaveAddr regAddr value).map .tx ++ [.waited s.params.replyDelayUs] ++
          (if s.params.writeEnd = .release then
            .waited T.cfg.delayUs.toNat :: (if (s.bus T.bus).initialized then [.dirSet .receive] else [])
          else []) ∧
      (s'.bus T.bus).busy = false ∧
      ((s.bus T.bus).initialized = true →
        (s'.bus T.bus).direction = (if s.params.writeEnd = .release then .receive else .transmit) ∧
        (s'.bus T.bus).pin =
          .output (if s.params.writeEnd = .release then !s.params.dirTxLevel else s.params.dirTxLevel)) ∧
      (∃ T', s'.transceiver t = some T' ∧ T'.phase = .idle ∧ T'.readFailed = T.readFailed ∧
        T'.answer = some .written) ∧
      (∀ b, b ≠ T.bus → s'.bus b = s.bus b) ∧ (∀ u, u ≠ T.uart → s'.uart u = s.uart u) ∧
      ∀ k, k ≠ t → s'.transceiver k = s.transceiver k

/-- R164, R165, R167, R180, R190 together: on a clock that does not move, a READ whose stream is any bytes without an early
lock followed by a genuine reply with a good non-zero checksum returns that reply's value, from SCAN_ENTER on, in the polls
the stream takes, unless a fault has stopped it (R213). The schedule and the number of its moves are the model's (logs 1, 20). -/
def Obligations.ReadReturnsGenuineReply : Prop :=
  ∀ (s : State) (t : Nat) (T : Transceiver) (k : Nat) (b0 b1 bc : Byte) (noise : List Byte) (reg : Byte)
    (c0 c1 c2 c3 c4 : Byte) (moves : List Move),
    s.transceiver t = some T → T.stopped = false → T.phase = .scanEnter → T.job = .read → T.req = some [b0, b1, reg, bc] →
    T.attempt = some k → paramsValid s.params = true →
    (s.uart T.uart).rx = noise ++ [b0, replyMarker, reg] ++ [c0, c1, c2, c3, c4] →
    (∀ m, 0 < m → m < noise.length + 3 → ¬ endsInHeader b0 reg ((noise ++ [b0, replyMarker, reg]).take m)) →
    crc8 s.params.crc [b0, replyMarker, reg, c0, c1, c2, c3] = c4 → c4 ≠ 0#8 →
    s.schedule = List.replicate (noise.length + 12) (.sequencer t) ++ moves →
    ∃ s' T', runSteps (noise.length + 12) s = .next s' ∧ s'.schedule = moves ∧
      s'.transceiver t = some T' ∧ T'.phase = .idle ∧ T'.readFailed = false ∧
      T'.answer = some (.read (wordOf c0 c1 c2 c3) true) ∧
      (s'.uart T.uart).rx = [] ∧ (s'.bus T.bus).busy = false ∧
      s'.events =
        s.events ++ (noise ++ [b0, replyMarker, reg, c0, c1, c2, c3, c4]).map .rx ++ [.flushed 0, .attempt k .ok]

/-! ### Faults and refusals -/

/-- R213, R214, R215 for READ and WRITE: the first failing precondition, in the order of R215, is recorded and every other
part of the state is unchanged. That a transceiver never constructed comes before NotIdle is the model's choice (log 10). So
is the record in the fault list as a next state (log 8), and BadParameter here (log 9). -/
def Obligations.ReadWritePreconditions : Prop :=
  ∀ (s : State) (t : Nat) (regAddr : Byte) (value : Word) (i : Instr),
    i ∈ [Instr.read t regAddr, .write t regAddr value] →
    (s.ctx = .realTime → exec i s = .next { s with faults := s.faults ++ [.unsupportedContext] }) ∧
    (s.ctx = .stallTolerant → paramsValid s.params = false →
      exec i s = .next { s with faults := s.faults ++ [.badParameter] }) ∧
    (s.ctx = .stallTolerant → paramsValid s.params = true →
      (s.transceiver t = none → exec i s = .next { s with faults := s.faults ++ [.notConstructed] }) ∧
      ∀ T, s.transceiver t = some T →
        (T.phase ≠ .idle → exec i s = .next { s with faults := s.faults ++ [.notIdle] }) ∧
        (T.phase = .idle → 0x7F < regAddr.toNat →
          exec i s = .next { s with faults := s.faults ++ [.badRegAddr] }) ∧
        (T.phase = .idle → regAddr.toNat ≤ 0x7F → (s.bus T.bus).busy = true →
          exec i s = .next { s with faults := s.faults ++ [.busContention] }))

/-- R213, R214, R215 for TRANSACT issued directly. The place of a transceiver never constructed (log 10), the record as a next
state (log 8) and BadParameter for the parameters (log 9) are the model's choices. -/
def Obligations.TransactPreconditions : Prop :=
  ∀ (s : State) (t : Nat) (dg : List Byte) (payloadLen scanTimeout : Nat),
    (s.ctx = .realTime → exec (.transact t dg payloadLen scanTimeout) s =
      .next { s with faults := s.faults ++ [.unsupportedContext] }) ∧
    (s.ctx = .stallTolerant → (paramsValid s.params = false ∨ scanTimeout = 0) →
      exec (.transact t dg payloadLen scanTimeout) s = .next { s with faults := s.faults ++ [.badParameter] }) ∧
    (s.ctx = .stallTolerant → paramsValid s.params = true → 1 ≤ scanTimeout →
      (s.transceiver t = none →
        exec (.transact t dg payloadLen scanTimeout) s = .next { s with faults := s.faults ++ [.notConstructed] }) ∧
      ∀ T, s.transceiver t = some T →
        (T.phase ≠ .idle →
          exec (.transact t dg payloadLen scanTimeout) s = .next { s with faults := s.faults ++ [.notIdle] }) ∧
        (T.phase = .idle → (dg.length ≠ payloadLen + 1 ∨ payloadLen < 2) →
          exec (.transact t dg payloadLen scanTimeout) s =
            .next { s with faults := s.faults ++ [.badDatagramLength] }) ∧
        (T.phase = .idle → dg.length = payloadLen + 1 → 2 ≤ payloadLen → (s.bus T.bus).busy = true →
          exec (.transact t dg payloadLen scanTimeout) s =
            .next { s with faults := s.faults ++ [.busContention] }))

/-- R110, R213, R215 for CONSTRUCT: refused with ZeroBaud before any state is written when the channel's rate is 0; NotIdle,
which comes first, when the name is in use by a running operation. The record as a next state is the model's reading (log 8),
NotIdle on a second CONSTRUCT its choice (log 11). -/
def Obligations.ConstructPreconditions : Prop :=
  ∀ (s : State) (t uart rsense : Nat) (addr : Byte) (bus : Nat) (pin : Option Nat),
    s.ctx = .stallTolerant → paramsValid s.params = true →
    (∀ T, s.transceiver t = some T → T.phase ≠ .idle →
      exec (.construct t uart rsense addr bus pin) s = .next { s with faults := s.faults ++ [.notIdle] }) ∧
    ((∀ T, s.transceiver t = some T → T.phase = .idle) → (s.uart uart).baud = 0#32 →
      exec (.construct t uart rsense addr bus pin) s = .next { s with faults := s.faults ++ [.zeroBaud] })

/-- R218, R243: every host operation issued from a deadline-critical real-time context is refused with UnsupportedContext, and
one issued with a parameter out of its range is refused with BadParameter; nothing else changes. That the parameters are
checked by every operation is the model's reading (log 9). The record as a next state is too (log 8). -/
def Obligations.HostOperationsRefused : Prop :=
  ∀ (s : State) (i : Instr), s.running = none → i.format = .operation →
    (encode i).head? ∈ [some 0x01#8, some 0x02#8, some 0x03#8, some 0x04#8, some 0x05#8, some 0x06#8] →
    (s.ctx = .realTime → exec i s = .next { s with faults := s.faults ++ [.unsupportedContext] }) ∧
    (s.ctx = .stallTolerant → paramsValid s.params = false →
      exec i s = .next { s with faults := s.faults ++ [.badParameter] })

/-- R35, R38, R41, R213: no step changes the parameters, clears a recorded fault, or takes an event or a sent byte back. -/
def Obligations.RecordsOnlyGrow : Prop :=
  ∀ s s' : State, step s = .next s' →
    s'.params = s.params ∧ (∃ fs, s'.faults = s.faults ++ fs) ∧ (∃ es, s'.events = s.events ++ es) ∧
    ∀ u, ∃ bs, (s'.uart u).txlog = (s.uart u).txlog ++ bs

/-! ### The agents -/

/-- A caller's move runs exactly the instruction its next bytes decode to, with the program moved past it, in the context of
the move and as no sequencer's step. The program of bytes and the schedule are the model's choice (logs 1, 2). -/
def Obligations.CallerStepRunsDecoded : Prop :=
  ∀ (s : State) (ctx : Context) (moves : List Move) (i : Instr) (more : List Byte),
    s.schedule = .caller ctx :: moves → decode .operation s.program = .ok (i, more) →
    step s = exec i { s with schedule := moves, program := more, ctx := ctx, running := none }

/-- R30, R31: a sequencer's move runs exactly the micro-step its phase names; a phase that names none stays (Idle) or ends the
WRITE (WEnd, R204). R87: the pure functions run as the sequencer's, too; that they have moves of their own is the model's choice
(log 7), and so is the schedule (log 1). R213: once a fault has stopped the operation, no later step of it runs: the moves of its
sequencer change nothing (log 8). -/
def Obligations.SequencerStepRunsPhase : Prop :=
  ∀ (s : State) (t : Nat) (T : Transceiver) (moves : List Move), s.transceiver t = some T →
    (T.stopped = false → s.schedule = .sequencer t :: moves →
      (∀ i, microOp s.params T = some i → step s = exec i { s with schedule := moves, running := some t }) ∧
      (T.phase = .idle → step s = .next { s with schedule := moves }) ∧
      (T.phase = .wEnd → s.params.writeEnd = .hold →
        ∃ s', step s = .next s' ∧
          s'.transceiver t =
            some { T with phase := .idle, job := .none, hold := .free, answer := some .written } ∧
          s'.bus T.bus = { s.bus T.bus with busy := false } ∧ s'.events = s.events ∧
          MicroFrame { s with schedule := moves } s' (some T.bus) none (some t))) ∧
    (T.stopped = true → s.schedule = .sequencer t :: moves → step s = .next { s with schedule := moves }) ∧
    ∀ (addr regAddr : Byte) (value baud : Word) (bs : List Byte),
      ∀ i ∈ [Instr.buildReadReq addr regAddr, .buildWrite addr regAddr value, .crc8 bs, .turnaround baud],
        s.schedule = .evaluate t i :: moves →
        (T.stopped = false → step s = exec i { s with schedule := moves, running := some t }) ∧
        (T.stopped = true → step s = .next { s with schedule := moves })

/-- R37, R147: bytes the environment delivers, frames or not, go to the tail of that channel's receive FIFO and change nothing
else. R252: a channel opened or re-rated from outside takes that baud rate and keeps its FIFO and its log, and nothing else
changes; that this is a move of the environment is the model's reading (log 21). The schedule and the channel latch `line` are the
model's choice (logs 1, 31). -/
def Obligations.EnvironmentDelivers : Prop :=
  ∀ (s : State) (u : Nat) (moves : List Move),
    (∀ bs, s.schedule = .environment (.deliver u bs) :: moves →
      ∃ s', step s = .next s' ∧ s'.uart u = { s.uart u with rx := (s.uart u).rx ++ bs } ∧ s'.events = s.events ∧
        MicroFrame { s with schedule := moves, line := u } s' none (some u) none) ∧
    ∀ baud, s.schedule = .environment (.configure u baud) :: moves →
      ∃ s', step s = .next s' ∧ s'.uart u = { s.uart u with baud := baud } ∧ s'.events = s.events ∧
        MicroFrame { s with schedule := moves } s' none (some u) none

/-- The three frame rows as they run (log 5): the frame's bytes arrive at the tail of the receive FIFO of the environment's
channel, in wire order (R50, R71 to R73), and nothing else changes. -/
def Obligations.FrameRowsArrive : Prop :=
  ∀ (s : State) (i : Instr), i.format = .frame →
    ∃ s' bs, exec i s = .next s' ∧ decode .frame bs = .ok (i, []) ∧
      s'.uart s.line = { s.uart s.line with rx := (s.uart s.line).rx ++ bs } ∧ s'.events = s.events ∧
      MicroFrame s s' none (some s.line) none

/-- R20, R39: the clock's move adds to the clock modulo 2^32 and touches nothing else; a completion by the environment or the
delay agent only completes a hold that was asked for in a phase that holds for it. The schedule and the hold latch are the
model's choice (logs 1, 18). -/
def Obligations.ClockAndCompletions : Prop :=
  ∀ (s : State) (moves : List Move),
    (∀ n, s.schedule = .clock n :: moves →
      ∃ c : Word, step s = .next { s with schedule := moves, clk := c } ∧ c.toNat = (s.clk.toNat + n) % 2 ^ 32) ∧
    ∀ (t : Nat) (T : Transceiver) (m : Move) (holds : Bool), s.transceiver t = some T →
      ((m = .environment (.writeDone t) ∧ holds = (T.phase matches .tx _ || T.phase matches .wTx _)) ∨
        (m = .delay t ∧
          holds = (T.phase matches .turnaround || T.phase matches .replyWait || T.phase matches .wReplyWait ||
            T.phase matches .wEnd))) →
      s.schedule = m :: moves →
      (holds = true → T.hold = .started →
        ∃ s', step s = .next s' ∧ s'.transceiver t = some { T with hold := .completed } ∧ s'.events = s.events ∧
          MicroFrame { s with schedule := moves } s' none none (some t)) ∧
      ((holds = false ∨ T.hold ≠ .started) → step s = .next { s with schedule := moves })

/-- R87: each of the twelve micro-steps of R86 is never the caller's: issued by the caller it is refused. The refusal's name is the
model's (log 6). -/
def Obligations.MicroStepsOnlyBySequencer : Prop :=
  ∀ (s : State) (i : Instr) (ctx : Context) (moves : List Move) (more : List Byte) (d : Dir) (k us : Nat)
    (addr regAddr : Byte) (value baud : Word) (bs : List Byte),
    i ∈ [Instr.setDir d, .flush, .txByte k, .wait us, .scanEnter, .scanPoll, .captureEnter, .capturePoll,
      .buildReadReq addr regAddr, .buildWrite addr regAddr value, .crc8 bs, .turnaround baud] →
    s.schedule = .caller ctx :: moves → decode .operation s.program = .ok (i, more) →
    step s = .refused .microStepOutsideOperation

/-- R31: while an operation is in flight on a transceiver, no step but its own sequencer's changes its phase. R213: once a fault has
stopped the operation, no step at all does, and it stays stopped (log 8). -/
def Obligations.PhaseMovesOnlyBySequencer : Prop :=
  ∀ (s s' : State) (t : Nat) (T : Transceiver) (m : Move) (moves : List Move),
    s.schedule = m :: moves → (m ≠ .sequencer t ∨ T.stopped = true) → s.transceiver t = some T → T.phase ≠ .idle →
    step s = .next s' →
    ∃ T', s'.transceiver t = some T' ∧ T'.phase = T.phase ∧ (T.stopped = true → T'.stopped = true)

/-- R104, R226: a SET_DIR that a transceiver's sequencer runs sets the one direction and the one pin of its bus, and no step of it
touches the `BB` of another bus, another transceiver or another UART channel (R226 is the spec's own decision D39); the step keeps
the configuration, the channel's rate, the clock, the program and the answer port, and records nothing but a read of an unwritten
register (R44, log 12). The schedule, the program and the port are the model's (logs 1, 2, 24), and so is how a fault has stopped an
operation (log 8). -/
def Obligations.SequencerTouchesOwn : Prop :=
  ∀ (s s' : State) (t : Nat) (T : Transceiver) (moves : List Move),
    s.schedule = .sequencer t :: moves → s.transceiver t = some T → step s = .next s' →
    (∀ d, microOp s.params T = some (.setDir d) → T.stopped = false → (s.bus T.bus).initialized = true →
      (s'.bus T.bus).direction = (if d = .transmit then .transmit else .receive) ∧
      (s'.bus T.bus).pin = .output (if d = .transmit then s.params.dirTxLevel else !s.params.dirTxLevel)) ∧
    (∀ b, b ≠ T.bus → s'.bus b = s.bus b) ∧ (∀ u, u ≠ T.uart → s'.uart u = s.uart u) ∧
    (∀ k, k ≠ t → s'.transceiver k = s.transceiver k) ∧
    (s'.uart T.uart).baud = (s.uart T.uart).baud ∧
    (∃ T', s'.transceiver t = some T' ∧ T'.cfg = T.cfg ∧ T'.bus = T.bus ∧ T'.uart = T.uart) ∧
    s'.clk = s.clk ∧ s'.program = s.program ∧ s'.answer = s.answer ∧
    (s'.faults = s.faults ∨ s'.faults = s.faults ++ [.unwritten])

/-! ### Reset and invariants -/

/-- R240 at process start, for any parameters: no transceiver exists, every bus is uninitialised with no handle, direction
Unset, not busy and a pin the block does not drive, at an unspecified level (a free value, log 13); the transmit logs, the event
trace and the fault list are empty. The empty tables are the model's form of it (log 22). -/
def Obligations.ProcessStartState : Prop :=
  ∀ p : Params, (∀ t, (State.processStart p).transceiver t = none) ∧
    (∀ b, ((State.processStart p).bus b).initialized = false ∧ ((State.processStart p).bus b).handle = none ∧
      ((State.processStart p).bus b).direction = .unset ∧ ((State.processStart p).bus b).busy = false ∧
      ((State.processStart p).bus b).pin = .undriven ∧
      (State.processStart p).pinLevel b = Config.startLevel b) ∧
    (∀ u, ((State.processStart p).uart u).txlog = []) ∧
    (State.processStart p).events = [] ∧ (State.processStart p).faults = [] ∧ (State.processStart p).params = p

/-- The invariants below hold at reset. -/
def Obligations.ResetMeetsInvariants : Prop :=
  State.reset.wf = true ∧ LatchesFit State.reset ∧ OneInFlight State.reset ∧ PinsFit State.reset ∧ DelaysFit State.reset

/-- Every step keeps the tables of buses, UART channels and transceivers in canonical form. The form is the model's (log 22).
-/
def Obligations.StepKeepsTablesCanonical : Prop :=
  ∀ s s' : State, s.wf = true → step s = .next s' → s'.wf = true

/-- Every step keeps each transceiver's latches fit for its phase (R25, R44, R46), and the return value of an idle one fixed (R230).
What each phase finds written is read off the rules, and the latches are the model's (logs 12, 18, 24). -/
def Obligations.StepKeepsLatches : Prop :=
  ∀ s s' : State, LatchesFit s → step s = .next s' → LatchesFit s'

/-- R44: in a state whose latches fit, no step reads an unwritten register: none records that fault (its name is the model's, log
12), and none ends in a fault for latches out of step, which is the model's (log 32). In any state, a sequencer's step that records
anything records that fault, reads such a register, stops the operation and has no other effect (R213; logs 8, 12); and every step
that reads one, first or on the way it takes, does so. What fits is read off the rules, and the
latches are the model's (logs 18, 24). -/
def Obligations.NoRegisterReadUnwritten : Prop :=
  ∀ s : State,
    (LatchesFit s →
      (∀ r, step s ≠ .fault r) ∧
      ∀ s', step s = .next s' → ∃ fs, s'.faults = s.faults ++ fs ∧ OpFault.unwritten ∉ fs) ∧
    ∀ (t : Nat) (T : Transceiver) (moves : List Move), s.schedule = .sequencer t :: moves → s.transceiver t = some T →
      (∀ s', step s = .next s' → s'.faults ≠ s.faults →
        T.readsUnwritten s ∧ s'.faults = s.faults ++ [.unwritten] ∧ s'.events = s.events ∧
        s'.transceiver t = some { T with stopped := true } ∧
        (∀ b, s'.bus b = s.bus b) ∧ (∀ u, s'.uart u = s.uart u) ∧ ∀ k, k ≠ t → s'.transceiver k = s.transceiver k) ∧
      (T.stopped = false → T.readsUnwritten s → ∃ s', step s = .next s' ∧ s'.faults = s.faults ++ [.unwritten])

/-- R29: every step keeps at most one operation in flight on each bus, with `BB.busy` true exactly while one is. -/
def Obligations.StepKeepsOneInFlight : Prop :=
  ∀ s s' : State, OneInFlight s → step s = .next s' → OneInFlight s'

/-- R27, R28, R103: every step keeps what a bus's fields say of one another. -/
def Obligations.StepKeepsPins : Prop :=
  ∀ s s' : State, PinsFit s → step s = .next s' → PinsFit s'

/-- R34, R113: every step keeps each transceiver's delay the turnaround delay of its own construction rate, not 0. -/
def Obligations.StepKeepsDelays : Prop :=
  ∀ s s' : State, DelaysFit s → step s = .next s' → DelaysFit s'
end

