-- ==== Sys2Proof/Laws/Tables.lean ====
section
/-! SUPPORT. The numbered tables: read after write, and that writing keeps the canonical form. -/

namespace Sys2Proof.Machine

variable {α : Type}

@[simp] theorem Table.find_nil (k : Nat) : Table.find k ([] : Table α) = none := rfl

@[simp] theorem Table.find_insert_same (k : Nat) (v : α) (m : Table α) :
    Table.find k (Table.insert k v m) = some v := by
  induction m with
  | nil => simp [Table.insert, Table.find]
  | cons e rest ih =>
    obtain ⟨j, w⟩ := e
    simp only [Table.insert]
    split
    · simp [Table.find]
    · split
      · simp [Table.find]
      · rename_i h1 h2
        simp [Table.find, Ne.symm h2, ih]

theorem Table.find_insert_other {k k' : Nat} (h : k' ≠ k) (v : α) (m : Table α) :
    Table.find k' (Table.insert k v m) = Table.find k' m := by
  induction m with
  | nil => simp [Table.insert, Table.find, Ne.symm h]
  | cons e rest ih =>
    obtain ⟨j, w⟩ := e
    simp only [Table.insert]
    split
    · simp [Table.find, Ne.symm h]
    · split
      · rename_i h1 h2
        subst h2
        simp [Table.find, Ne.symm h]
      · simp [Table.find, ih]

@[simp] theorem Table.find_erase_same (k : Nat) (m : Table α) : Table.find k (Table.erase k m) = none := by
  induction m with
  | nil => rfl
  | cons e rest ih =>
    obtain ⟨j, w⟩ := e
    simp only [Table.erase]
    split
    · exact ih
    · rename_i h
      simp [Table.find, h, ih]

theorem Table.find_erase_other {k k' : Nat} (h : k' ≠ k) (m : Table α) :
    Table.find k' (Table.erase k m) = Table.find k' m := by
  induction m with
  | nil => rfl
  | cons e rest ih =>
    obtain ⟨j, w⟩ := e
    simp only [Table.erase]
    split
    · rename_i hj
      subst hj
      simp [Table.find, Ne.symm h, ih]
    · simp [Table.find, ih]

@[simp] theorem Table.read_write_same [DecidableEq α] (d : α) (k : Nat) (v : α) (m : Table α) :
    Table.read d k (Table.write d k v m) = v := by
  unfold Table.read Table.write
  split
  · rename_i h
    simp [h]
  · simp

theorem Table.read_write_other [DecidableEq α] {k k' : Nat} (h : k' ≠ k) (d v : α) (m : Table α) :
    Table.read d k' (Table.write d k v m) = Table.read d k' m := by
  unfold Table.read Table.write
  split
  · rw [Table.find_erase_other h]
  · rw [Table.find_insert_other h]

theorem Table.read_write [DecidableEq α] (d v : α) (k k' : Nat) (m : Table α) :
    Table.read d k' (Table.write d k v m) = if k' = k then v else Table.read d k' m := by
  split
  · rename_i h
    subst h
    simp
  · rename_i h
    exact Table.read_write_other h d v m

theorem Table.find_insert (k k' : Nat) (v : α) (m : Table α) :
    Table.find k' (Table.insert k v m) = if k' = k then some v else Table.find k' m := by
  split
  · rename_i h
    subst h
    simp
  · rename_i h
    exact Table.find_insert_other h v m

/-! ### Writing keeps the canonical form -/

theorem Table.above_insert {j k : Nat} (h : j < k) (v : α) {m : Table α} (hm : Table.above j m = true) :
    Table.above j (Table.insert k v m) = true := by
  induction m with
  | nil => simpa [Table.insert, Table.above] using h
  | cons e rest ih =>
    obtain ⟨i, w⟩ := e
    simp only [Table.above, List.all_cons, Bool.and_eq_true, decide_eq_true_eq] at hm ih
    simp only [Table.insert]
    split
    · simp [Table.above, h, hm]
    · split
      · simp [Table.above, h, hm]
      · simp [Table.above, hm, ih]

theorem Table.above_mono {j k : Nat} (h : j < k) {m : Table α} (hm : Table.above k m = true) :
    Table.above j m = true := by
  simp only [Table.above, List.all_eq_true, decide_eq_true_eq] at hm ⊢
  intro e he
  have := hm e he
  omega

theorem Table.rising_insert (k : Nat) (v : α) {m : Table α} (hm : Table.rising m = true) :
    Table.rising (Table.insert k v m) = true := by
  induction m with
  | nil => simp [Table.insert, Table.rising, Table.above]
  | cons e rest ih =>
    obtain ⟨j, w⟩ := e
    simp only [Table.rising, Bool.and_eq_true] at hm
    simp only [Table.insert]
    split
    · rename_i h
      simp [Table.rising, hm]
      simpa [Table.above, h] using Table.above_mono h hm.1
    · split
      · rename_i h1 h2
        subst h2
        simp [Table.rising, hm]
      · rename_i h1 h2
        simp only [Table.rising, Bool.and_eq_true]
        exact ⟨Table.above_insert (by omega) v hm.1, ih hm.2⟩

theorem Table.above_erase {j : Nat} (k : Nat) {m : Table α} (hm : Table.above j m = true) :
    Table.above j (Table.erase k m) = true := by
  induction m with
  | nil => rfl
  | cons e rest ih =>
    obtain ⟨i, w⟩ := e
    simp only [Table.above, List.all_cons, Bool.and_eq_true, decide_eq_true_eq] at hm ih
    simp only [Table.erase]
    split
    · exact ih hm.2
    · simp [Table.above, hm, ih]

theorem Table.rising_erase (k : Nat) {m : Table α} (hm : Table.rising m = true) :
    Table.rising (Table.erase k m) = true := by
  induction m with
  | nil => rfl
  | cons e rest ih =>
    obtain ⟨i, w⟩ := e
    simp only [Table.rising, Bool.and_eq_true] at hm
    simp only [Table.erase]
    split
    · exact ih hm.2
    · simp only [Table.rising, Bool.and_eq_true]
      exact ⟨Table.above_erase k hm.1, ih hm.2⟩

theorem Table.mem_insert {k : Nat} {v : α} {m : Table α} {e : Nat × α} (h : e ∈ Table.insert k v m) :
    e = (k, v) ∨ e ∈ m := by
  induction m with
  | nil => simpa [Table.insert] using h
  | cons f rest ih =>
    obtain ⟨j, w⟩ := f
    simp only [Table.insert] at h
    split at h
    · simpa using h
    · split at h
      · simp only [List.mem_cons] at h ⊢
        tauto
      · simp only [List.mem_cons] at h ⊢
        tauto

theorem Table.mem_erase {k : Nat} {m : Table α} {e : Nat × α} (h : e ∈ Table.erase k m) : e ∈ m := by
  induction m with
  | nil => exact h
  | cons f rest ih =>
    obtain ⟨j, w⟩ := f
    simp only [Table.erase] at h
    split at h
    · exact List.mem_cons_of_mem _ (ih h)
    · simp only [List.mem_cons] at h ⊢
      tauto

theorem Table.wf_write [DecidableEq α] (d : α) (k : Nat) (v : α) {m : Table α} (hm : Table.wf d m = true) :
    Table.wf d (Table.write d k v m) = true := by
  simp only [Table.wf, Bool.and_eq_true, List.all_eq_true, decide_eq_true_eq] at hm ⊢
  unfold Table.write
  split
  · exact ⟨Table.rising_erase k hm.1, fun e he => hm.2 e (Table.mem_erase he)⟩
  · rename_i hv
    refine ⟨Table.rising_insert k v hm.1, fun e he => ?_⟩
    rcases Table.mem_insert he with rfl | he
    · exact hv
    · exact hm.2 e he

end Sys2Proof.Machine
end

