-- ==== Sys2Proof/Laws/State.lean ====
section
/-! SUPPORT. One lemma per field per update, and what each accessor reads after each update. -/

namespace Sys2Proof.Machine

variable (s : State)

/-! ### setBus -/

@[simp] theorem State.setBus_params (b : Nat) (v : Bus) : (s.setBus b v).params = s.params := rfl
@[simp] theorem State.setBus_buses (b : Nat) (v : Bus) : (s.setBus b v).buses = Table.write Bus.start b v s.buses := rfl
@[simp] theorem State.setBus_uarts (b : Nat) (v : Bus) : (s.setBus b v).uarts = s.uarts := rfl
@[simp] theorem State.setBus_transceivers (b : Nat) (v : Bus) : (s.setBus b v).transceivers = s.transceivers := rfl
@[simp] theorem State.setBus_clk (b : Nat) (v : Bus) : (s.setBus b v).clk = s.clk := rfl
@[simp] theorem State.setBus_events (b : Nat) (v : Bus) : (s.setBus b v).events = s.events := rfl
@[simp] theorem State.setBus_faults (b : Nat) (v : Bus) : (s.setBus b v).faults = s.faults := rfl
@[simp] theorem State.setBus_answer (b : Nat) (v : Bus) : (s.setBus b v).answer = s.answer := rfl
@[simp] theorem State.setBus_program (b : Nat) (v : Bus) : (s.setBus b v).program = s.program := rfl
@[simp] theorem State.setBus_schedule (b : Nat) (v : Bus) : (s.setBus b v).schedule = s.schedule := rfl
@[simp] theorem State.setBus_ctx (b : Nat) (v : Bus) : (s.setBus b v).ctx = s.ctx := rfl
@[simp] theorem State.setBus_running (b : Nat) (v : Bus) : (s.setBus b v).running = s.running := rfl
@[simp] theorem State.setBus_line (b : Nat) (v : Bus) : (s.setBus b v).line = s.line := rfl
@[simp] theorem State.setBus_draws (b : Nat) (v : Bus) : (s.setBus b v).draws = s.draws := rfl

/-! ### setUart -/

@[simp] theorem State.setUart_params (u : Nat) (v : Uart) : (s.setUart u v).params = s.params := rfl
@[simp] theorem State.setUart_buses (u : Nat) (v : Uart) : (s.setUart u v).buses = s.buses := rfl
@[simp] theorem State.setUart_uarts (u : Nat) (v : Uart) : (s.setUart u v).uarts = Table.write Uart.start u v s.uarts := rfl
@[simp] theorem State.setUart_transceivers (u : Nat) (v : Uart) : (s.setUart u v).transceivers = s.transceivers := rfl
@[simp] theorem State.setUart_clk (u : Nat) (v : Uart) : (s.setUart u v).clk = s.clk := rfl
@[simp] theorem State.setUart_events (u : Nat) (v : Uart) : (s.setUart u v).events = s.events := rfl
@[simp] theorem State.setUart_faults (u : Nat) (v : Uart) : (s.setUart u v).faults = s.faults := rfl
@[simp] theorem State.setUart_answer (u : Nat) (v : Uart) : (s.setUart u v).answer = s.answer := rfl
@[simp] theorem State.setUart_program (u : Nat) (v : Uart) : (s.setUart u v).program = s.program := rfl
@[simp] theorem State.setUart_schedule (u : Nat) (v : Uart) : (s.setUart u v).schedule = s.schedule := rfl
@[simp] theorem State.setUart_ctx (u : Nat) (v : Uart) : (s.setUart u v).ctx = s.ctx := rfl
@[simp] theorem State.setUart_running (u : Nat) (v : Uart) : (s.setUart u v).running = s.running := rfl
@[simp] theorem State.setUart_line (u : Nat) (v : Uart) : (s.setUart u v).line = s.line := rfl
@[simp] theorem State.setUart_draws (u : Nat) (v : Uart) : (s.setUart u v).draws = s.draws := rfl

/-! ### setTransceiver -/

@[simp] theorem State.setTransceiver_params (t : Nat) (T : Transceiver) : (s.setTransceiver t T).params = s.params := rfl
@[simp] theorem State.setTransceiver_buses (t : Nat) (T : Transceiver) : (s.setTransceiver t T).buses = s.buses := rfl
@[simp] theorem State.setTransceiver_uarts (t : Nat) (T : Transceiver) : (s.setTransceiver t T).uarts = s.uarts := rfl
@[simp] theorem State.setTransceiver_transceivers (t : Nat) (T : Transceiver) : (s.setTransceiver t T).transceivers = Table.insert t T s.transceivers := rfl
@[simp] theorem State.setTransceiver_clk (t : Nat) (T : Transceiver) : (s.setTransceiver t T).clk = s.clk := rfl
@[simp] theorem State.setTransceiver_events (t : Nat) (T : Transceiver) : (s.setTransceiver t T).events = s.events := rfl
@[simp] theorem State.setTransceiver_faults (t : Nat) (T : Transceiver) : (s.setTransceiver t T).faults = s.faults := rfl
@[simp] theorem State.setTransceiver_answer (t : Nat) (T : Transceiver) : (s.setTransceiver t T).answer = s.answer := rfl
@[simp] theorem State.setTransceiver_program (t : Nat) (T : Transceiver) : (s.setTransceiver t T).program = s.program := rfl
@[simp] theorem State.setTransceiver_schedule (t : Nat) (T : Transceiver) : (s.setTransceiver t T).schedule = s.schedule := rfl
@[simp] theorem State.setTransceiver_ctx (t : Nat) (T : Transceiver) : (s.setTransceiver t T).ctx = s.ctx := rfl
@[simp] theorem State.setTransceiver_running (t : Nat) (T : Transceiver) : (s.setTransceiver t T).running = s.running := rfl
@[simp] theorem State.setTransceiver_line (t : Nat) (T : Transceiver) : (s.setTransceiver t T).line = s.line := rfl
@[simp] theorem State.setTransceiver_draws (t : Nat) (T : Transceiver) : (s.setTransceiver t T).draws = s.draws := rfl

/-! ### emit -/

@[simp] theorem State.emit_params (e : Event) : (s.emit e).params = s.params := rfl
@[simp] theorem State.emit_buses (e : Event) : (s.emit e).buses = s.buses := rfl
@[simp] theorem State.emit_uarts (e : Event) : (s.emit e).uarts = s.uarts := rfl
@[simp] theorem State.emit_transceivers (e : Event) : (s.emit e).transceivers = s.transceivers := rfl
@[simp] theorem State.emit_clk (e : Event) : (s.emit e).clk = s.clk := rfl
@[simp] theorem State.emit_events (e : Event) : (s.emit e).events = s.events ++ [e] := rfl
@[simp] theorem State.emit_faults (e : Event) : (s.emit e).faults = s.faults := rfl
@[simp] theorem State.emit_answer (e : Event) : (s.emit e).answer = s.answer := rfl
@[simp] theorem State.emit_program (e : Event) : (s.emit e).program = s.program := rfl
@[simp] theorem State.emit_schedule (e : Event) : (s.emit e).schedule = s.schedule := rfl
@[simp] theorem State.emit_ctx (e : Event) : (s.emit e).ctx = s.ctx := rfl
@[simp] theorem State.emit_running (e : Event) : (s.emit e).running = s.running := rfl
@[simp] theorem State.emit_line (e : Event) : (s.emit e).line = s.line := rfl
@[simp] theorem State.emit_draws (e : Event) : (s.emit e).draws = s.draws := rfl

/-! ### setAnswer -/

@[simp] theorem State.setAnswer_params (a : Answer) : (s.setAnswer a).params = s.params := rfl
@[simp] theorem State.setAnswer_buses (a : Answer) : (s.setAnswer a).buses = s.buses := rfl
@[simp] theorem State.setAnswer_uarts (a : Answer) : (s.setAnswer a).uarts = s.uarts := rfl
@[simp] theorem State.setAnswer_transceivers (a : Answer) : (s.setAnswer a).transceivers = s.transceivers := rfl
@[simp] theorem State.setAnswer_clk (a : Answer) : (s.setAnswer a).clk = s.clk := rfl
@[simp] theorem State.setAnswer_events (a : Answer) : (s.setAnswer a).events = s.events := rfl
@[simp] theorem State.setAnswer_faults (a : Answer) : (s.setAnswer a).faults = s.faults := rfl
@[simp] theorem State.setAnswer_answer (a : Answer) : (s.setAnswer a).answer = some a := rfl
@[simp] theorem State.setAnswer_program (a : Answer) : (s.setAnswer a).program = s.program := rfl
@[simp] theorem State.setAnswer_schedule (a : Answer) : (s.setAnswer a).schedule = s.schedule := rfl
@[simp] theorem State.setAnswer_ctx (a : Answer) : (s.setAnswer a).ctx = s.ctx := rfl
@[simp] theorem State.setAnswer_running (a : Answer) : (s.setAnswer a).running = s.running := rfl
@[simp] theorem State.setAnswer_line (a : Answer) : (s.setAnswer a).line = s.line := rfl
@[simp] theorem State.setAnswer_draws (a : Answer) : (s.setAnswer a).draws = s.draws := rfl

/-! ### raise -/

@[simp] theorem State.raise_params (f : OpFault) : (s.raise f).params = s.params := rfl
@[simp] theorem State.raise_buses (f : OpFault) : (s.raise f).buses = s.buses := rfl
@[simp] theorem State.raise_uarts (f : OpFault) : (s.raise f).uarts = s.uarts := rfl
@[simp] theorem State.raise_transceivers (f : OpFault) : (s.raise f).transceivers = s.transceivers := rfl
@[simp] theorem State.raise_clk (f : OpFault) : (s.raise f).clk = s.clk := rfl
@[simp] theorem State.raise_events (f : OpFault) : (s.raise f).events = s.events := rfl
@[simp] theorem State.raise_faults (f : OpFault) : (s.raise f).faults = s.faults ++ [f] := rfl
@[simp] theorem State.raise_answer (f : OpFault) : (s.raise f).answer = s.answer := rfl
@[simp] theorem State.raise_program (f : OpFault) : (s.raise f).program = s.program := rfl
@[simp] theorem State.raise_schedule (f : OpFault) : (s.raise f).schedule = s.schedule := rfl
@[simp] theorem State.raise_ctx (f : OpFault) : (s.raise f).ctx = s.ctx := rfl
@[simp] theorem State.raise_running (f : OpFault) : (s.raise f).running = s.running := rfl
@[simp] theorem State.raise_line (f : OpFault) : (s.raise f).line = s.line := rfl
@[simp] theorem State.raise_draws (f : OpFault) : (s.raise f).draws = s.draws := rfl

/-! ### stopOperation -/

@[simp] theorem State.stopOperation_params (t : Nat) (T : Transceiver) (f : OpFault) : (s.stopOperation t T f).params = s.params := rfl
@[simp] theorem State.stopOperation_buses (t : Nat) (T : Transceiver) (f : OpFault) : (s.stopOperation t T f).buses = s.buses := rfl
@[simp] theorem State.stopOperation_uarts (t : Nat) (T : Transceiver) (f : OpFault) : (s.stopOperation t T f).uarts = s.uarts := rfl
@[simp] theorem State.stopOperation_transceivers (t : Nat) (T : Transceiver) (f : OpFault) : (s.stopOperation t T f).transceivers = Table.insert t { T with stopped := true } s.transceivers := rfl
@[simp] theorem State.stopOperation_clk (t : Nat) (T : Transceiver) (f : OpFault) : (s.stopOperation t T f).clk = s.clk := rfl
@[simp] theorem State.stopOperation_events (t : Nat) (T : Transceiver) (f : OpFault) : (s.stopOperation t T f).events = s.events := rfl
@[simp] theorem State.stopOperation_faults (t : Nat) (T : Transceiver) (f : OpFault) : (s.stopOperation t T f).faults = s.faults ++ [f] := rfl
@[simp] theorem State.stopOperation_answer (t : Nat) (T : Transceiver) (f : OpFault) : (s.stopOperation t T f).answer = s.answer := rfl
@[simp] theorem State.stopOperation_program (t : Nat) (T : Transceiver) (f : OpFault) : (s.stopOperation t T f).program = s.program := rfl
@[simp] theorem State.stopOperation_schedule (t : Nat) (T : Transceiver) (f : OpFault) : (s.stopOperation t T f).schedule = s.schedule := rfl
@[simp] theorem State.stopOperation_ctx (t : Nat) (T : Transceiver) (f : OpFault) : (s.stopOperation t T f).ctx = s.ctx := rfl
@[simp] theorem State.stopOperation_running (t : Nat) (T : Transceiver) (f : OpFault) : (s.stopOperation t T f).running = s.running := rfl
@[simp] theorem State.stopOperation_line (t : Nat) (T : Transceiver) (f : OpFault) : (s.stopOperation t T f).line = s.line := rfl
@[simp] theorem State.stopOperation_draws (t : Nat) (T : Transceiver) (f : OpFault) : (s.stopOperation t T f).draws = s.draws := rfl

/-! ### advance -/

@[simp] theorem State.advance_params (n : Nat) : (s.advance n).params = s.params := rfl
@[simp] theorem State.advance_buses (n : Nat) : (s.advance n).buses = s.buses := rfl
@[simp] theorem State.advance_uarts (n : Nat) : (s.advance n).uarts = s.uarts := rfl
@[simp] theorem State.advance_transceivers (n : Nat) : (s.advance n).transceivers = s.transceivers := rfl
@[simp] theorem State.advance_clk (n : Nat) : (s.advance n).clk = s.clk + BitVec.ofNat 32 n := rfl
@[simp] theorem State.advance_events (n : Nat) : (s.advance n).events = s.events := rfl
@[simp] theorem State.advance_faults (n : Nat) : (s.advance n).faults = s.faults := rfl
@[simp] theorem State.advance_answer (n : Nat) : (s.advance n).answer = s.answer := rfl
@[simp] theorem State.advance_program (n : Nat) : (s.advance n).program = s.program := rfl
@[simp] theorem State.advance_schedule (n : Nat) : (s.advance n).schedule = s.schedule := rfl
@[simp] theorem State.advance_ctx (n : Nat) : (s.advance n).ctx = s.ctx := rfl
@[simp] theorem State.advance_running (n : Nat) : (s.advance n).running = s.running := rfl
@[simp] theorem State.advance_line (n : Nat) : (s.advance n).line = s.line := rfl
@[simp] theorem State.advance_draws (n : Nat) : (s.advance n).draws = s.draws := rfl

/-! ### setRx -/

@[simp] theorem State.setRx_params (u : Nat) (bs : List Byte) : (s.setRx u bs).params = s.params := rfl
@[simp] theorem State.setRx_buses (u : Nat) (bs : List Byte) : (s.setRx u bs).buses = s.buses := rfl
@[simp] theorem State.setRx_uarts (u : Nat) (bs : List Byte) : (s.setRx u bs).uarts = (s.setUart u { s.uart u with rx := bs }).uarts := rfl
@[simp] theorem State.setRx_transceivers (u : Nat) (bs : List Byte) : (s.setRx u bs).transceivers = s.transceivers := rfl
@[simp] theorem State.setRx_clk (u : Nat) (bs : List Byte) : (s.setRx u bs).clk = s.clk := rfl
@[simp] theorem State.setRx_events (u : Nat) (bs : List Byte) : (s.setRx u bs).events = s.events := rfl
@[simp] theorem State.setRx_faults (u : Nat) (bs : List Byte) : (s.setRx u bs).faults = s.faults := rfl
@[simp] theorem State.setRx_answer (u : Nat) (bs : List Byte) : (s.setRx u bs).answer = s.answer := rfl
@[simp] theorem State.setRx_program (u : Nat) (bs : List Byte) : (s.setRx u bs).program = s.program := rfl
@[simp] theorem State.setRx_schedule (u : Nat) (bs : List Byte) : (s.setRx u bs).schedule = s.schedule := rfl
@[simp] theorem State.setRx_ctx (u : Nat) (bs : List Byte) : (s.setRx u bs).ctx = s.ctx := rfl
@[simp] theorem State.setRx_running (u : Nat) (bs : List Byte) : (s.setRx u bs).running = s.running := rfl
@[simp] theorem State.setRx_line (u : Nat) (bs : List Byte) : (s.setRx u bs).line = s.line := rfl
@[simp] theorem State.setRx_draws (u : Nat) (bs : List Byte) : (s.setRx u bs).draws = s.draws := rfl

/-! ### logTx -/

@[simp] theorem State.logTx_params (u : Nat) (b : Byte) : (s.logTx u b).params = s.params := rfl
@[simp] theorem State.logTx_buses (u : Nat) (b : Byte) : (s.logTx u b).buses = s.buses := rfl
@[simp] theorem State.logTx_uarts (u : Nat) (b : Byte) : (s.logTx u b).uarts = (s.setUart u { s.uart u with txlog := (s.uart u).txlog ++ [b] }).uarts := rfl
@[simp] theorem State.logTx_transceivers (u : Nat) (b : Byte) : (s.logTx u b).transceivers = s.transceivers := rfl
@[simp] theorem State.logTx_clk (u : Nat) (b : Byte) : (s.logTx u b).clk = s.clk := rfl
@[simp] theorem State.logTx_events (u : Nat) (b : Byte) : (s.logTx u b).events = s.events := rfl
@[simp] theorem State.logTx_faults (u : Nat) (b : Byte) : (s.logTx u b).faults = s.faults := rfl
@[simp] theorem State.logTx_answer (u : Nat) (b : Byte) : (s.logTx u b).answer = s.answer := rfl
@[simp] theorem State.logTx_program (u : Nat) (b : Byte) : (s.logTx u b).program = s.program := rfl
@[simp] theorem State.logTx_schedule (u : Nat) (b : Byte) : (s.logTx u b).schedule = s.schedule := rfl
@[simp] theorem State.logTx_ctx (u : Nat) (b : Byte) : (s.logTx u b).ctx = s.ctx := rfl
@[simp] theorem State.logTx_running (u : Nat) (b : Byte) : (s.logTx u b).running = s.running := rfl
@[simp] theorem State.logTx_line (u : Nat) (b : Byte) : (s.logTx u b).line = s.line := rfl
@[simp] theorem State.logTx_draws (u : Nat) (b : Byte) : (s.logTx u b).draws = s.draws := rfl

/-! ### deliver -/

@[simp] theorem State.deliver_params (u : Nat) (bs : List Byte) : (s.deliver u bs).params = s.params := rfl
@[simp] theorem State.deliver_buses (u : Nat) (bs : List Byte) : (s.deliver u bs).buses = s.buses := rfl
@[simp] theorem State.deliver_uarts (u : Nat) (bs : List Byte) : (s.deliver u bs).uarts = (s.setUart u { s.uart u with rx := (s.uart u).rx ++ bs }).uarts := rfl
@[simp] theorem State.deliver_transceivers (u : Nat) (bs : List Byte) : (s.deliver u bs).transceivers = s.transceivers := rfl
@[simp] theorem State.deliver_clk (u : Nat) (bs : List Byte) : (s.deliver u bs).clk = s.clk := rfl
@[simp] theorem State.deliver_events (u : Nat) (bs : List Byte) : (s.deliver u bs).events = s.events := rfl
@[simp] theorem State.deliver_faults (u : Nat) (bs : List Byte) : (s.deliver u bs).faults = s.faults := rfl
@[simp] theorem State.deliver_answer (u : Nat) (bs : List Byte) : (s.deliver u bs).answer = s.answer := rfl
@[simp] theorem State.deliver_program (u : Nat) (bs : List Byte) : (s.deliver u bs).program = s.program := rfl
@[simp] theorem State.deliver_schedule (u : Nat) (bs : List Byte) : (s.deliver u bs).schedule = s.schedule := rfl
@[simp] theorem State.deliver_ctx (u : Nat) (bs : List Byte) : (s.deliver u bs).ctx = s.ctx := rfl
@[simp] theorem State.deliver_running (u : Nat) (bs : List Byte) : (s.deliver u bs).running = s.running := rfl
@[simp] theorem State.deliver_line (u : Nat) (bs : List Byte) : (s.deliver u bs).line = s.line := rfl
@[simp] theorem State.deliver_draws (u : Nat) (bs : List Byte) : (s.deliver u bs).draws = s.draws := rfl

/-! ### Accessors after updates -/

@[simp] theorem State.bus_setBus_same (b : Nat) (v : Bus) : (s.setBus b v).bus b = v := by
  simp [State.bus, State.setBus]

theorem State.bus_setBus (b k : Nat) (v : Bus) : (s.setBus b v).bus k = if k = b then v else s.bus k := by
  simp [State.bus, State.setBus, Table.read_write]

theorem State.bus_setBus_other {b k : Nat} (h : k ≠ b) (v : Bus) : (s.setBus b v).bus k = s.bus k := by
  simp [State.bus_setBus, h]

@[simp] theorem State.uart_setUart_same (u : Nat) (v : Uart) : (s.setUart u v).uart u = v := by
  simp [State.uart, State.setUart]

theorem State.uart_setUart (u k : Nat) (v : Uart) : (s.setUart u v).uart k = if k = u then v else s.uart k := by
  simp [State.uart, State.setUart, Table.read_write]

theorem State.uart_setUart_other {u k : Nat} (h : k ≠ u) (v : Uart) : (s.setUart u v).uart k = s.uart k := by
  simp [State.uart_setUart, h]

@[simp] theorem State.transceiver_setTransceiver_same (t : Nat) (T : Transceiver) :
    (s.setTransceiver t T).transceiver t = some T := by
  simp [State.transceiver, State.setTransceiver]

theorem State.transceiver_setTransceiver (t k : Nat) (T : Transceiver) :
    (s.setTransceiver t T).transceiver k = if k = t then some T else s.transceiver k := by
  simp [State.transceiver, State.setTransceiver, Table.find_insert]

theorem State.transceiver_setTransceiver_other {t k : Nat} (h : k ≠ t) (T : Transceiver) :
    (s.setTransceiver t T).transceiver k = s.transceiver k := by
  simp [State.transceiver_setTransceiver, h]

@[simp] theorem State.uart_setBus (b : Nat) (v : Bus) (k : Nat) : (s.setBus b v).uart k = s.uart k := rfl
@[simp] theorem State.transceiver_setBus (b : Nat) (v : Bus) (k : Nat) : (s.setBus b v).transceiver k = s.transceiver k := rfl

@[simp] theorem State.bus_setUart (u : Nat) (v : Uart) (k : Nat) : (s.setUart u v).bus k = s.bus k := rfl
@[simp] theorem State.transceiver_setUart (u : Nat) (v : Uart) (k : Nat) : (s.setUart u v).transceiver k = s.transceiver k := rfl

@[simp] theorem State.bus_setTransceiver (t : Nat) (T : Transceiver) (k : Nat) : (s.setTransceiver t T).bus k = s.bus k := rfl
@[simp] theorem State.uart_setTransceiver (t : Nat) (T : Transceiver) (k : Nat) : (s.setTransceiver t T).uart k = s.uart k := rfl

@[simp] theorem State.bus_emit (e : Event) (k : Nat) : (s.emit e).bus k = s.bus k := rfl
@[simp] theorem State.uart_emit (e : Event) (k : Nat) : (s.emit e).uart k = s.uart k := rfl
@[simp] theorem State.transceiver_emit (e : Event) (k : Nat) : (s.emit e).transceiver k = s.transceiver k := rfl

@[simp] theorem State.pinLevel_setUart (u : Nat) (v : Uart) (b : Nat) : (s.setUart u v).pinLevel b = s.pinLevel b := rfl
@[simp] theorem State.pinLevel_setTransceiver (t : Nat) (T : Transceiver) (b : Nat) : (s.setTransceiver t T).pinLevel b = s.pinLevel b := rfl
@[simp] theorem State.pinLevel_emit (e : Event) (b : Nat) : (s.emit e).pinLevel b = s.pinLevel b := rfl

/-- The level of a driven pin is the one it is driven at. -/
theorem State.pinLevel_output {b : Nat} {l : Bool} (h : (s.bus b).pin = .output l) : s.pinLevel b = l := by
  simp [State.pinLevel, h]

@[simp] theorem State.bus_setAnswer (a : Answer) (k : Nat) : (s.setAnswer a).bus k = s.bus k := rfl
@[simp] theorem State.uart_setAnswer (a : Answer) (k : Nat) : (s.setAnswer a).uart k = s.uart k := rfl
@[simp] theorem State.transceiver_setAnswer (a : Answer) (k : Nat) : (s.setAnswer a).transceiver k = s.transceiver k := rfl

@[simp] theorem State.bus_raise (f : OpFault) (k : Nat) : (s.raise f).bus k = s.bus k := rfl
@[simp] theorem State.uart_raise (f : OpFault) (k : Nat) : (s.raise f).uart k = s.uart k := rfl
@[simp] theorem State.transceiver_raise (f : OpFault) (k : Nat) : (s.raise f).transceiver k = s.transceiver k := rfl

@[simp] theorem State.bus_stopOperation (t : Nat) (T : Transceiver) (f : OpFault) (k : Nat) : (s.stopOperation t T f).bus k = s.bus k := rfl
@[simp] theorem State.uart_stopOperation (t : Nat) (T : Transceiver) (f : OpFault) (k : Nat) : (s.stopOperation t T f).uart k = s.uart k := rfl
@[simp] theorem State.transceiver_stopOperation_same (t : Nat) (T : Transceiver) (f : OpFault) :
    (s.stopOperation t T f).transceiver t = some { T with stopped := true } := by
  simp [State.stopOperation]

theorem State.transceiver_stopOperation (t : Nat) (T : Transceiver) (f : OpFault) (k : Nat) :
    (s.stopOperation t T f).transceiver k = if k = t then some { T with stopped := true } else s.transceiver k := by
  simp [State.stopOperation, State.transceiver_setTransceiver]

@[simp] theorem State.bus_advance (n : Nat) (k : Nat) : (s.advance n).bus k = s.bus k := rfl
@[simp] theorem State.uart_advance (n : Nat) (k : Nat) : (s.advance n).uart k = s.uart k := rfl
@[simp] theorem State.transceiver_advance (n : Nat) (k : Nat) : (s.advance n).transceiver k = s.transceiver k := rfl

@[simp] theorem State.bus_setRx (u : Nat) (bs : List Byte) (k : Nat) : (s.setRx u bs).bus k = s.bus k := rfl
@[simp] theorem State.transceiver_setRx (u : Nat) (bs : List Byte) (k : Nat) : (s.setRx u bs).transceiver k = s.transceiver k := rfl

@[simp] theorem State.bus_logTx (u : Nat) (b : Byte) (k : Nat) : (s.logTx u b).bus k = s.bus k := rfl
@[simp] theorem State.transceiver_logTx (u : Nat) (b : Byte) (k : Nat) : (s.logTx u b).transceiver k = s.transceiver k := rfl

@[simp] theorem State.bus_deliver (u : Nat) (bs : List Byte) (k : Nat) : (s.deliver u bs).bus k = s.bus k := rfl
@[simp] theorem State.transceiver_deliver (u : Nat) (bs : List Byte) (k : Nat) : (s.deliver u bs).transceiver k = s.transceiver k := rfl

theorem State.uart_setRx (u k : Nat) (bs : List Byte) :
    (s.setRx u bs).uart k = if k = u then { s.uart u with rx := bs } else s.uart k := by
  simp [State.setRx, State.uart_setUart]

theorem State.uart_logTx (u k : Nat) (b : Byte) :
    (s.logTx u b).uart k = if k = u then { s.uart u with txlog := (s.uart u).txlog ++ [b] } else s.uart k := by
  simp [State.logTx, State.uart_setUart]

theorem State.uart_deliver (u k : Nat) (bs : List Byte) :
    (s.deliver u bs).uart k = if k = u then { s.uart u with rx := (s.uart u).rx ++ bs } else s.uart k := by
  simp [State.deliver, State.uart_setUart]

end Sys2Proof.Machine
end

