-- ==== Sys2Proof/Laws/Ops.lean ====
section
/-! SUPPORT. What each shared operation of Machine/Ops.lean can do, said once. -/

namespace Sys2Proof.Machine

/-! ### Preconditions -/

@[simp] theorem firstFault_nil : firstFault [] = none := rfl

@[simp] theorem firstFault_cons (c : Bool) (f : OpFault) (rest : List (Bool × OpFault)) :
    firstFault ((c, f) :: rest) = if c = true then some f else firstFault rest := rfl

/-- Nothing is recorded exactly when every precondition holds. -/
theorem firstFault_eq_none {checks : List (Bool × OpFault)} :
    firstFault checks = none ↔ ∀ c ∈ checks, c.1 = false := by
  induction checks with
  | nil => simp
  | cons c rest ih =>
    obtain ⟨b, f⟩ := c
    cases b <;> simp [ih]

/-- What is recorded is the name of one of the preconditions. -/
theorem firstFault_mem {checks : List (Bool × OpFault)} {f : OpFault} (h : firstFault checks = some f) :
    f ∈ checks.map Prod.snd := by
  induction checks with
  | nil => cases h
  | cons c rest ih =>
    obtain ⟨b, g⟩ := c
    cases b
    · exact List.mem_cons_of_mem _ (ih h)
    · cases h
      exact List.mem_cons_self

theorem guarded_none {checks : List (Bool × OpFault)} {s : State} {run : Step} (h : firstFault checks = none) :
    guarded checks s run = run := by
  simp [guarded, h]

theorem guarded_some {checks : List (Bool × OpFault)} {s : State} {run : Step} {f : OpFault}
    (h : firstFault checks = some f) : guarded checks s run = .next (s.raise f) := by
  simp [guarded, h]

/-- A guarded operation records a fault or runs. -/
theorem guarded_next {checks : List (Bool × OpFault)} {s s' : State} {run : Step}
    (h : guarded checks s run = .next s') :
    (∃ f, firstFault checks = some f ∧ s' = s.raise f) ∨ (firstFault checks = none ∧ run = .next s') := by
  unfold guarded at h
  split at h
  · rename_i f hf
    cases h
    exact .inl ⟨f, hf, rfl⟩
  · rename_i hf
    exact .inr ⟨hf, h⟩

theorem guarded_fault {checks : List (Bool × OpFault)} {s : State} {run : Step} {r : Fault}
    (h : guarded checks s run = .fault r) : run = .fault r := by
  unfold guarded at h
  split at h
  · cases h
  · exact h

theorem withTransceiver_some {s : State} {t : Nat} {T : Transceiver} {run : Transceiver → Step}
    (h : s.transceiver t = some T) : s.withTransceiver t run = run T := by
  simp [State.withTransceiver, h]

theorem withTransceiver_next {s s' : State} {t : Nat} {run : Transceiver → Step}
    (h : s.withTransceiver t run = .next s') :
    (∃ T, s.transceiver t = some T ∧ run T = .next s') ∨
      (s.transceiver t = none ∧ s' = s.raise .notConstructed) := by
  unfold State.withTransceiver at h
  split at h
  · rename_i T hT
    exact .inl ⟨T, hT, h⟩
  · rename_i hT
    cases h
    exact .inr ⟨hT, rfl⟩

theorem requestChecks_none {s : State} (hc : s.ctx = .stallTolerant) (hp : paramsValid s.params = true) :
    firstFault s.requestChecks = none := by
  simp [State.requestChecks, hc, hp]

theorem idle_of_some {s : State} {t : Nat} {T : Transceiver} (h : s.transceiver t = some T) :
    s.idle t = decide (T.phase = .idle) := by
  simp [State.idle, h]

theorem contended_of_some {s : State} {t : Nat} {T : Transceiver} (h : s.transceiver t = some T) :
    s.contended t = (s.bus T.bus).busy := by
  simp [State.contended, h]

/-! ### Micro-steps -/

theorem withRunning_some {s : State} {run : Nat → Transceiver → Step} {t : Nat} {T : Transceiver}
    (hr : s.running = some t) (hT : s.transceiver t = some T) : s.withRunning run = run t T := by
  simp [State.withRunning, hr, hT]

theorem withRunning_caller {s : State} {run : Nat → Transceiver → Step} (hr : s.running = none) :
    s.withRunning run = .refused .microStepOutsideOperation := by
  simp [State.withRunning, hr]

/-- What needs a running transceiver is refused or runs on it. -/
theorem withRunning_cases (s : State) (run : Nat → Transceiver → Step) :
    s.withRunning run = .refused .microStepOutsideOperation ∨
    ∃ t T, s.running = some t ∧ s.transceiver t = some T ∧ s.withRunning run = run t T := by
  cases hr : s.running with
  | none => exact .inl (withRunning_caller hr)
  | some t =>
    cases hT : s.transceiver t with
    | none => exact .inl (by simp [State.withRunning, hr, hT])
    | some T => exact .inr ⟨t, T, rfl, hT, withRunning_some hr hT⟩

theorem withRunning_next {s s' : State} {run : Nat → Transceiver → Step} (h : s.withRunning run = .next s') :
    ∃ t T, s.running = some t ∧ s.transceiver t = some T ∧ run t T = .next s' := by
  obtain e | ⟨t, T, hr, hT, e⟩ := withRunning_cases s run <;> rw [e] at h
  · cases h
  · exact ⟨t, T, hr, hT, h⟩

theorem withRunning_fault {s : State} {run : Nat → Transceiver → Step} {r : Fault}
    (h : s.withRunning run = .fault r) :
    ∃ t T, s.running = some t ∧ s.transceiver t = some T ∧ run t T = .fault r := by
  obtain e | ⟨t, T, hr, hT, e⟩ := withRunning_cases s run <;> rw [e] at h
  · cases h
  · exact ⟨t, T, hr, hT, h⟩

theorem onSequencer_run {i : Instr} {s : State} {run : Nat → Transceiver → Step} {t : Nat} {T : Transceiver}
    (hr : s.running = some t) (hT : s.transceiver t = some T) (hi : microOp s.params T = some i) :
    onSequencer i s run = run t T := by
  simp [onSequencer, withRunning_some hr hT, hi]

/-- A micro-step that answers a next state ran on the running transceiver, in a phase that names it. -/
theorem onSequencer_next {i : Instr} {s s' : State} {run : Nat → Transceiver → Step}
    (h : onSequencer i s run = .next s') :
    ∃ t T, s.running = some t ∧ s.transceiver t = some T ∧ microOp s.params T = some i ∧ run t T = .next s' := by
  obtain ⟨t, T, hr, hT, h⟩ := withRunning_next h
  split at h
  · rename_i hi
    exact ⟨t, T, hr, hT, hi, h⟩
  · cases h

theorem onSequencer_fault {i : Instr} {s : State} {run : Nat → Transceiver → Step} {r : Fault}
    (h : onSequencer i s run = .fault r) :
    ∃ t T, s.running = some t ∧ s.transceiver t = some T ∧ microOp s.params T = some i ∧ run t T = .fault r := by
  obtain ⟨t, T, hr, hT, h⟩ := withRunning_fault h
  split at h
  · rename_i hi
    exact ⟨t, T, hr, hT, hi, h⟩
  · cases h

theorem onSequencer_caller {i : Instr} {s : State} {run : Nat → Transceiver → Step} (hr : s.running = none) :
    onSequencer i s run = .refused .microStepOutsideOperation := by
  simp [onSequencer, withRunning_caller hr]

theorem evaluated_caller {inRange : Bool} {v : Value} {s : State} (hr : s.running = none) :
    evaluated inRange v s = .refused .microStepOutsideOperation :=
  withRunning_caller hr

theorem evaluated_run {inRange : Bool} {v : Value} {s : State} {t : Nat} {T : Transceiver}
    (hr : s.running = some t) (hT : s.transceiver t = some T) (hp : T.phase ≠ .idle) (hi : inRange = true) :
    evaluated inRange v s = .next (s.setTransceiver t { T with value := some v }) := by
  simp [evaluated, withRunning_some hr hT, hp, hi]

/-- Out of its operand range nothing is evaluated. -/
theorem evaluated_outOfRange {inRange : Bool} {v : Value} {s : State} {t : Nat} {T : Transceiver}
    (hr : s.running = some t) (hT : s.transceiver t = some T) (hp : T.phase ≠ .idle) (hi : inRange = false) :
    evaluated inRange v s = .next s := by
  simp [evaluated, withRunning_some hr hT, hp, hi]

/-- A pure function that answers a next state has written its value or changed nothing. -/
theorem evaluated_next {inRange : Bool} {v : Value} {s s' : State} (h : evaluated inRange v s = .next s') :
    ∃ t T, s.running = some t ∧ s.transceiver t = some T ∧ T.phase ≠ .idle ∧
      (s' = s.setTransceiver t { T with value := some v } ∨ s' = s) := by
  obtain ⟨t, T, hr, hT, h⟩ := withRunning_next h
  split at h
  · cases h
  · rename_i hp
    refine ⟨t, T, hr, hT, hp, ?_⟩
    split at h <;> cases h
    · exact .inl rfl
    · exact .inr rfl

theorem evaluated_fault (inRange : Bool) (v : Value) (s : State) (r : Fault) : evaluated inRange v s ≠ .fault r := by
  intro h
  obtain ⟨t, T, -, -, h⟩ := withRunning_fault h
  split at h
  · cases h
  · split at h <;> cases h

/-! ### Start and end of an operation -/

variable (s : State) (t : Nat) (T : Transceiver) (a : Answer)

@[simp] theorem State.startOperation_transceiver_same :
    (s.startOperation t T).transceiver t = some { T with hold := .free, flushed := 0, stopped := false, answer := none } := by
  simp [State.startOperation]

theorem State.startOperation_transceiver (k : Nat) :
    (s.startOperation t T).transceiver k =
      if k = t then some { T with hold := .free, flushed := 0, stopped := false, answer := none } else s.transceiver k := by
  simp [State.startOperation, State.transceiver_setTransceiver]

theorem State.startOperation_bus (k : Nat) :
    (s.startOperation t T).bus k = if k = T.bus then { s.bus T.bus with busy := true } else s.bus k := by
  simp [State.startOperation, State.bus_setBus, Bus.setBusy]

@[simp] theorem State.startOperation_uart (k : Nat) : (s.startOperation t T).uart k = s.uart k := rfl

@[simp] theorem State.endOperation_transceiver_same :
    (s.endOperation t T a).transceiver t =
      some { T with phase := .idle, job := .none, hold := .free, answer := some a } := by
  simp [State.endOperation]

theorem State.endOperation_transceiver (k : Nat) :
    (s.endOperation t T a).transceiver k =
      if k = t then some { T with phase := .idle, job := .none, hold := .free, answer := some a }
      else s.transceiver k := by
  simp [State.endOperation, State.transceiver_setTransceiver]

theorem State.endOperation_bus (k : Nat) :
    (s.endOperation t T a).bus k = if k = T.bus then { s.bus T.bus with busy := false } else s.bus k := by
  simp [State.endOperation, State.bus_setBus, Bus.setBusy]

@[simp] theorem State.endOperation_uart (k : Nat) : (s.endOperation t T a).uart k = s.uart k := rfl

/-- A failed attempt starts the next one or ends READ. -/
theorem State.failAttempt_cases (k : Nat) (kind : ErrorKind) :
    (k + 1 < s.params.maxRetries ∧
      s.failAttempt t T k kind =
        (s.emit (.attempt k kind)).setTransceiver t { T with phase := .preFlush, flushed := 0 }) ∨
    (s.params.maxRetries ≤ k + 1 ∧
      s.failAttempt t T k kind =
        (s.emit (.attempt k kind)).endOperation t (T.setReadFailed true) (.read 0#32 false)) := by
  by_cases h : k + 1 < s.params.maxRetries
  · exact .inl ⟨h, by simp [State.failAttempt, h]⟩
  · exact .inr ⟨by omega, by simp [State.failAttempt, h]⟩

/-- TRANSACT returns to the caller with its result, or to READ: with a frame it goes to Validate, else the attempt has failed; or
it reads a register that nothing has written. -/
theorem State.afterTransact_next {s s' : State} {t : Nat} {T : Transceiver} (h : s.afterTransact t T = .next s') :
    (∃ dg n r, T.job = .direct dg n ∧ T.result = some r ∧
      s' = (s.emit (.flushed T.flushed)).endOperation t T (.transact r)) ∨
    (∃ f k, T.job = .read ∧ T.result = some (.frame f) ∧ T.attempt = some k ∧
      s' = (s.emit (.flushed T.flushed)).setTransceiver t { T with attempt := some (k + 1), phase := .validate }) ∨
    (∃ r k, T.job = .read ∧ T.result = some r ∧ (∀ f, r ≠ .frame f) ∧ T.attempt = some k ∧
      s' = (s.emit (.flushed T.flushed)).failAttempt t { T with attempt := some (k + 1) } k r.kind) ∨
    ((T.job = .read ∧ (T.result = none ∨ T.attempt = none) ∨ (∃ dg n, T.job = .direct dg n) ∧ T.result = none) ∧
      s' = s.stopOperation t T .unwritten) := by
  unfold State.afterTransact at h
  split at h
  · rename_i dg n r hj hr
    cases h
    exact .inl ⟨dg, n, r, hj, hr, rfl⟩
  · rename_i r hj hr
    split at h
    · rename_i hk
      cases h
      exact .inr (.inr (.inr ⟨.inl ⟨hj, .inr hk⟩, rfl⟩))
    · rename_i k hk
      split at h
      · rename_i f
        cases h
        exact .inr (.inl ⟨f, k, hj, hr, hk, rfl⟩)
      · cases h
        exact .inr (.inr (.inl ⟨_, k, hj, hr, by simp, hk, rfl⟩))
      · cases h
        exact .inr (.inr (.inl ⟨_, k, hj, hr, by simp, hk, rfl⟩))
  · rename_i dg n hj hr
    cases h
    exact .inr (.inr (.inr ⟨.inr ⟨⟨dg, n, hj⟩, hr⟩, rfl⟩))
  · rename_i hj hr
    cases h
    exact .inr (.inr (.inr ⟨.inl ⟨hj, .inl hr⟩, rfl⟩))
  · cases h

/-- With no byte to give, the fault is READ's request never written, or the latches contradict the phase. -/
theorem State.noDatagram_next {s s' : State} {t : Nat} {T : Transceiver} (h : s.noDatagram t T = .next s') :
    T.job = .read ∧ T.req = none ∧ s' = s.stopOperation t T .unwritten := by
  unfold State.noDatagram at h
  split at h
  · rename_i hj
    cases h
    exact ⟨hj.1, hj.2, rfl⟩
  · cases h

/-! ### The tick rule -/

theorem Transceiver.tick_same {T : Transceiver} {n : Nat} {ms : Word} (hb : T.budget = some n)
    (hm : T.lastMs = some ms) : T.tick ms = some (T, false) := by
  simp [Transceiver.tick, hb, hm]

theorem Transceiver.tick_changed {T : Transceiver} {n : Nat} {ms now : Word} (hb : T.budget = some n)
    (hm : T.lastMs = some ms) (h : now ≠ ms) :
    T.tick now = some ({ T with budget := some (n - 1), lastMs := some now }, true) := by
  simp [Transceiver.tick, hb, hm, h]

/-- The tick rule reads the budget and the last clock value, and needs both written. -/
theorem Transceiver.tick_none {T : Transceiver} {now : Word} (h : T.tick now = none) :
    T.budget = none ∨ T.lastMs = none := by
  unfold Transceiver.tick at h
  split at h
  · split at h <;> cases h
  · rename_i hn
    cases hb : T.budget with
    | none => exact .inl rfl
    | some n =>
      cases hm : T.lastMs with
      | none => exact .inr rfl
      | some ms => exact absurd hm (hn n ms hb)

/-- Whatever the tick rule does, it touches the budget and the last clock value alone. -/
theorem Transceiver.tick_some {T T' : Transceiver} {now : Word} {b : Bool} (h : T.tick now = some (T', b)) :
    ∃ n ms, T.budget = some n ∧ T.lastMs = some ms ∧
      ((now = ms ∧ T' = T ∧ b = false) ∨
        (now ≠ ms ∧ T' = { T with budget := some (n - 1), lastMs := some now } ∧ b = true)) := by
  unfold Transceiver.tick at h
  split at h
  · rename_i n ms hn hms
    split at h
    · rename_i hne
      cases h
      exact ⟨n, ms, hn, hms, .inr ⟨hne, rfl, rfl⟩⟩
    · rename_i hne
      cases h
      exact ⟨n, ms, hn, hms, .inl ⟨by simpa using hne, rfl, rfl⟩⟩
  · cases h

/-- The tick rule leaves the registers of the scan and the capture alone. -/
theorem Transceiver.tick_registers {T T' : Transceiver} {now : Word} {b : Bool} (h : T.tick now = some (T', b)) :
    T'.window = T.window ∧ T'.target = T.target ∧ T'.acc = T.acc ∧ T'.capCount = T.capCount := by
  obtain ⟨n, ms, -, -, ⟨-, rfl, -⟩ | ⟨-, rfl, -⟩⟩ := Transceiver.tick_some h <;> exact ⟨rfl, rfl, rfl, rfl⟩

end Sys2Proof.Machine
end

