-- ==== Sys2Proof/Laws/Effects.lean ====
section
/-! SUPPORT. What the bodies of BUS_INIT and SET_DIR, one poll, and the step itself can do, said once. -/

namespace Sys2Proof.Machine

/-! ### The bus buffer -/

/-- BUS_INIT does nothing, initialises the bus, or logs the undefined pin. -/
theorem State.initBus_cases (s : State) (b : Nat) (pin : Option Nat) :
    ((s.bus b).initialized = true ∧ s.initBus b pin = s) ∨
    ((s.bus b).initialized = false ∧ ∃ h, pinHandle s.params.pins pin = some h ∧
      s.initBus b pin =
        ({ s with draws := s.draws + 1 } : State).setBus b
          { s.bus b with handle := some h, initialized := true, pin := .output (Config.freeLevel s.draws) }) ∨
    ((s.bus b).initialized = false ∧ pinHandle s.params.pins pin = none ∧
      s.initBus b pin = s.emit (.log .pinUnconfigured)) := by
  unfold State.initBus
  cases hi : (s.bus b).initialized
  · cases hp : pinHandle s.params.pins pin
    · simp
    · simp
  · simp

/-- SET_DIR does nothing on an uninitialised bus; else it sets direction and pin and records it. -/
theorem State.setDirection_cases (s : State) (b : Nat) (d : Dir) :
    ((s.bus b).initialized = true ∧
      s.setDirection b d =
        (s.setBus b { s.bus b with direction := directionOf d, pin := .output (level s.params d) }).emit (.dirSet d)) ∨
    ((s.bus b).initialized = false ∧ s.setDirection b d = s) := by
  unfold State.setDirection
  cases hi : (s.bus b).initialized <;> simp

/-! ### One poll -/

/-- One poll: the tick, then the expiry, an empty FIFO, or one byte; or a register that nothing has written. A poll always answers
a next state. -/
theorem poll_cases (t : Nat) (T : Transceiver) (expired : TransactResult)
    (accept : Transceiver → Byte → Option Transceiver) (s : State) :
    ∃ s', poll t T expired accept s = .next s' ∧
      ((∃ T' ticked, T.tick s.clk = some (T', ticked) ∧
        ((T'.budget = some 0 ∧
          s' = (if ticked then s.emit .tick else s).setTransceiver t
            { T' with result := some expired, phase := .postFlush, flushed := 0 }) ∨
        (T'.budget ≠ some 0 ∧ (s.uart T.uart).rx = [] ∧
          s' = (if ticked then s.emit .tick else s).setTransceiver t T') ∨
        (T'.budget ≠ some 0 ∧ ∃ b rest T'', (s.uart T.uart).rx = b :: rest ∧ accept T' b = some T'' ∧
          s' = (((if ticked then s.emit .tick else s).setRx T.uart rest).emit (.rx b)).setTransceiver t T''))) ∨
      ((T.tick s.clk = none ∨ ∃ T' ticked b, T.tick s.clk = some (T', ticked) ∧ T'.budget ≠ some 0 ∧
          (s.uart T.uart).rx ≠ [] ∧ accept T' b = none) ∧
        s' = s.stopOperation t T .unwritten)) := by
  unfold poll
  cases htick : T.tick s.clk with
  | none => exact ⟨_, rfl, .inr ⟨.inl rfl, rfl⟩⟩
  | some p =>
    obtain ⟨T', ticked⟩ := p
    by_cases h0 : T'.budget = some 0
    · exact ⟨_, by simp only [h0, if_true], .inl ⟨T', ticked, rfl, .inl ⟨h0, rfl⟩⟩⟩
    · cases hx : (s.uart T.uart).rx with
      | nil => exact ⟨_, by simp only [if_neg h0], .inl ⟨T', ticked, rfl, .inr (.inl ⟨h0, rfl, rfl⟩)⟩⟩
      | cons b rest =>
        cases ha : accept T' b with
        | none =>
          exact ⟨_, by simp only [if_neg h0, ha], .inr ⟨.inr ⟨T', ticked, b, rfl, h0, by simp, ha⟩, rfl⟩⟩
        | some T'' =>
          exact ⟨_, by simp only [if_neg h0, ha],
            .inl ⟨T', ticked, rfl, .inr (.inr ⟨h0, b, rest, T'', rfl, ha, rfl⟩)⟩⟩

/-- A byte that the scan cannot take: the window or the target was never written. -/
theorem scanByte_none {T : Transceiver} {b : Byte} (h : scanByte T b = none) : T.window = none ∨ T.target = none := by
  unfold scanByte at h
  split at h
  · cases h
  · rename_i hn
    cases hw : T.window with
    | none => exact .inl rfl
    | some w =>
      cases hg : T.target with
      | none => exact .inr rfl
      | some g => exact absurd hg (hn w g hw)

/-- A byte that the capture cannot take: the accumulator or the count was never written. -/
theorem captureByte_none {T : Transceiver} {b : Byte} (h : captureByte T b = none) :
    T.acc = none ∨ T.capCount = none := by
  unfold captureByte at h
  split at h
  · split at h <;> cases h
  · rename_i hn
    cases ha : T.acc with
    | none => exact .inl rfl
    | some a =>
      cases hk : T.capCount with
      | none => exact .inr rfl
      | some k => exact absurd hk (hn a k ha)

theorem poll_fault {t : Nat} {T : Transceiver} {expired : TransactResult}
    {accept : Transceiver → Byte → Option Transceiver} {s : State} {r : Fault} :
    poll t T expired accept s ≠ .fault r := by
  obtain ⟨s', h, -⟩ := poll_cases t T expired accept s
  simp [h]

/-! ### The step -/

theorem step_cons {s : State} {m : Move} {moves : List Move} (h : s.schedule = m :: moves) :
    step s = move m { s with schedule := moves } := by
  simp [step, h]

theorem step_nil {s : State} (h : s.schedule = []) : step s = .next s := by
  simp [step, h]

@[simp] theorem move_sequencer (t : Nat) (s : State) : move (.sequencer t) s = sequencerStep t s := rfl

@[simp] theorem move_caller (ctx : Context) (s : State) : move (.caller ctx) s = callerStep ctx s := rfl

@[simp] theorem move_environment (e : EnvStep) (s : State) : move (.environment e) s = environmentStep e s := rfl

@[simp] theorem move_clock (n : Nat) (s : State) : move (.clock n) s = .next (s.advance n) := rfl

@[simp] theorem move_delay (t : Nat) (s : State) :
    move (.delay t) s = .next (s.completeHold Phase.waits t) := rfl

@[simp] theorem move_evaluate (t : Nat) (i : Instr) (s : State) : move (.evaluate t i) s = evaluateStep t i s := rfl

/-- A sequencer's move runs the micro-step its phase names. -/
theorem sequencerStep_micro {s : State} {t : Nat} {T : Transceiver} {i : Instr} (hT : s.transceiver t = some T)
    (hs : T.stopped = false) (hi : microOp s.params T = some i) :
    sequencerStep t s = exec i { s with running := some t } := by
  simp [sequencerStep, hT, hs, hi]

theorem sequencerStep_plain {s : State} {t : Nat} {T : Transceiver} (hT : s.transceiver t = some T)
    (hs : T.stopped = false) (hi : microOp s.params T = none) : sequencerStep t s = plainStep t T s := by
  simp [sequencerStep, hT, hs, hi]

/-- A fault has stopped the operation: its sequencer does nothing. -/
theorem sequencerStep_stopped {s : State} {t : Nat} {T : Transceiver} (hT : s.transceiver t = some T)
    (hs : T.stopped = true) : sequencerStep t s = .next s := by
  simp [sequencerStep, hT, hs]

theorem evaluateStep_stopped {s : State} {t : Nat} {T : Transceiver} {i : Instr} (hT : s.transceiver t = some T)
    (hs : T.stopped = true) (hi : isPure i = true) : evaluateStep t i s = .next s := by
  simp [evaluateStep, hi, State.halted, hT, hs]

/-- A completion leaves the state alone or completes the hold of `t`. -/
theorem State.completeHold_cases (holds : Phase → Bool) (t : Nat) (s : State) :
    s.completeHold holds t = s ∨
    ∃ T, s.transceiver t = some T ∧ holds T.phase = true ∧ T.hold = .started ∧
      s.completeHold holds t = s.setTransceiver t { T with hold := .completed } := by
  unfold State.completeHold
  cases hT : s.transceiver t with
  | none => exact .inl rfl
  | some T =>
    by_cases h : holds T.phase = true ∧ T.hold = .started
    · exact .inr ⟨T, rfl, h.1, h.2, by simp [h]⟩
    · exact .inl (by simp [h])

end Sys2Proof.Machine
end

