-- ==== Sys2Proof/Laws/Encoding.lean ====
section
/-! SUPPORT. Reading a piece off the front of the bytes it was written to gives it back, for every piece of the encodings. -/

namespace Sys2Proof

/-! ### Fields of words -/

theorem getLsbD_wordOf (b0 b1 b2 b3 : Byte) (i : Nat) :
    (wordOf b0 b1 b2 b3).getLsbD i =
      if i < 8 then b3.getLsbD i else if i < 16 then b2.getLsbD (i - 8) else if i < 24 then b1.getLsbD (i - 16)
      else b0.getLsbD (i - 24) := by
  show BitVec.getLsbD (w := 8 + 8 + 8 + 8) (b0 ++ b1 ++ b2 ++ b3) i = _
  simp only [BitVec.getLsbD_append]
  repeat' split
  all_goals first | omega | congr 1

theorem getLsbD_frameOf (b0 b1 b2 b3 b4 b5 b6 b7 : Byte) (i : Nat) :
    (frameOf b0 b1 b2 b3 b4 b5 b6 b7).getLsbD i =
      if i < 8 then b7.getLsbD i else if i < 16 then b6.getLsbD (i - 8) else if i < 24 then b5.getLsbD (i - 16)
      else if i < 32 then b4.getLsbD (i - 24) else if i < 40 then b3.getLsbD (i - 32)
      else if i < 48 then b2.getLsbD (i - 40) else if i < 56 then b1.getLsbD (i - 48) else b0.getLsbD (i - 56) := by
  show BitVec.getLsbD (w := 8 + 8 + 8 + 8 + 8 + 8 + 8 + 8) (b0 ++ b1 ++ b2 ++ b3 ++ b4 ++ b5 ++ b6 ++ b7) i = _
  simp only [BitVec.getLsbD_append]
  repeat' split
  all_goals first | omega | congr 1

theorem toNat_append8 {n : Nat} (x : BitVec n) (b : Byte) : (x ++ b).toNat = x.toNat * 256 + b.toNat := by
  rw [BitVec.toNat_append, ← Nat.shiftLeft_add_eq_or_of_lt b.isLt, Nat.shiftLeft_eq]

theorem toNat_wordOf (b0 b1 b2 b3 : Byte) :
    (wordOf b0 b1 b2 b3).toNat = ((b0.toNat * 256 + b1.toNat) * 256 + b2.toNat) * 256 + b3.toNat := by
  show BitVec.toNat (w := 8 + 8 + 8 + 8) (b0 ++ b1 ++ b2 ++ b3) = _
  simp only [toNat_append8]

@[simp] theorem wordOf_wordBytes (v : Word) :
    wordOf (v.extractLsb' 24 8) (v.extractLsb' 16 8) (v.extractLsb' 8 8) (v.extractLsb' 0 8) = v := by
  apply BitVec.eq_of_getLsbD_eq
  intro i hi
  have key : ∀ n, n ≤ i → i - n < 8 → (v.extractLsb' n 8).getLsbD (i - n) = v.getLsbD i := by
    intro n h1 h2
    simp only [BitVec.getLsbD_extractLsb', h2, decide_true, Bool.true_and]
    congr 1
    omega
  simp only [getLsbD_wordOf]
  repeat' split
  · exact key 0 (by omega) (by omega)
  · exact key 8 (by omega) (by omega)
  · exact key 16 (by omega) (by omega)
  · exact key 24 (by omega) (by omega)

theorem wordBytes_wordOf (b0 b1 b2 b3 : Byte) : wordBytes (wordOf b0 b1 b2 b3) = [b0, b1, b2, b3] := by
  simp only [wordBytes, List.cons.injEq, and_true]
  refine ⟨?_, ?_, ?_, ?_⟩
  all_goals
    apply BitVec.eq_of_getLsbD_eq
    intro i hi
    simp only [BitVec.getLsbD_extractLsb', getLsbD_wordOf, hi, decide_true, Bool.true_and]
    repeat' split
    all_goals first | omega | (congr 1; omega)

theorem frameBytes_frameOf (b0 b1 b2 b3 b4 b5 b6 b7 : Byte) :
    frameBytes (frameOf b0 b1 b2 b3 b4 b5 b6 b7) = [b0, b1, b2, b3, b4, b5, b6, b7] := by
  simp only [frameBytes, frameByte, List.cons.injEq, and_true]
  refine ⟨?_, ?_, ?_, ?_, ?_, ?_, ?_, ?_⟩
  all_goals
    apply BitVec.eq_of_getLsbD_eq
    intro i hi
    simp only [BitVec.getLsbD_extractLsb', getLsbD_frameOf, hi, decide_true, Bool.true_and]
    repeat' split
    all_goals first | omega | (congr 1; omega)

theorem frameOf_frameByte (f : BitVec 64) :
    frameOf (frameByte f 0) (frameByte f 1) (frameByte f 2) (frameByte f 3) (frameByte f 4) (frameByte f 5)
      (frameByte f 6) (frameByte f 7) = f := by
  apply BitVec.eq_of_getLsbD_eq
  intro i hi
  have key : ∀ k n, n ≤ i → i - n < 8 → n = 56 - 8 * k → (frameByte f k).getLsbD (i - n) = f.getLsbD i := by
    intro k n h1 h2 h3
    simp only [frameByte, BitVec.getLsbD_extractLsb', h2, decide_true, Bool.true_and]
    congr 1
    omega
  simp only [getLsbD_frameOf]
  repeat' split
  · exact key 7 0 (by omega) (by omega) (by omega)
  · exact key 6 8 (by omega) (by omega) (by omega)
  · exact key 5 16 (by omega) (by omega) (by omega)
  · exact key 4 24 (by omega) (by omega) (by omega)
  · exact key 3 32 (by omega) (by omega) (by omega)
  · exact key 2 40 (by omega) (by omega) (by omega)
  · exact key 1 48 (by omega) (by omega) (by omega)
  · exact key 0 56 (by omega) (by omega) (by omega)

@[simp] theorem regField_regByte (flag : Bool) (reg : BitVec 7) : regField (regByte flag reg) = reg := by
  revert flag reg
  decide

@[simp] theorem regFlag_regByte (flag : Bool) (reg : BitVec 7) : regFlag (regByte flag reg) = flag := by
  revert flag reg
  decide

theorem regByte_regField (b : Byte) : regByte (regFlag b) (regField b) = b := by
  revert b
  decide

/-! ### Numbers -/

theorem takeNat_natDigits (fuel n : Nat) (h : n < 128 ^ (fuel + 1)) (rest : List Byte) :
    takeNat (natDigits fuel n ++ rest) = .ok (n, rest) := by
  induction fuel generalizing n with
  | zero =>
    have hn : n % 256 = n := Nat.mod_eq_of_lt (by omega)
    have hlt : n < 128 := by simpa using h
    simp [natDigits, takeNat, hn, hlt]
  | succ fuel ih =>
    simp only [natDigits]
    split
    · rename_i hlt
      have hn : n % 256 = n := Nat.mod_eq_of_lt (by omega)
      simp [takeNat, hn, hlt]
    · rename_i hlt
      have hdiv : n / 128 < 128 ^ (fuel + 1) := by
        rw [Nat.div_lt_iff_lt_mul (by decide)]
        rw [Nat.pow_succ] at h
        exact h
      have hb : (n % 128 + 128) % 256 = n % 128 + 128 := Nat.mod_eq_of_lt (by omega)
      have hge : ¬ n % 128 + 128 < 128 := by omega
      simp only [List.cons_append, takeNat, BitVec.toNat_ofNat]
      rw [show (2 : Nat) ^ 8 = 256 from rfl, hb, if_neg hge, ih _ hdiv]
      obtain ⟨m, hm⟩ : ∃ m, n / 128 = m + 1 := ⟨n / 128 - 1, by omega⟩
      simp only [hm]
      congr 2
      omega

@[simp] theorem takeNat_natBytes (n : Nat) (rest : List Byte) : takeNat (natBytes n ++ rest) = .ok (n, rest) := by
  apply takeNat_natDigits
  calc n < 128 ^ n := Nat.lt_pow_self (by decide)
    _ ≤ 128 ^ (n + 1) := Nat.pow_le_pow_right (by decide) (by omega)

@[simp] theorem takeNat_natBytes_nil (n : Nat) : takeNat (natBytes n) = .ok (n, []) := by
  simpa using takeNat_natBytes n []

theorem natDigits_fuel (f g n : Nat) (hf : n < 128 ^ (f + 1)) (hg : n < 128 ^ (g + 1)) :
    natDigits f n = natDigits g n := by
  induction f generalizing g n with
  | zero =>
    have hn : n < 128 := by simpa using hf
    cases g <;> simp [natDigits, hn]
  | succ f ih =>
    cases g with
    | zero =>
      have hn : n < 128 := by simpa using hg
      simp [natDigits, hn]
    | succ g =>
      simp only [natDigits]
      split
      · rfl
      · congr 1
        apply ih
        · rw [Nat.div_lt_iff_lt_mul (by decide)]
          rw [Nat.pow_succ] at hf
          exact hf
        · rw [Nat.div_lt_iff_lt_mul (by decide)]
          rw [Nat.pow_succ] at hg
          exact hg

/-- `natBytes` one digit at a time. -/
theorem natBytes_step (n : Nat) (h : 128 ≤ n) :
    natBytes n = BitVec.ofNat 8 (n % 128 + 128) :: natBytes (n / 128) := by
  have lt_pow : ∀ m : Nat, m < 128 ^ (m + 1) := fun m =>
    calc m < 128 ^ m := Nat.lt_pow_self (by decide)
      _ ≤ 128 ^ (m + 1) := Nat.pow_le_pow_right (by decide) (by omega)
  obtain ⟨f, rfl⟩ : ∃ f, n = f + 1 := ⟨n - 1, by omega⟩
  have hn : ¬ f + 1 < 128 := by omega
  unfold natBytes
  rw [natDigits, if_neg hn]
  congr 1
  apply natDigits_fuel
  · have := lt_pow f
    have h2 : (f + 1) / 128 ≤ f := by omega
    omega
  · exact lt_pow _

theorem natBytes_small (n : Nat) (h : n < 128) : natBytes n = [BitVec.ofNat 8 n] := by
  unfold natBytes
  cases n <;> simp [natDigits, h]

/-- What `takeNat` reads is what `natBytes` writes. -/
theorem takeNat_ok {bs rest : List Byte} {n : Nat} (h : takeNat bs = .ok (n, rest)) : bs = natBytes n ++ rest := by
  induction bs generalizing n with
  | nil => simp [takeNat] at h
  | cons b bs ih =>
    simp only [takeNat] at h
    split at h
    · rename_i hb
      simp only [Except.ok.injEq, Prod.mk.injEq] at h
      obtain ⟨rfl, rfl⟩ := h
      rw [natBytes_small _ hb]
      simp
    · rename_i hb
      cases hn : takeNat bs with
      | error e => simp [hn] at h
      | ok p =>
        obtain ⟨m, r⟩ := p
        cases m with
        | zero => simp [hn] at h
        | succ m =>
          simp only [hn, Except.ok.injEq, Prod.mk.injEq] at h
          obtain ⟨rfl, rfl⟩ := h
          have hlt : b.toNat < 256 := b.isLt
          rw [ih hn, natBytes_step (b.toNat - 128 + 128 * (m + 1)) (by omega)]
          have h1 : (b.toNat - 128 + 128 * (m + 1)) % 128 + 128 = b.toNat := by omega
          have h2 : (b.toNat - 128 + 128 * (m + 1)) / 128 = m + 1 := by omega
          rw [h1, h2]
          simp

/-! ### Other pieces -/

@[simp] theorem takeN_append (l rest : List Byte) : takeN l.length (l ++ rest) = .ok (l, rest) := by
  induction l with
  | nil => simp [takeN]
  | cons b l ih => simp [takeN, ih]

theorem takeN_ok {n : Nat} {bs l rest : List Byte} (h : takeN n bs = .ok (l, rest)) :
    l.length = n ∧ bs = l ++ rest := by
  induction n generalizing bs l with
  | zero =>
    simp only [takeN, Except.ok.injEq, Prod.mk.injEq] at h
    obtain ⟨rfl, rfl⟩ := h
    simp
  | succ n ih =>
    cases bs with
    | nil => simp [takeN] at h
    | cons b bs =>
      simp only [takeN] at h
      cases hn : takeN n bs with
      | error e => simp [hn] at h
      | ok p =>
        obtain ⟨m, r⟩ := p
        simp only [hn, Except.ok.injEq, Prod.mk.injEq] at h
        obtain ⟨rfl, rfl⟩ := h
        obtain ⟨h1, h2⟩ := ih hn
        simp [h1, h2]

@[simp] theorem takeList_listBytes (l rest : List Byte) : takeList (listBytes l ++ rest) = .ok (l, rest) := by
  simp [takeList, listBytes, bind, Except.bind]

@[simp] theorem takeList_listBytes_nil (l : List Byte) : takeList (listBytes l) = .ok (l, []) := by
  simpa using takeList_listBytes l []

@[simp] theorem takePin_pinBytes (p : Option Nat) (rest : List Byte) : takePin (pinBytes p ++ rest) = .ok (p, rest) := by
  cases p <;> simp [takePin, pinBytes, bind, Except.bind, pure, Except.pure]

@[simp] theorem takePin_pinBytes_nil (p : Option Nat) : takePin (pinBytes p) = .ok (p, []) := by
  simpa using takePin_pinBytes p []

@[simp] theorem takeWord_wordBytes (v : Word) (rest : List Byte) : takeWord (wordBytes v ++ rest) = .ok (v, rest) := by
  simp [takeWord, wordBytes]

@[simp] theorem takeWord_wordBytes_nil (v : Word) : takeWord (wordBytes v) = .ok (v, []) := by
  simpa using takeWord_wordBytes v []

@[simp] theorem takeFrame_frameBytes (f : BitVec 64) (rest : List Byte) :
    takeFrame (frameBytes f ++ rest) = .ok (f, rest) := by
  simp [takeFrame, frameBytes, frameOf_frameByte]

@[simp] theorem takeFrame_frameBytes_nil (f : BitVec 64) : takeFrame (frameBytes f) = .ok (f, []) := by
  simpa using takeFrame_frameBytes f []

@[simp] theorem takeDir_dirByte (d : Dir) (rest : List Byte) : takeDir (dirByte d :: rest) = .ok (d, rest) := by
  cases d <;> simp [takeDir, dirByte, takeByte, bind, Except.bind, pure, Except.pure]

/-! ### What a piece reads is what its encoder writes -/

/-- A parser that runs on succeeds in its first part. -/
theorem parse_bind_ok {α β : Type} {x : Except Reject α} {f : α → Except Reject β} {b : β}
    (h : (x >>= f) = .ok b) : ∃ a, x = .ok a ∧ f a = .ok b := by
  cases x with
  | error e => cases h
  | ok a => exact ⟨a, rfl, h⟩

theorem takeByte_ok {bs rest : List Byte} {b : Byte} (h : takeByte bs = .ok (b, rest)) : bs = b :: rest := by
  cases bs <;> cases h
  rfl

theorem takePin_ok {bs rest : List Byte} {p : Option Nat} (h : takePin bs = .ok (p, rest)) :
    bs = pinBytes p ++ rest := by
  obtain ⟨⟨n, r⟩, hn, h⟩ := parse_bind_ok h
  cases n <;> cases h <;> exact takeNat_ok hn

theorem takeList_ok {bs rest l : List Byte} (h : takeList bs = .ok (l, rest)) : bs = listBytes l ++ rest := by
  obtain ⟨⟨n, r⟩, hn, h⟩ := parse_bind_ok h
  obtain ⟨rfl, rfl⟩ := takeN_ok h
  rw [takeNat_ok hn, listBytes, List.append_assoc]

theorem takeWord_ok {bs rest : List Byte} {v : Word} (h : takeWord bs = .ok (v, rest)) :
    bs = wordBytes v ++ rest := by
  unfold takeWord at h
  split at h <;> cases h
  simp [wordBytes_wordOf]

theorem takeFrame_ok {bs rest : List Byte} {f : BitVec 64} (h : takeFrame bs = .ok (f, rest)) :
    bs = frameBytes f ++ rest := by
  unfold takeFrame at h
  split at h <;> cases h
  simp [frameBytes_frameOf]

theorem takeDir_ok {bs rest : List Byte} {d : Dir} (h : takeDir bs = .ok (d, rest)) : bs = dirByte d :: rest := by
  obtain ⟨⟨b, r⟩, hb, h⟩ := parse_bind_ok h
  rw [takeByte_ok hb]
  dsimp only at h
  split at h
  · rename_i h0
    cases h
    rw [h0]
    rfl
  · split at h
    · rename_i h1
      cases h
      rw [h1]
      rfl
    · cases h

/-- An operation word decodes to an operation. -/
theorem format_of_decode {bs rest : List Byte} {i : Instr} (h : decode .operation bs = .ok (i, rest)) :
    i.format = .operation := by
  obtain ⟨⟨op, bs⟩, -, h⟩ := parse_bind_ok h
  change decodeOperands op bs = _ at h
  unfold decodeOperands at h
  split at h
  case h_19 => cases h
  all_goals
    repeat
      obtain ⟨⟨a, b⟩, -, h⟩ := parse_bind_ok h
    cases h
    rfl

end Sys2Proof
end

