-- ==== Sys2Proof/Laws/Inversion.lean ====
section
/-! SUPPORT. Everything a step can do, said once: what a sequencer's move, a caller's issue and the other agents' moves make of
the state, with the guards under which they do it. -/

namespace Sys2Proof.Machine

/-! ### The sequencer -/

/-- What one move of the sequencer of `t`, whose record is `T`, can make of the state. -/
inductive Moved (s : State) (t : Nat) (T : Transceiver) : State → Prop where
  /-- Idle, held on a write or a wait, or stopped by a fault. -/
  | stay (h : T.phase = .idle ∨ T.hold = .started ∨ T.stopped = true) : Moved s t T s
  /-- A register that nothing has written is read. -/
  | unwritten (h : T.readsUnwritten s) : Moved s t T (s.stopOperation t T .unwritten)
  /-- A write or a wait is asked for. -/
  | asked (hp : T.phase.sends = true ∨ T.phase.waits = true) (hh : T.hold = .free) :
    Moved s t T (s.setTransceiver t { T with hold := .started })
  /-- A turn of a flush that finds a byte. -/
  | discarded (b : Byte) (rest : List Byte) (hp : T.phase = .preFlush ∨ T.phase = .postFlush)
      (hx : (s.uart T.uart).rx = b :: rest) :
    Moved s t T ((s.setRx T.uart rest).setTransceiver t { T with flushed := T.flushed + 1 })
  /-- The end of PreFlush. -/
  | flushed (hp : T.phase = .preFlush) (hx : (s.uart T.uart).rx = []) :
    Moved s t T ((s.emit (.flushed T.flushed)).setTransceiver t { T with phase := .dirTx })
  /-- The end of a TRANSACT issued directly. -/
  | returned (dg : List Byte) (n : Nat) (r : TransactResult) (hp : T.phase = .postFlush)
      (hx : (s.uart T.uart).rx = []) (hj : T.job = .direct dg n) (hr : T.result = some r) :
    Moved s t T ((s.emit (.flushed T.flushed)).endOperation t T (.transact r))
  /-- The end of READ's transaction with a frame. -/
  | framed (f : BitVec 64) (k : Nat) (hp : T.phase = .postFlush) (hx : (s.uart T.uart).rx = []) (hj : T.job = .read)
      (hr : T.result = some (.frame f)) (hk : T.attempt = some k) :
    Moved s t T ((s.emit (.flushed T.flushed)).setTransceiver t { T with attempt := some (k + 1), phase := .validate })
  /-- The end of READ's transaction without a frame. -/
  | lost (r : TransactResult) (k : Nat) (hp : T.phase = .postFlush) (hx : (s.uart T.uart).rx = []) (hj : T.job = .read)
      (hr : T.result = some r) (hf : ∀ f, r ≠ .frame f) (hk : T.attempt = some k) :
    Moved s t T ((s.emit (.flushed T.flushed)).failAttempt t { T with attempt := some (k + 1) } k r.kind)
  /-- SET_DIR but at the end of a WRITE. -/
  | directed (d : Dir) (next : Phase)
      (hp : T.phase = .dirTx ∧ d = .transmit ∧ next = .tx 0 ∨ T.phase = .dirRx ∧ d = .receive ∧ next = .replyWait ∨
        T.phase = .wDirTx ∧ d = .transmit ∧ next = .wTx 0) :
    Moved s t T ((s.setDirection T.bus d).setTransceiver t { T with phase := next })
  /-- SET_DIR at the end of a WRITE with Release. -/
  | released (hp : T.phase = .wEnd) (he : s.params.writeEnd = .release) (hh : T.hold = .passed) :
    Moved s t T ((s.setDirection T.bus .receive).endOperation t T .written)
  /-- The end of a WRITE with Hold. -/
  | ended (hp : T.phase = .wEnd) (he : s.params.writeEnd = .hold) : Moved s t T (s.endOperation t T .written)
  /-- A byte whose write is complete. -/
  | sent (i : Nat) (dg : List Byte) (b : Byte) (hp : T.phase = .tx i ∨ T.phase = .wTx i) (hh : T.hold = .completed)
      (hd : T.datagram = some dg) (hb : dg[i]? = some b) :
    Moved s t T (((s.logTx T.uart b).emit (.tx b)).setTransceiver t
      { T with hold := .free, phase := T.phase.afterByte i dg.length })
  /-- A wait that is complete, but at the end of a WRITE. -/
  | waited (us : Nat) (next : Phase)
      (hp : T.phase = .turnaround ∧ next = .dirRx ∨ T.phase = .replyWait ∧ next = .scanEnter ∨
        T.phase = .wReplyWait ∧ next = .wEnd) (hh : T.hold = .completed) :
    Moved s t T ((s.emit (.waited us)).setTransceiver t { T with hold := .free, phase := next })
  /-- The wait at the end of a WRITE with Release. -/
  | passed (us : Nat) (hp : T.phase = .wEnd) (he : s.params.writeEnd = .release) (hh : T.hold = .completed) :
    Moved s t T ((s.emit (.waited us)).setTransceiver t { T with hold := .passed })
  /-- SCAN_ENTER. -/
  | scanEntered (b0 b2 : Byte) (n : Nat) (hp : T.phase = .scanEnter) (h0 : T.byteAt 0 = some b0)
      (h2 : T.byteAt 2 = some b2) (hn : T.scanBudget s.params = some n) :
    Moved s t T (s.setTransceiver t
      { T with
        target := some (targetOf b0 b2), window := some 0#24, budget := some n, lastMs := some s.clk, phase := .scan })
  /-- CAPTURE_ENTER. -/
  | captureEntered (w : BitVec 24) (hp : T.phase = .captureEnter) (hw : T.window = some w) :
    Moved s t T (s.setTransceiver t
      { T with
        acc := some (w.setWidth 64), capCount := some 0, budget := some s.params.abortWindow, phase := .capture })
  /-- A poll whose budget has run out. -/
  | expired (r : TransactResult) (T' : Transceiver) (ticked : Bool)
      (hp : T.phase = .scan ∧ r = .noReply ∨ T.phase = .capture ∧ r = .incompleteFrame)
      (hk : T.tick s.clk = some (T', ticked)) (h0 : T'.budget = some 0) :
    Moved s t T ((if ticked then s.emit .tick else s).setTransceiver t
      { T' with result := some r, phase := .postFlush, flushed := 0 })
  /-- A poll that finds no byte. -/
  | empty (T' : Transceiver) (ticked : Bool) (hp : T.phase = .scan ∨ T.phase = .capture)
      (hk : T.tick s.clk = some (T', ticked)) (h0 : T'.budget ≠ some 0) (hx : (s.uart T.uart).rx = []) :
    Moved s t T ((if ticked then s.emit .tick else s).setTransceiver t T')
  /-- A poll that reads a byte. -/
  | received (b : Byte) (rest : List Byte) (T' T'' : Transceiver) (ticked : Bool)
      (hp : T.phase = .scan ∧ scanByte T' b = some T'' ∨ T.phase = .capture ∧ captureByte T' b = some T'')
      (hk : T.tick s.clk = some (T', ticked)) (h0 : T'.budget ≠ some 0) (hx : (s.uart T.uart).rx = b :: rest) :
    Moved s t T ((((if ticked then s.emit .tick else s).setRx T.uart rest).emit (.rx b)).setTransceiver t T'')
  /-- VALIDATE accepts READ's frame. -/
  | accepted (f : BitVec 64) (k : Nat) (value : Word) (hp : T.phase = .validate) (hr : T.result = some (.frame f))
      (hk : T.attempt = some (k + 1)) (hv : verdictOf s.params.crc f = .accept value) :
    Moved s t T ((s.emit (.attempt k .ok)).endOperation t (T.setReadFailed false) (.read value true))
  /-- VALIDATE rejects READ's frame. -/
  | rejected (f : BitVec 64) (k : Nat) (kind : ErrorKind) (hp : T.phase = .validate) (hr : T.result = some (.frame f))
      (hk : T.attempt = some (k + 1)) (hv : verdictOf s.params.crc f = .reject kind) :
    Moved s t T (s.failAttempt t T k kind)

/-- A tick that leaves a budget other than 0: the poll goes on. -/
theorem Transceiver.pollsOn_of_tick {T T' : Transceiver} {now : Word} {ticked : Bool}
    (h : T.tick now = some (T', ticked)) (h0 : T'.budget ≠ some 0) : T.pollsOn now := by
  unfold Transceiver.tick at h
  split at h
  · rename_i n l hb hl
    split at h <;> cases h
    · rename_i hc
      exact ⟨n, l, hb, hl, by simpa [hc] using h0⟩
    · rename_i hc
      have hc := not_not.mp hc
      exact ⟨n, l, hb, hl, by simpa [hc, hb] using h0⟩
  · cases h

theorem execWait_moved {s s' : State} {t : Nat} {T : Transceiver} {us : Nat}
    (run : ∀ f, onSequencer (.wait us) s f = f t T) (hw : T.phase.waits = true)
    (he : T.phase = .wEnd → s.params.writeEnd = .release) (h : execWait us s = .next s') : Moved s t T s' := by
  simp only [execWait, run] at h
  split at h
  · rename_i hh
    cases h
    exact .asked (.inr hw) hh
  · rename_i hh
    cases h
    exact .stay (.inr (.inl hh))
  · rename_i hh
    split at h <;> rename_i hp <;> cases h
    · exact .waited _ _ (.inl ⟨hp, rfl⟩) hh
    · exact .waited _ _ (.inr (.inl ⟨hp, rfl⟩)) hh
    · exact .waited _ _ (.inr (.inr ⟨hp, rfl⟩)) hh
    · exact .passed _ hp (he hp) hh
  · cases h

/-- A micro-step on the running transceiver that answers a next state is one of these moves. -/
theorem exec_moved {s s' : State} {t : Nat} {T : Transceiver} {i : Instr} (hr : s.running = some t)
    (hT : s.transceiver t = some T) (hi : microOp s.params T = some i) (h : exec i s = .next s') : Moved s t T s' := by
  have run : ∀ f, onSequencer i s f = f t T := fun f => onSequencer_run hr hT hi
  unfold microOp at hi
  split at hi <;> rename_i hp
  · cases hi
  · cases hi
    simp only [exec, execFlush, run] at h
    split at h
    · rename_i b rest hx
      cases h
      exact .discarded b rest (.inl hp) hx
    · rename_i hx
      simp only [hp] at h
      cases h
      exact .flushed hp hx
  · cases hi
    simp only [exec, execSetDir, run, hp] at h
    cases h
    exact .directed _ _ (.inl ⟨hp, rfl, rfl⟩)
  · rename_i n
    cases hi
    simp only [exec, execTxByte, run] at h
    split at h
    · rename_i hh _
      cases h
      exact .asked (by simp [hp, Phase.sends]) hh
    · rename_i hh
      cases h
      exact .stay (.inr (.inl hh))
    · rename_i dg b hh hd hb
      cases h
      simp only [Transceiver.byteAt, hd] at hb
      exact .sent n dg b (.inl hp) hh hd hb
    · cases h
    · obtain ⟨hj, hq, rfl⟩ := State.noDatagram_next h
      exact .unwritten (by simp only [Transceiver.readsUnwritten, hp]; exact ⟨hj, hq, by cases hh : T.hold <;> simp_all⟩)
  · cases hi
    exact execWait_moved run (by simp [hp, Phase.waits]) (by simp [hp]) h
  · cases hi
    simp only [exec, execSetDir, run, hp] at h
    cases h
    exact .directed _ _ (.inr (.inl ⟨hp, rfl, rfl⟩))
  · cases hi
    exact execWait_moved run (by simp [hp, Phase.waits]) (by simp [hp]) h
  · cases hi
    simp only [exec, execScanEnter, run] at h
    split at h
    · rename_i b0 b2 n h0 h2 hn
      cases h
      exact .scanEntered b0 b2 n hp h0 h2 hn
    · obtain ⟨hj, hq, rfl⟩ := State.noDatagram_next h
      exact .unwritten (by simp only [Transceiver.readsUnwritten, hp]; exact ⟨hj, hq⟩)
  · cases hi
    simp only [exec, execScanPoll, run] at h
    obtain ⟨s1, h1, ⟨T', ticked, hk, ⟨h0, rfl⟩ | ⟨h0, hx, rfl⟩ | ⟨h0, b, rest, T'', hx, hb, rfl⟩⟩ | ⟨hn, rfl⟩⟩ :=
      poll_cases t T .noReply scanByte s <;> rw [h1] at h <;> cases h
    · exact .expired _ T' ticked (.inl ⟨hp, rfl⟩) hk h0
    · exact .empty T' ticked (.inl hp) hk h0 hx
    · exact .received b rest T' T'' ticked (.inl ⟨hp, hb⟩) hk h0 hx
    · refine .unwritten ?_
      simp only [Transceiver.readsUnwritten, hp]
      obtain hn | ⟨T', ticked, b, hk, h0, hx, hb⟩ := hn
      · exact (Transceiver.tick_none hn).imp_right .inl
      · obtain ⟨h1, h2, -⟩ := Transceiver.tick_registers hk
        rw [← h1, ← h2]
        exact .inr (.inr ⟨scanByte_none hb, Transceiver.pollsOn_of_tick hk h0, hx⟩)
  · cases hi
    simp only [exec, execCaptureEnter, run] at h
    split at h
    · rename_i w hw
      cases h
      exact .captureEntered w hp hw
    · rename_i hw
      cases h
      exact .unwritten (by simpa only [Transceiver.readsUnwritten, hp] using hw)
  · cases hi
    simp only [exec, execCapturePoll, run] at h
    obtain ⟨s1, h1, ⟨T', ticked, hk, ⟨h0, rfl⟩ | ⟨h0, hx, rfl⟩ | ⟨h0, b, rest, T'', hx, hb, rfl⟩⟩ | ⟨hn, rfl⟩⟩ :=
      poll_cases t T .incompleteFrame captureByte s <;> rw [h1] at h <;> cases h
    · exact .expired _ T' ticked (.inr ⟨hp, rfl⟩) hk h0
    · exact .empty T' ticked (.inr hp) hk h0 hx
    · exact .received b rest T' T'' ticked (.inr ⟨hp, hb⟩) hk h0 hx
    · refine .unwritten ?_
      simp only [Transceiver.readsUnwritten, hp]
      obtain hn | ⟨T', ticked, b, hk, h0, hx, hb⟩ := hn
      · exact (Transceiver.tick_none hn).imp_right .inl
      · obtain ⟨-, -, h1, h2⟩ := Transceiver.tick_registers hk
        rw [← h1, ← h2]
        exact .inr (.inr ⟨captureByte_none hb, Transceiver.pollsOn_of_tick hk h0, hx⟩)
  · cases hi
    simp only [exec, execFlush, run] at h
    split at h
    · rename_i b rest hx
      cases h
      exact .discarded b rest (.inr hp) hx
    · rename_i hx
      simp only [hp] at h
      obtain ⟨dg, n, r, hj, hres, rfl⟩ | ⟨f, k, hj, hres, hk, rfl⟩ | ⟨r, k, hj, hres, hf, hk, rfl⟩ | ⟨hu, rfl⟩ :=
        State.afterTransact_next h
      · exact .returned dg n r hp hx hj hres
      · exact .framed f k hp hx hj hres hk
      · exact .lost r k hp hx hj hres hf hk
      · exact .unwritten (by simp only [Transceiver.readsUnwritten, hp]; exact ⟨hx, hu⟩)
  · split at hi
    · rename_i f hf
      cases hi
      simp only [exec, execValidate, hr, run, State.judge] at h
      split at h
      · rename_i k value hk hv
        cases h
        exact .accepted f k value hp hf hk hv
      · rename_i k kind hk hv
        cases h
        exact .rejected f k kind hp hf hk hv
      · rename_i hk
        cases h
        exact .unwritten (by simp only [Transceiver.readsUnwritten, hp]; exact .inr ⟨⟨f, hf⟩, hk⟩)
      · cases h
    · cases hi
  · cases hi
    simp only [exec, execSetDir, run, hp] at h
    cases h
    exact .directed _ _ (.inr (.inr ⟨hp, rfl, rfl⟩))
  · rename_i n
    cases hi
    simp only [exec, execTxByte, run] at h
    split at h
    · rename_i hh _
      cases h
      exact .asked (by simp [hp, Phase.sends]) hh
    · rename_i hh
      cases h
      exact .stay (.inr (.inl hh))
    · rename_i dg b hh hd hb
      cases h
      simp only [Transceiver.byteAt, hd] at hb
      exact .sent n dg b (.inr hp) hh hd hb
    · cases h
    · obtain ⟨hj, hq, rfl⟩ := State.noDatagram_next h
      exact .unwritten (by simp only [Transceiver.readsUnwritten, hp]; exact ⟨hj, hq, by cases hh : T.hold <;> simp_all⟩)
  · cases hi
    exact execWait_moved run (by simp [hp, Phase.waits]) (by simp [hp]) h
  · split at hi
    · cases hi
    · rename_i he
      split at hi
      · rename_i hh
        cases hi
        simp only [exec, execSetDir, run, hp] at h
        cases h
        exact .released hp he hh
      · cases hi
        exact execWait_moved run (by simp [hp, Phase.waits]) (fun _ => he) h

/-- A sequencer's move finds no transceiver and does nothing, or is one of these moves. -/
theorem sequencerStep_next {s s' : State} {t : Nat} (h : sequencerStep t s = .next s') :
    (s.transceiver t = none ∧ s' = s) ∨
    ∃ T r, s.transceiver t = some T ∧ Moved { s with running := r } t T s' := by
  cases hT : s.transceiver t with
  | none =>
    simp only [sequencerStep, hT] at h
    cases h
    exact .inl ⟨rfl, rfl⟩
  | some T =>
    refine .inr ⟨T, ?_⟩
    cases hs : T.stopped with
    | true =>
      rw [sequencerStep_stopped hT hs] at h
      cases h
      exact ⟨s.running, rfl, .stay (.inr (.inr hs))⟩
    | false =>
      cases hi : microOp s.params T with
      | some i =>
        rw [sequencerStep_micro hT hs hi] at h
        exact ⟨some t, rfl, exec_moved rfl hT hi h⟩
      | none =>
        rw [sequencerStep_plain hT hs hi] at h
        refine ⟨s.running, rfl, ?_⟩
        unfold plainStep at h
        split at h <;> rename_i hp
        · cases h
          exact .stay (.inl hp)
        · cases h
          refine .ended hp ?_
          simp only [microOp, hp] at hi
          split at hi
          · assumption
          · split at hi <;> cases hi
        · split at h
          · rename_i hr
            cases h
            exact .unwritten (by simp only [Transceiver.readsUnwritten, hp]; exact .inl hr)
          · cases h
        · cases h

/-! ### The caller -/

/-- What the issue of an operation word can make of the state. -/
inductive Issued (s : State) : Instr → State → Prop where
  /-- A precondition fails. -/
  | raised (i : Instr) (f : OpFault) (hf : f ≠ .unwritten) : Issued s i (s.raise f)
  /-- BUS_INIT. -/
  | init (b : Nat) (pin : Option Nat) : Issued s (.busInit b pin) (s.initBus b pin)
  /-- CONSTRUCT. -/
  | constructed (t uart rsense : Nat) (addr : Byte) (b : Nat) (pin : Option Nat) (hi : s.idle t = true)
      (hb : (s.uart uart).baud ≠ 0#32) :
    Issued s (.construct t uart rsense addr b pin)
      ((s.initBus b pin).setTransceiver t (Transceiver.fresh (s.uart uart).baud uart rsense addr b))
  /-- READ. -/
  | reads (t : Nat) (regAddr : Byte) (T : Transceiver) (hT : s.transceiver t = some T) (hp : T.phase = .idle)
      (hv : paramsValid s.params = true) (hb : (s.bus T.bus).busy = false) :
    Issued s (.read t regAddr)
      (s.startOperation t
        { T with
          req := some (readDatagram s.params.crc T.cfg.slaveAddr regAddr), attempt := some 0, job := .read,
          phase := .preFlush })
  /-- WRITE. -/
  | writes (t : Nat) (regAddr : Byte) (value : Word) (T : Transceiver) (hT : s.transceiver t = some T)
      (hp : T.phase = .idle) (hv : paramsValid s.params = true) (hb : (s.bus T.bus).busy = false) :
    Issued s (.write t regAddr value)
      (s.startOperation t
        { T with job := .write (writeDatagram s.params.crc T.cfg.slaveAddr regAddr value), phase := .wDirTx })
  /-- TRANSACT. -/
  | transacts (t : Nat) (dg : List Byte) (payloadLen scanTimeout : Nat) (T : Transceiver)
      (hT : s.transceiver t = some T) (hp : T.phase = .idle) (hv : paramsValid s.params = true)
      (hb : (s.bus T.bus).busy = false) (hl : 3 ≤ dg.length) (hn : 1 ≤ scanTimeout) :
    Issued s (.transact t dg payloadLen scanTimeout)
      (s.startOperation t { T with job := .direct dg scanTimeout, phase := .preFlush })
  /-- VALIDATE issued directly. -/
  | answered (f : BitVec 64) : Issued s (.validate f) (s.setAnswer (.verdict (verdictOf s.params.crc f)))

theorem exec_issued {s s' : State} {i : Instr} (hr : s.running = none) (hf : i.format = .operation)
    (h : exec i s = .next s') : Issued s i s' := by
  have refused : ∀ j f, onSequencer j s f ≠ .next s' := fun j f => by simp [onSequencer_caller hr]
  have pure : ∀ b v, evaluated b v s ≠ .next s' := fun b v => by simp [evaluated_caller hr]
  have named : ∀ {checks : List (Bool × OpFault)} {f : OpFault}, firstFault checks = some f →
      (checks.map Prod.snd).contains .unwritten = false → f ≠ .unwritten := by
    rintro checks _ hf hn rfl
    simp [firstFault_mem hf] at hn
  cases i with
  | busInit b pin =>
    obtain ⟨f, hf, rfl⟩ | ⟨-, h⟩ := guarded_next h
    · exact .raised _ f (named hf rfl)
    · cases h
      exact .init b pin
  | construct t uart rsense addr b pin =>
    obtain ⟨f, hf, rfl⟩ | ⟨hc, h⟩ := guarded_next h
    · exact .raised _ f (named hf rfl)
    · cases h
      have hc := firstFault_eq_none.mp hc
      simp [State.constructChecks, State.requestChecks] at hc
      exact .constructed t uart rsense addr b pin hc.2.2.1 hc.2.2.2
  | read t regAddr =>
    obtain ⟨f, hf, rfl⟩ | ⟨hc, h⟩ := guarded_next h
    · exact .raised _ f (named hf rfl)
    · obtain ⟨T, hT, h⟩ | ⟨-, rfl⟩ := withTransceiver_next h
      · cases h
        have hc := firstFault_eq_none.mp hc
        simp [State.registerChecks, State.requestChecks, State.ownerChecks, hT, idle_of_some hT,
          contended_of_some hT] at hc
        exact .reads t regAddr T hT hc.2.2.1 hc.2.1 hc.2.2.2.2
      · exact .raised _ _ (by decide)
  | write t regAddr value =>
    obtain ⟨f, hf, rfl⟩ | ⟨hc, h⟩ := guarded_next h
    · exact .raised _ f (named hf rfl)
    · obtain ⟨T, hT, h⟩ | ⟨-, rfl⟩ := withTransceiver_next h
      · cases h
        have hc := firstFault_eq_none.mp hc
        simp [State.registerChecks, State.requestChecks, State.ownerChecks, hT, idle_of_some hT,
          contended_of_some hT] at hc
        exact .writes t regAddr value T hT hc.2.2.1 hc.2.1 hc.2.2.2.2
      · exact .raised _ _ (by decide)
  | transact t dg payloadLen scanTimeout =>
    obtain ⟨f, hf, rfl⟩ | ⟨hc, h⟩ := guarded_next h
    · exact .raised _ f (named hf rfl)
    · obtain ⟨T, hT, h⟩ | ⟨-, rfl⟩ := withTransceiver_next h
      · cases h
        have hc := firstFault_eq_none.mp hc
        simp [State.transactChecks, State.requestChecks, State.ownerChecks, hT, idle_of_some hT,
          contended_of_some hT, admitsLength] at hc
        obtain ⟨-, hv, hn, hp, ⟨hl, h2⟩, hb⟩ := hc
        exact .transacts t dg payloadLen scanTimeout T hT hp hv hb (by omega) (by omega)
      · exact .raised _ _ (by decide)
  | validate f =>
    simp only [exec, execValidate, hr] at h
    obtain ⟨f, hf, rfl⟩ | ⟨-, h⟩ := guarded_next h
    · exact .raised _ f (named hf rfl)
    · cases h
      exact .answered _
  | setDir d => exact absurd h (refused _ _)
  | flush => exact absurd h (refused _ _)
  | txByte n => exact absurd h (refused _ _)
  | wait us => exact absurd h (refused _ _)
  | scanEnter => exact absurd h (refused _ _)
  | scanPoll => exact absurd h (refused _ _)
  | captureEnter => exact absurd h (refused _ _)
  | capturePoll => exact absurd h (refused _ _)
  | buildReadReq addr regAddr => exact absurd h (pure _ _)
  | buildWrite addr regAddr value => exact absurd h (pure _ _)
  | crc8 bs => exact absurd h (pure true (.checksum (crc8 s.params.crc bs)))
  | turnaround baud => exact absurd h (pure _ _)
  | writeFrame => cases hf
  | readReq => cases hf
  | reply => cases hf

/-! ### The step -/

/-- What one move of an agent can make of the state. -/
inductive Stepped (s : State) : Move → State → Prop where
  /-- The caller has no program left. -/
  | noProgram (ctx : Context) (hp : s.program = []) : Stepped s (.caller ctx) s
  /-- The caller issues its next operation. -/
  | issued (ctx : Context) (i : Instr) (rest : List Byte) (s' : State)
      (hd : decode .operation s.program = .ok (i, rest))
      (h : Issued { s with program := rest, ctx := ctx, running := none } i s') : Stepped s (.caller ctx) s'
  /-- The sequencer of a transceiver that does not exist. -/
  | noTransceiver (t : Nat) (hT : s.transceiver t = none) : Stepped s (.sequencer t) s
  /-- A sequencer's move. -/
  | moved (t : Nat) (T : Transceiver) (r : Option Nat) (s' : State)
      (hT : ({ s with running := r } : State).transceiver t = some T)
      (h : Moved { s with running := r } t T s') : Stepped s (.sequencer t) s'
  /-- A sequencer evaluates a pure function inside its operation. -/
  | evaluated (t : Nat) (T : Transceiver) (i : Instr) (v : Value) (hi : isPure i = true) (hT : s.transceiver t = some T)
      (hp : T.phase ≠ .idle) :
    Stepped s (.evaluate t i) (({ s with running := some t } : State).setTransceiver t { T with value := some v })
  /-- A pure function out of its range. -/
  | outOfRange (t : Nat) (T : Transceiver) (i : Instr) (hi : isPure i = true) (hT : s.transceiver t = some T)
      (hp : T.phase ≠ .idle) : Stepped s (.evaluate t i) { s with running := some t }
  /-- A pure function of an operation that a fault has stopped. -/
  | halted (t : Nat) (i : Instr) (hi : isPure i = true) (hs : s.halted t = true) : Stepped s (.evaluate t i) s
  /-- Bytes arrive. -/
  | delivered (u : Nat) (bs : List Byte) :
    Stepped s (.environment (.deliver u bs)) (({ s with line := u } : State).deliver u bs)
  /-- A channel is opened or re-rated. -/
  | configured (u : Nat) (baud : Word) :
    Stepped s (.environment (.configure u baud)) (s.setUart u { s.uart u with baud := baud })
  /-- A completion with nothing to complete. -/
  | nothing (m : Move) (t : Nat) (hm : m = .environment (.writeDone t) ∨ m = .delay t) : Stepped s m s
  /-- A completion. -/
  | completed (m : Move) (t : Nat) (T : Transceiver) (hT : s.transceiver t = some T)
      (hm : m = .environment (.writeDone t) ∧ T.phase.sends = true ∨ m = .delay t ∧ T.phase.waits = true)
      (hh : T.hold = .started) : Stepped s m (s.setTransceiver t { T with hold := .completed })
  /-- The clock. -/
  | clocked (n : Nat) : Stepped s (.clock n) (s.advance n)

/-- A frame's bytes are the bytes of the frame they decode to. -/
theorem encode_of_decodeFrame {bs : List Byte} {i : Instr} (h : decodeFrame bs = .ok i) :
    i.format = .frame ∧ encode i = bs := by
  unfold decodeFrame at h
  split at h
  · split at h
    · rename_i b0 b1 b2 b3 hc
      cases h
      refine ⟨rfl, ?_⟩
      simp only [encode, List.cons.injEq, and_true, true_and]
      exact ⟨hc.1.symm, by rw [← hc.2]; exact regByte_regField b2⟩
    · cases h
  · rename_i b0 b1 b2 b3 b4 b5 b6 b7
    split at h
    · rename_i h0
      split at h
      · rename_i hf
        cases h
        refine ⟨rfl, ?_⟩
        simp only [encode, wordBytes_wordOf, ← hf, regByte_regField, h0, List.cons_append, List.nil_append]
      · rename_i hf
        split at h
        · rename_i h1
          cases h
          refine ⟨rfl, ?_⟩
          have hf : regFlag b2 = false := by simpa using hf
          simp only [encode, wordBytes_wordOf, ← hf, regByte_regField, h0, h1, List.cons_append, List.nil_append]
        · cases h
    · cases h
  · cases h

theorem exec_frame {i : Instr} (hf : i.format = .frame) (s : State) :
    exec i s = .next (s.deliver s.line (encode i)) := by
  cases i <;> first | rfl | cases hf

theorem environmentStep_deliver (u : Nat) (bs : List Byte) (s : State) :
    environmentStep (.deliver u bs) s = .next (({ s with line := u } : State).deliver u bs) := by
  simp only [environmentStep]
  split
  · rename_i i rest hd
    simp only [decode, Except.map] at hd
    split at hd
    · cases hd
    · rename_i j hj
      cases hd
      obtain ⟨hf, rfl⟩ := encode_of_decodeFrame hj
      exact exec_frame hf _
  · rfl

/-- A pure function is evaluated by the shared operation, with an operand range of its own. -/
theorem exec_pure {i : Instr} (hi : isPure i = true) (s : State) :
    ∃ inRange v, exec i s = evaluated inRange v s := by
  cases i <;> first | exact ⟨_, _, rfl⟩ | cases hi

theorem evaluateStep_next {s s' : State} {t : Nat} {i : Instr} (h : evaluateStep t i s = .next s') :
    isPure i = true ∧
      (s.halted t = true ∧ s' = s ∨
        s.halted t = false ∧ ∃ inRange v, evaluated inRange v { s with running := some t } = .next s') := by
  unfold evaluateStep at h
  split at h
  · rename_i hi
    refine ⟨hi, ?_⟩
    split at h
    · rename_i hs
      cases h
      exact .inl ⟨hs, rfl⟩
    · rename_i hs
      obtain ⟨inRange, v, he⟩ := exec_pure hi { s with running := some t }
      rw [he] at h
      exact .inr ⟨by simpa using hs, inRange, v, h⟩
  · cases h

theorem move_next {s s' : State} {m : Move} (h : move m s = .next s') : Stepped s m s' := by
  cases m with
  | caller ctx =>
    simp only [move, callerStep] at h
    split at h
    · rename_i hp
      cases h
      exact .noProgram ctx hp
    · rename_i b bs hp
      split at h
      · cases h
      · rename_i i rest hd
        rw [← hp] at hd
        exact .issued ctx i rest s' hd (exec_issued rfl (format_of_decode hd) h)
  | sequencer t =>
    obtain ⟨hT, rfl⟩ | ⟨T, r, hT, h⟩ := sequencerStep_next h
    · exact .noTransceiver t hT
    · exact .moved t T r s' hT h
  | evaluate t i =>
    obtain ⟨hi, ⟨hs, rfl⟩ | ⟨-, inRange, v, h⟩⟩ := evaluateStep_next h
    · exact .halted t i hi hs
    · obtain ⟨t', T, hr, hT, hp, rfl | rfl⟩ := evaluated_next h <;> cases hr
      · exact .evaluated t T i v hi hT hp
      · exact .outOfRange t T i hi hT hp
  | environment e =>
    cases e with
    | deliver u bs =>
      rw [move, environmentStep_deliver] at h
      cases h
      exact .delivered u bs
    | writeDone t =>
      cases h
      obtain h | ⟨T, hT, hp, hh, h⟩ := State.completeHold_cases Phase.sends t s
      · rw [h]
        exact .nothing _ t (.inl rfl)
      · rw [h]
        exact .completed _ t T hT (.inl ⟨rfl, hp⟩) hh
    | configure u baud =>
      cases h
      exact .configured u baud
  | clock n =>
    cases h
    exact .clocked n
  | delay t =>
    cases h
    obtain h | ⟨T, hT, hp, hh, h⟩ := State.completeHold_cases Phase.waits t s
    · rw [h]
      exact .nothing _ t (.inr rfl)
    · rw [h]
      exact .completed _ t T hT (.inr ⟨rfl, hp⟩) hh

/-- A step that answers a next state does nothing, for want of a move, or makes one of these moves. -/
theorem step_next {s s' : State} (h : step s = .next s') :
    (s.schedule = [] ∧ s' = s) ∨
    ∃ m moves, s.schedule = m :: moves ∧ Stepped { s with schedule := moves } m s' := by
  cases hs : s.schedule with
  | nil =>
    rw [step_nil hs] at h
    cases h
    exact .inl ⟨rfl, rfl⟩
  | cons m moves =>
    rw [step_cons hs] at h
    exact .inr ⟨m, moves, rfl, move_next h⟩

end Sys2Proof.Machine
end

