-- ==== Sys2Proof/Laws/Own.lean ====
section
/-! SUPPORT. What a sequencer's move leaves alone, said once (60_exceptions.md R226, 10_state.md R27, R29, R34), and that every
update keeps the tables in canonical form. -/

namespace Sys2Proof.Machine

/-! ### Canonical form -/

theorem State.wf_setBus {s : State} (b : Nat) (v : Bus) (h : s.wf = true) : (s.setBus b v).wf = true := by
  simp only [State.wf, Bool.and_eq_true] at h ⊢
  exact ⟨⟨Table.wf_write _ _ _ h.1.1, h.1.2⟩, h.2⟩

theorem State.wf_setUart {s : State} (u : Nat) (v : Uart) (h : s.wf = true) : (s.setUart u v).wf = true := by
  simp only [State.wf, Bool.and_eq_true] at h ⊢
  exact ⟨⟨h.1.1, Table.wf_write _ _ _ h.1.2⟩, h.2⟩

theorem State.wf_setTransceiver {s : State} (t : Nat) (T : Transceiver) (h : s.wf = true) :
    (s.setTransceiver t T).wf = true := by
  simp only [State.wf, Bool.and_eq_true] at h ⊢
  exact ⟨h.1, Table.rising_insert _ _ h.2⟩

/-! ### Parts that record no fault -/

@[simp] theorem State.setDirection_faults (s : State) (b : Nat) (d : Dir) : (s.setDirection b d).faults = s.faults := by
  obtain ⟨-, h⟩ | ⟨-, h⟩ := State.setDirection_cases s b d <;> rw [h]
  rfl

@[simp] theorem State.ticked_faults (s : State) (ticked : Bool) :
    (if ticked then s.emit .tick else s).faults = s.faults := by
  cases ticked <;> rfl

/-! ### A sequencer's move -/

/-- What every move of the sequencer of `t`, from the record `T` to the record `T'`, keeps. -/
structure Own (s : State) (t : Nat) (T : Transceiver) (s' : State) (T' : Transceiver) : Prop where
  params : s'.params = s.params
  clk : s'.clk = s.clk
  /-- Only a read of a register that nothing has written is recorded, and it stops the operation. -/
  faults : s'.faults = s.faults ∨ s'.faults = s.faults ++ [.unwritten] ∧ T'.stopped = true
  program : s'.program = s.program
  schedule : s'.schedule = s.schedule
  answer : s'.answer = s.answer
  transceivers : ∀ k, s'.transceiver k = if k = t then some T' else s.transceiver k
  cfg : T'.cfg = T.cfg
  bus : T'.bus = T.bus
  uart : T'.uart = T.uart
  buses : ∀ b, b ≠ T.bus → s'.bus b = s.bus b
  uarts : ∀ u, u ≠ T.uart → s'.uart u = s.uart u
  baud : (s'.uart T.uart).baud = (s.uart T.uart).baud
  initialized : (s'.bus T.bus).initialized = (s.bus T.bus).initialized
  handle : (s'.bus T.bus).handle = (s.bus T.bus).handle
  /-- The bus stays busy until the move that ends the operation. -/
  busy : (s'.bus T.bus).busy = (s.bus T.bus).busy ∧ (T'.phase = .idle ↔ T.phase = .idle) ∨
    (s'.bus T.bus).busy = false ∧ T'.phase = .idle ∧ T.phase ≠ .idle
  /-- Only SET_DIR moves the pin and the direction. -/
  pin : (s'.bus T.bus).pin = (s.bus T.bus).pin ∧ (s'.bus T.bus).direction = (s.bus T.bus).direction ∨
    ∃ d, microOp s.params T = some (.setDir d) ∧ (s.bus T.bus).initialized = true ∧
      (s'.bus T.bus).pin = .output (level s.params d) ∧ (s'.bus T.bus).direction = directionOf d
  events : ∃ es, s'.events = s.events ++ es
  txlog : ∀ u, ∃ bs, (s'.uart u).txlog = (s.uart u).txlog ++ bs

variable {s : State} {t : Nat} {T : Transceiver}

theorem Own.refl (hT : s.transceiver t = some T) : Own s t T s T where
  params := rfl
  clk := rfl
  faults := .inl rfl
  program := rfl
  schedule := rfl
  answer := rfl
  transceivers := fun k => by
    split
    · rename_i h
      rw [h, hT]
    · rfl
  cfg := rfl
  bus := rfl
  uart := rfl
  buses := fun _ _ => rfl
  uarts := fun _ _ => rfl
  baud := rfl
  initialized := rfl
  handle := rfl
  busy := .inl ⟨rfl, Iff.rfl⟩
  pin := .inl ⟨rfl, rfl⟩
  events := ⟨[], by simp⟩
  txlog := fun _ => ⟨[], by simp⟩

/-- Moves may be made of parts: a part that leaves the record alone, then the rest. -/
theorem Own.trans {s1 s' : State} {T1 T' : Transceiver} (h : Own s t T s1 T1) (g : Own s1 t T1 s' T')
    (hp : microOp s1.params T1 = microOp s.params T) (hf : s1.faults = s.faults := by simp) : Own s t T s' T' where
  params := g.params.trans h.params
  clk := g.clk.trans h.clk
  faults := by
    have := g.faults
    rwa [hf] at this
  program := g.program.trans h.program
  schedule := g.schedule.trans h.schedule
  answer := g.answer.trans h.answer
  transceivers := fun k => by
    rw [g.transceivers]
    split
    · rfl
    · rename_i hk
      rw [h.transceivers, if_neg hk]
  cfg := g.cfg.trans h.cfg
  bus := g.bus.trans h.bus
  uart := g.uart.trans h.uart
  buses := fun b hb => (g.buses b (by rw [h.bus]; exact hb)).trans (h.buses b hb)
  uarts := fun u hu => (g.uarts u (by rw [h.uart]; exact hu)).trans (h.uarts u hu)
  baud := by
    have := g.baud
    rw [h.uart] at this
    exact this.trans h.baud
  initialized := by
    have := g.initialized
    rw [h.bus] at this
    exact this.trans h.initialized
  handle := by
    have := g.handle
    rw [h.bus] at this
    exact this.trans h.handle
  busy := by
    have hg := g.busy
    rw [h.bus] at hg
    obtain ⟨g1, g2⟩ | ⟨g1, g2, g3⟩ := hg
    · obtain ⟨h1, h2⟩ | ⟨h1, h2, h3⟩ := h.busy
      · exact .inl ⟨g1.trans h1, g2.trans h2⟩
      · exact .inr ⟨g1.trans h1, g2.mpr h2, h3⟩
    · obtain ⟨-, h2⟩ | ⟨-, -, h3⟩ := h.busy
      · exact .inr ⟨g1, g2, mt h2.mpr g3⟩
      · exact .inr ⟨g1, g2, h3⟩
  pin := by
    have hg := g.pin
    rw [h.bus, hp, h.params, h.initialized] at hg
    obtain ⟨g1, g2⟩ | hg := hg
    · obtain ⟨h1, h2⟩ | ⟨d, h1, h2, h3, h4⟩ := h.pin
      · exact .inl ⟨g1.trans h1, g2.trans h2⟩
      · exact .inr ⟨d, h1, h2, g1.trans h3, g2.trans h4⟩
    · exact .inr hg
  events := by
    obtain ⟨es, h1⟩ := h.events
    obtain ⟨fs, g1⟩ := g.events
    exact ⟨es ++ fs, by rw [g1, h1, List.append_assoc]⟩
  txlog := fun u => by
    obtain ⟨bs, h1⟩ := h.txlog u
    obtain ⟨cs, g1⟩ := g.txlog u
    exact ⟨bs ++ cs, by rw [g1, h1, List.append_assoc]⟩

theorem Own.emit (hT : s.transceiver t = some T) (e : Event) : Own s t T (s.emit e) T :=
  { Own.refl hT with events := ⟨[e], rfl⟩ }

/-- The record changes, and the operation neither starts nor ends. -/
theorem Own.set {T' : Transceiver} (hT : s.transceiver t = some T) (hc : T'.cfg = T.cfg) (hb : T'.bus = T.bus)
    (hu : T'.uart = T.uart) (hp : T'.phase = .idle ↔ T.phase = .idle) : Own s t T (s.setTransceiver t T') T' :=
  { Own.refl hT with
    transceivers := fun k => State.transceiver_setTransceiver s t k T'
    faults := .inl rfl
    cfg := hc
    bus := hb
    uart := hu
    busy := .inl ⟨rfl, hp⟩ }

theorem Own.setRx (hT : s.transceiver t = some T) (bs : List Byte) : Own s t T (s.setRx T.uart bs) T :=
  { Own.refl hT with
    transceivers := fun k => (Own.refl hT).transceivers k
    uarts := fun u hu => by rw [State.uart_setRx, if_neg hu]
    baud := by rw [State.uart_setRx, if_pos rfl]
    txlog := fun u => ⟨[], by rw [State.uart_setRx]; split <;> simp [*]⟩ }

theorem Own.logTx (hT : s.transceiver t = some T) (b : Byte) : Own s t T (s.logTx T.uart b) T :=
  { Own.refl hT with
    transceivers := fun k => (Own.refl hT).transceivers k
    uarts := fun u hu => by rw [State.uart_logTx, if_neg hu]
    baud := by rw [State.uart_logTx, if_pos rfl]
    txlog := fun u => by
      rw [State.uart_logTx]
      split
      · rename_i h
        exact ⟨[b], by rw [h]⟩
      · exact ⟨[], by simp⟩ }

/-- The operation ends. -/
theorem Own.ended {T' : Transceiver} (hT : s.transceiver t = some T) (hc : T'.cfg = T.cfg) (hb : T'.bus = T.bus)
    (hu : T'.uart = T.uart) (hp : T.phase ≠ .idle) (a : Answer) :
    Own s t T (s.endOperation t T' a)
      { T' with phase := .idle, job := .none, hold := .free, answer := some a } :=
  { Own.refl hT with
    faults := .inl rfl
    transceivers := fun k => State.endOperation_transceiver s t T' a k
    cfg := hc
    bus := hb
    uart := hu
    buses := fun b h => by rw [State.endOperation_bus, if_neg (by rw [hb]; exact h)]
    initialized := by rw [State.endOperation_bus, if_pos hb.symm, hb]
    handle := by rw [State.endOperation_bus, if_pos hb.symm, hb]
    busy := .inr ⟨by rw [State.endOperation_bus, if_pos hb.symm], rfl, hp⟩
    pin := .inl ⟨by rw [State.endOperation_bus, if_pos hb.symm, hb], by
      rw [State.endOperation_bus, if_pos hb.symm, hb]⟩ }

theorem Own.setDirection (hT : s.transceiver t = some T) {d : Dir} (hd : microOp s.params T = some (.setDir d)) :
    Own s t T (s.setDirection T.bus d) T := by
  obtain ⟨hi, h⟩ | ⟨-, h⟩ := State.setDirection_cases s T.bus d <;> rw [h]
  · exact
      { Own.refl hT with
        transceivers := fun k => (Own.refl hT).transceivers k
        buses := fun b hb => by rw [State.bus_emit, State.bus_setBus_other _ hb]
        initialized := by rw [State.bus_emit, State.bus_setBus_same]
        handle := by rw [State.bus_emit, State.bus_setBus_same]
        busy := .inl ⟨by rw [State.bus_emit, State.bus_setBus_same], Iff.rfl⟩
        pin := .inr ⟨d, hd, hi, by rw [State.bus_emit, State.bus_setBus_same], by
          rw [State.bus_emit, State.bus_setBus_same]⟩
        events := ⟨[.dirSet d], rfl⟩ }
  · exact Own.refl hT

theorem Own.failAttempt {T' : Transceiver} (hT : s.transceiver t = some T) (hc : T'.cfg = T.cfg)
    (hb : T'.bus = T.bus) (hu : T'.uart = T.uart) (hp : T.phase ≠ .idle) (k : Nat) (kind : ErrorKind) :
    ∃ T'', Own s t T (s.failAttempt t T' k kind) T'' := by
  have he := Own.emit hT (.attempt k kind)
  obtain ⟨-, h⟩ | ⟨-, h⟩ := State.failAttempt_cases s t T' k kind <;> rw [h]
  · exact ⟨_, he.trans (Own.set hT hc hb hu (by simp [hp])) rfl⟩
  · exact ⟨_, he.trans (Own.ended (s := s.emit (.attempt k kind)) (T' := T'.setReadFailed true) hT hc hb hu hp _) rfl⟩

theorem Own.tick {ticked : Bool} (hT : s.transceiver t = some T) :
    Own s t T (if ticked then s.emit .tick else s) T := by
  cases ticked
  · exact Own.refl hT
  · exact Own.emit hT _

theorem Transceiver.tick_keeps {T' : Transceiver} {now : Word} {b : Bool} (h : T.tick now = some (T', b)) :
    T'.cfg = T.cfg ∧ T'.bus = T.bus ∧ T'.uart = T.uart ∧ T'.phase = T.phase := by
  obtain ⟨n, ms, -, -, ⟨-, rfl, -⟩ | ⟨-, rfl, -⟩⟩ := Transceiver.tick_some h <;> exact ⟨rfl, rfl, rfl, rfl⟩

theorem scanByte_keeps {T' : Transceiver} {b : Byte} (h : scanByte T b = some T') :
    T'.cfg = T.cfg ∧ T'.bus = T.bus ∧ T'.uart = T.uart ∧ T'.phase ≠ .idle := by
  unfold scanByte at h
  split at h <;> cases h
  refine ⟨rfl, rfl, rfl, ?_⟩
  dsimp only
  split <;> simp

theorem captureByte_keeps {T' : Transceiver} {b : Byte} (h : captureByte T b = some T') :
    T'.cfg = T.cfg ∧ T'.bus = T.bus ∧ T'.uart = T.uart ∧ T'.phase ≠ .idle := by
  unfold captureByte at h
  split at h
  · split at h <;> cases h <;> exact ⟨rfl, rfl, rfl, by simp⟩
  · cases h

/-- A fault stops the operation. -/
theorem Own.stopped (hT : s.transceiver t = some T) :
    Own s t T (s.stopOperation t T .unwritten) { T with stopped := true } :=
  { Own.refl hT with
    faults := .inr ⟨rfl, rfl⟩
    transceivers := fun k => State.transceiver_stopOperation s t T .unwritten k }

/-- Every move of a sequencer keeps all of this. -/
theorem Moved.own {s' : State} (hT : s.transceiver t = some T) (h : Moved s t T s') : ∃ T', Own s t T s' T' := by
  cases h
  case stay => exact ⟨T, Own.refl hT⟩
  case unwritten => exact ⟨_, Own.stopped hT⟩
  case asked hp _ => exact ⟨_, Own.set hT rfl rfl rfl Iff.rfl⟩
  case discarded b rest hp _ => exact ⟨_, (Own.setRx hT rest).trans (Own.set hT rfl rfl rfl Iff.rfl) rfl⟩
  case flushed hp _ => exact ⟨_, (Own.emit hT _).trans (Own.set hT rfl rfl rfl (by simp [hp])) rfl⟩
  case returned dg n r hp _ _ _ =>
    exact ⟨_, (Own.emit hT _).trans (Own.ended (s := s.emit (.flushed T.flushed)) hT rfl rfl rfl (by simp [hp]) _) rfl⟩
  case framed hp _ _ _ _ => exact ⟨_, (Own.emit hT _).trans (Own.set hT rfl rfl rfl (by simp [hp])) rfl⟩
  case lost r k hp _ _ _ _ _ =>
    obtain ⟨T'', h⟩ := Own.failAttempt (s := s.emit (.flushed T.flushed))
      (T' := { T with attempt := some (k + 1) }) hT rfl rfl rfl (by simp [hp]) k r.kind
    exact ⟨T'', (Own.emit hT _).trans h rfl⟩
  case directed d next hp =>
    have hd : microOp s.params T = some (.setDir d) := by
      obtain ⟨h, rfl, -⟩ | ⟨h, rfl, -⟩ | ⟨h, rfl, -⟩ := hp <;> simp [microOp, h]
    have h1 := Own.setDirection hT hd
    have hT1 : (s.setDirection T.bus d).transceiver t = some T := by rw [h1.transceivers, if_pos rfl]
    refine ⟨_, h1.trans (Own.set hT1 rfl rfl rfl ?_) (by rw [h1.params])⟩
    obtain ⟨h, -, rfl⟩ | ⟨h, -, rfl⟩ | ⟨h, -, rfl⟩ := hp <;> simp [h]
  case released hp he hh =>
    have hd : microOp s.params T = some (.setDir .receive) := by simp [microOp, hp, he, hh]
    have h1 := Own.setDirection hT hd
    have hT1 : (s.setDirection T.bus .receive).transceiver t = some T := by rw [h1.transceivers, if_pos rfl]
    exact ⟨_, h1.trans (Own.ended hT1 rfl rfl rfl (by simp [hp]) _) (by rw [h1.params])⟩
  case ended hp _ => exact ⟨_, Own.ended hT rfl rfl rfl (by simp [hp]) _⟩
  case sent i dg b hp _ _ _ =>
    refine ⟨_, ((Own.logTx hT b).trans (Own.emit (s := s.logTx T.uart b) hT (.tx b)) rfl).trans (Own.set hT rfl rfl rfl ?_) rfl⟩
    obtain h | h := hp <;> simp only [h, Phase.afterByte] <;> split <;> simp
  case waited us next hp _ =>
    refine ⟨_, (Own.emit hT _).trans (Own.set hT rfl rfl rfl ?_) rfl⟩
    obtain ⟨h, rfl⟩ | ⟨h, rfl⟩ | ⟨h, rfl⟩ := hp <;> simp [h]
  case passed => exact ⟨_, (Own.emit hT _).trans (Own.set hT rfl rfl rfl Iff.rfl) rfl⟩
  case scanEntered hp _ _ _ => exact ⟨_, Own.set hT rfl rfl rfl (by simp [hp])⟩
  case captureEntered hp _ => exact ⟨_, Own.set hT rfl rfl rfl (by simp [hp])⟩
  case expired r T' ticked hp hk _ =>
    obtain ⟨h1, h2, h3, -⟩ := Transceiver.tick_keeps hk
    have h4 := Own.tick (ticked := ticked) hT
    refine ⟨_, h4.trans (Own.set (by rw [h4.transceivers, if_pos rfl]) h1 h2 h3 ?_) (by rw [h4.params])⟩
    obtain ⟨h, -⟩ | ⟨h, -⟩ := hp <;> simp [h]
  case empty T' ticked hp hk _ _ =>
    obtain ⟨h1, h2, h3, h5⟩ := Transceiver.tick_keeps hk
    have h4 := Own.tick (ticked := ticked) hT
    exact ⟨_, h4.trans (Own.set (by rw [h4.transceivers, if_pos rfl]) h1 h2 h3 (by rw [h5])) (by rw [h4.params])⟩
  case received b rest T' T'' ticked hp hk _ _ =>
    obtain ⟨h1, h2, h3, h5⟩ := Transceiver.tick_keeps hk
    have h6 : T''.cfg = T'.cfg ∧ T''.bus = T'.bus ∧ T''.uart = T'.uart ∧ T''.phase ≠ .idle := by
      obtain ⟨-, h⟩ | ⟨-, h⟩ := hp
      · exact scanByte_keeps h
      · exact captureByte_keeps h
    obtain ⟨g1, g2, g3, g4⟩ := h6
    have h4 := Own.tick (ticked := ticked) hT
    have hT4 : (if ticked then s.emit .tick else s).transceiver t = some T := by rw [h4.transceivers, if_pos rfl]
    have h7 := h4.trans ((Own.setRx hT4 rest).trans (Own.emit (s := State.setRx T.uart rest _) hT4 (.rx b)) rfl)
      (by rw [h4.params])
    refine ⟨T'', h7.trans (Own.set hT4 (g1.trans h1) (g2.trans h2) (g3.trans h3) ?_) (by rw [h7.params])⟩
    obtain ⟨h, -⟩ | ⟨h, -⟩ := hp <;> simp [h, g4]
  case accepted f k value hp _ _ _ =>
    exact ⟨_, (Own.emit hT _).trans
      (Own.ended (s := s.emit (.attempt k .ok)) (T' := T.setReadFailed false) hT rfl rfl rfl
        (by simp [hp]) _) rfl⟩
  case rejected f k kind hp _ _ _ => exact Own.failAttempt hT rfl rfl rfl (by simp [hp]) k kind

end Sys2Proof.Machine
end

