-- ==== Sys2Proof/Laws/PerInstr.lean ====
section
/-! SUPPORT. The family of statements made instruction by instruction: the first byte of each instruction's encoding. -/

namespace Sys2Proof.Laws.Tag

/-- The byte each row of the opcode table starts with: the tag of 30_encoding.md R86, the sync byte of R71 to R73. -/
def firstByte : Instr → Byte
  | .busInit _ _ => 0x01#8
  | .construct _ _ _ _ _ _ => 0x02#8
  | .read _ _ => 0x03#8
  | .write _ _ _ => 0x04#8
  | .transact _ _ _ _ => 0x05#8
  | .validate _ => 0x06#8
  | .setDir _ => 0x10#8
  | .flush => 0x11#8
  | .txByte _ => 0x12#8
  | .wait _ => 0x13#8
  | .scanEnter => 0x14#8
  | .scanPoll => 0x15#8
  | .captureEnter => 0x16#8
  | .capturePoll => 0x17#8
  | .buildReadReq _ _ => 0x18#8
  | .buildWrite _ _ _ => 0x19#8
  | .crc8 _ => 0x1A#8
  | .turnaround _ => 0x1B#8
  | .writeFrame _ _ _ _ => 0x05#8
  | .readReq _ _ _ => 0x05#8
  | .reply _ _ _ => 0x05#8

/-- The encoding of `i` starts with the byte of its row. -/
def Statement (i : Instr) : Prop := ∃ rest, encode i = firstByte i :: rest

theorem busInit (bus : Nat) (pin : Option Nat) : Statement (.busInit bus pin) := ⟨_, rfl⟩
theorem construct (t uart rsense : Nat) (slaveAddr : Byte) (bus : Nat) (pin : Option Nat) : Statement (.construct t uart rsense slaveAddr bus pin) := ⟨_, rfl⟩
theorem read (t : Nat) (regAddr : Byte) : Statement (.read t regAddr) := ⟨_, rfl⟩
theorem write (t : Nat) (regAddr : Byte) (value : Word) : Statement (.write t regAddr value) := ⟨_, rfl⟩
theorem transact (t : Nat) (dg : List Byte) (payloadLen scanTimeout : Nat) : Statement (.transact t dg payloadLen scanTimeout) := ⟨_, rfl⟩
theorem validate (frame : BitVec 64) : Statement (.validate frame) := ⟨_, rfl⟩
theorem setDir (d : Dir) : Statement (.setDir d) := ⟨_, rfl⟩
theorem flush : Statement (.flush) := ⟨_, rfl⟩
theorem txByte (n : Nat) : Statement (.txByte n) := ⟨_, rfl⟩
theorem wait (us : Nat) : Statement (.wait us) := ⟨_, rfl⟩
theorem scanEnter : Statement (.scanEnter) := ⟨_, rfl⟩
theorem scanPoll : Statement (.scanPoll) := ⟨_, rfl⟩
theorem captureEnter : Statement (.captureEnter) := ⟨_, rfl⟩
theorem capturePoll : Statement (.capturePoll) := ⟨_, rfl⟩
theorem buildReadReq (addr regAddr : Byte) : Statement (.buildReadReq addr regAddr) := ⟨_, rfl⟩
theorem buildWrite (addr regAddr : Byte) (value : Word) : Statement (.buildWrite addr regAddr value) := ⟨_, rfl⟩
theorem crc8 (bs : List Byte) : Statement (.crc8 bs) := ⟨_, rfl⟩
theorem turnaround (baud : Word) : Statement (.turnaround baud) := ⟨_, rfl⟩
theorem writeFrame (addr : Byte) (reg : BitVec 7) (value : Word) (crc : Byte) : Statement (.writeFrame addr reg value crc) := ⟨_, rfl⟩
theorem readReq (addr : Byte) (reg : BitVec 7) (crc : Byte) : Statement (.readReq addr reg crc) := ⟨_, rfl⟩
theorem reply (reg : BitVec 7) (value : Word) (crc : Byte) : Statement (.reply reg value crc) := ⟨_, rfl⟩

end Sys2Proof.Laws.Tag
end

