-- ==== Sys2Proof/Laws/Polls.lean ====
section
/-! SUPPORT. The datapath of the synchronizer as bytes side by side, and one poll on a clock that does not move. -/

namespace Sys2Proof.Machine

/-! ### Window, accumulator and target as bytes (10_state.md R23, R24, 30_encoding.md R74) -/

theorem shiftWindow_eq (w : BitVec 24) (b : Byte) : shiftWindow w b = (w ++ b).setWidth 24 := by
  apply BitVec.eq_of_getLsbD_eq
  intro i hi
  have ones : ∀ j : Fin 24, (0xFFFFFF#24).getLsbD j.val = true := by decide
  have h1 : (0xFFFFFF#24).getLsbD i = true := ones ⟨i, hi⟩
  simp only [shiftWindow, BitVec.getLsbD_and, BitVec.getLsbD_or, BitVec.getLsbD_shiftLeft, BitVec.getLsbD_setWidth,
    BitVec.getLsbD_append, hi, h1]
  by_cases h8 : i < 8
  · simp [h8]
  · have h2 : b.getLsbD i = false := BitVec.getLsbD_of_ge b i (by omega)
    simp [h8, h2]

theorem shiftAcc_eq (a : BitVec 64) (b : Byte) : shiftAcc a b = (a ++ b).setWidth 64 := by
  apply BitVec.eq_of_getLsbD_eq
  intro i hi
  simp only [shiftAcc, BitVec.getLsbD_or, BitVec.getLsbD_shiftLeft, BitVec.getLsbD_setWidth, BitVec.getLsbD_append, hi]
  by_cases h8 : i < 8
  · simp [h8]
  · have h2 : b.getLsbD i = false := BitVec.getLsbD_of_ge b i (by omega)
    simp [h8, h2]

theorem targetOf_eq (b0 b2 : Byte) : targetOf b0 b2 = b0 ++ replyMarker ++ b2 := by
  apply BitVec.eq_of_getLsbD_eq
  intro i hi
  have marks : ∀ j : Fin 24, (0xFF00#24).getLsbD j.val = (decide (8 ≤ j.val) && decide (j.val < 16)) := by decide
  have ones : ∀ j : Fin 8, (0xFF#8).getLsbD j.val = true := by decide
  have h1 : (0xFF00#24).getLsbD i = (decide (8 ≤ i) && decide (i < 16)) := marks ⟨i, hi⟩
  simp only [targetOf, replyMarker, BitVec.getLsbD_or, BitVec.getLsbD_shiftLeft, BitVec.getLsbD_setWidth,
    BitVec.getLsbD_append, hi, h1]
  by_cases h8 : i < 8
  · have h16 : i < 16 := by omega
    simp [h8, h16]
  · have h2 : b2.getLsbD i = false := BitVec.getLsbD_of_ge b2 i (by omega)
    by_cases h16 : i < 16
    · have h3 : i - 8 < 8 := by omega
      have h4 : (0xFF#8).getLsbD (i - 8) = true := ones ⟨i - 8, h3⟩
      have h5 : 8 ≤ i := by omega
      rw [if_neg h8, if_pos h3, h4, h2]
      simp [h16, h5]
    · have h3 : ¬ i - 8 < 8 := by omega
      have h4 : i - 8 - 8 = i - 16 := by omega
      have h5 : i - 16 < 24 := by omega
      simp [h8, h16, h3, h2, h4, h5]

theorem shiftWindow_toNat (w : BitVec 24) (b : Byte) :
    (shiftWindow w b).toNat = (w.toNat * 256 + b.toNat) % 2 ^ 24 := by
  rw [shiftWindow_eq, BitVec.toNat_setWidth, toNat_append8]

theorem shiftAcc_toNat (a : BitVec 64) (b : Byte) : (shiftAcc a b).toNat = (a.toNat * 256 + b.toNat) % 2 ^ 64 := by
  rw [shiftAcc_eq, BitVec.toNat_setWidth, toNat_append8]

theorem targetOf_toNat (b0 b2 : Byte) : (targetOf b0 b2).toNat = b0.toNat * 0x10000 + 0xFF00 + b2.toNat := by
  rw [targetOf_eq, toNat_append8, toNat_append8]
  simp [replyMarker]
  omega

/-! ### One poll on a steady clock (44_synchronizer.md R161 to R163) -/

theorem Transceiver.tick_steady {T : Transceiver} {n : Nat} {now : Word} (hb : T.budget = some n)
    (hm : T.lastMs = some now) : T.tick now = some (T, false) := by
  simp [Transceiver.tick, hb, hm]

/-- With budget left and the clock where it was, a poll reads the head byte, if there is one. -/
theorem poll_steady {t : Nat} {T : Transceiver} {expired : TransactResult}
    {accept : Transceiver → Byte → Option Transceiver} {s : State} {n : Nat} (hb : T.budget = some n) (hn : 1 ≤ n)
    (hm : T.lastMs = some s.clk) :
    poll t T expired accept s =
      match (s.uart T.uart).rx with
      | [] => .next (s.setTransceiver t T)
      | b :: rest =>
        match accept T b with
        | none => .next (s.stopOperation t T .unwritten)
        | some T' => .next (((s.setRx T.uart rest).emit (.rx b)).setTransceiver t T') := by
  have h0 : ¬ T.budget = some 0 := by
    rw [hb]
    simp
    omega
  simp only [poll, Transceiver.tick_steady hb hm, if_neg h0]
  rfl

end Sys2Proof.Machine
end

