-- ==== Sys2Proof/Tests/Slice0.lean ====
section
/-! SUPPORT. Tests. Every expected result is written out from the spec: the tables of 30_encoding.md and the vectors of
95_test_vectors.md (their names stand in the comments). -/

namespace Sys2Proof.Tests

open Sys2Proof Sys2Proof.Machine

/-! ### Small states -/

/-- An idle transceiver on bus 0 and channel 0, constructed at 115200 baud. -/
def idle : Transceiver := Transceiver.fresh 115200#32 0 11 0x00#8 0

/-- Bus 0 after BUS_INIT with pin 7, its pin at level 0. -/
def bus : Bus := { initialized := true, handle := some 7, direction := .unset, busy := false, pin := .output false }

/-- A channel at 115200 baud with these bytes waiting. -/
def channel (rx : List Byte) : Uart := { baud := 115200#32, rx := rx, txlog := [] }

/-- Transceiver 0 with this record, on bus 0, which is busy when the record is not idle, its bytes waiting, and the clock at 0. -/
def small (T : Transceiver) (rx : List Byte) : State :=
  { State.reset with
    buses := [(0, { bus with busy := decide (T.phase ≠ .idle) })]
    uarts := [(0, channel rx)]
    transceivers := [(0, T)] }

/-- `small` in a step of its sequencer. -/
def taking (T : Transceiver) (rx : List Byte) : State := { small T rx with running := some 0 }

/-- The state a step answers. -/
def after (o : Step) : Option State :=
  match o with
  | .next s => some s
  | _ => none

/-- Transceiver 0 of the state a step answers. -/
def record (o : Step) : Option Transceiver := (after o).bind fun s => s.transceiver 0

/-- The events of the state a step answers. -/
def events (o : Step) : Option (List Event) := (after o).map fun s => s.events

/-- The faults of the state a step answers. -/
def faults (o : Step) : Option (List OpFault) := (after o).map fun s => s.faults

/-- The answer port of the state a step answers. -/
def answer (o : Step) : Option Answer := (after o).bind fun s => s.answer

/-- A pure function evaluated by the sequencer of transceiver 0 at the start of a transaction. -/
def evaluating (i : Instr) : Step := exec i (taking { idle with phase := .preFlush } [])

/-- The value transceiver 0's sequencer holds in the state a step answers. -/
def value (o : Step) : Option Value := (record o).bind fun T => T.value

/-! ### Decoding: words written out from the tables of R86 and R71 to R73 -/

theorem test_decode_busInit : decode .operation [0x01#8, 0x00#8, 0x08#8] = .ok (.busInit 0 (some 7), []) := by decide
theorem test_decode_construct :
    decode .operation [0x02#8, 0x03#8, 0x01#8, 0x0B#8, 0xFF#8, 0x02#8, 0x00#8] =
      .ok (.construct 3 1 11 0xFF#8 2 none, []) := by decide
theorem test_decode_read : decode .operation [0x03#8, 0x00#8, 0x10#8] = .ok (.read 0 0x10#8, []) := by decide
theorem test_decode_write :
    decode .operation [0x04#8, 0x00#8, 0x10#8, 0x00#8, 0x01#8, 0x1F#8, 0x0A#8] =
      .ok (.write 0 0x10#8 0x00011F0A#32, []) := by decide
theorem test_decode_transact :
    decode .operation [0x05#8, 0x00#8, 0x04#8, 0x05#8, 0x00#8, 0x10#8, 0x70#8, 0x03#8, 0x05#8] =
      .ok (.transact 0 [0x05#8, 0x00#8, 0x10#8, 0x70#8] 3 5, []) := by decide
theorem test_decode_validate :
    decode .operation [0x06#8, 0x05#8, 0xFF#8, 0x10#8, 0x00#8, 0x00#8, 0x01#8, 0x2C#8, 0xA7#8] =
      .ok (.validate 0x05FF100000012CA7#64, []) := by decide
theorem test_decode_setDir : decode .operation [0x10#8, 0x01#8] = .ok (.setDir .receive, []) := by decide
theorem test_decode_flush : decode .operation [0x11#8, 0x10#8] = .ok (.flush, [0x10#8]) := by decide
theorem test_decode_txByte : decode .operation [0x12#8, 0x07#8] = .ok (.txByte 7, []) := by decide
theorem test_decode_wait : decode .operation [0x13#8, 0xD0#8, 0x0F#8] = .ok (.wait 2000, []) := by decide
theorem test_decode_scanEnter : decode .operation [0x14#8] = .ok (.scanEnter, []) := by decide
theorem test_decode_scanPoll : decode .operation [0x15#8] = .ok (.scanPoll, []) := by decide
theorem test_decode_captureEnter : decode .operation [0x16#8] = .ok (.captureEnter, []) := by decide
theorem test_decode_capturePoll : decode .operation [0x17#8] = .ok (.capturePoll, []) := by decide
theorem test_decode_buildReadReq :
    decode .operation [0x18#8, 0x01#8, 0x10#8] = .ok (.buildReadReq 0x01#8 0x10#8, []) := by decide
theorem test_decode_buildWrite :
    decode .operation [0x19#8, 0x03#8, 0x6C#8, 0x10#8, 0x00#8, 0x00#8, 0x53#8] =
      .ok (.buildWrite 0x03#8 0x6C#8 0x10000053#32, []) := by decide
theorem test_decode_crc8 :
    decode .operation [0x1A#8, 0x02#8, 0x05#8, 0xFF#8] = .ok (.crc8 [0x05#8, 0xFF#8], []) := by decide
theorem test_decode_turnaround :
    decode .operation [0x1B#8, 0x00#8, 0x01#8, 0xC2#8, 0x00#8] = .ok (.turnaround 115200#32, []) := by decide
/-- FW1. -/
theorem test_decode_writeFrame :
    decode .frame [0x05#8, 0x00#8, 0x90#8, 0x00#8, 0x01#8, 0x1F#8, 0x0A#8, 0x50#8] =
      .ok (.writeFrame 0x00#8 0x10#7 0x00011F0A#32 0x50#8, []) := by decide
/-- FR9. -/
theorem test_decode_readReq :
    decode .frame [0x05#8, 0xFF#8, 0x10#8, 0xA7#8] = .ok (.readReq 0xFF#8 0x10#7 0xA7#8, []) := by decide
/-- VA5. -/
theorem test_decode_reply :
    decode .frame [0x05#8, 0xFF#8, 0x10#8, 0x00#8, 0x01#8, 0x1F#8, 0x0A#8, 0x9D#8] =
      .ok (.reply 0x10#7 0x00011F0A#32 0x9D#8, []) := by decide
/-- Bytes of no format of R70 are no frame. -/
theorem test_decode_no_frame :
    decode .frame [0x05#8, 0x00#8, 0x90#8, 0x50#8] = .error .badFrame ∧
    decode .frame [0x04#8, 0xFF#8, 0x10#8, 0x00#8, 0x00#8, 0x01#8, 0x2C#8, 0xA7#8] = .error .badFrame ∧
    decode .frame [0x05#8, 0x00#8, 0x10#8, 0x00#8, 0x00#8, 0x01#8, 0x2C#8, 0xA7#8] = .error .badFrame ∧
    decode .frame [0x05#8, 0x00#8, 0x10#8] = .error .badFrame := by decide
/-- The words of the opcode table as it writes them: CAPTURE_POLL, and the read request of FR3. -/
theorem test_table_words :
    decodeTableWord 8 0x17 = some .capturePoll ∧
    decodeTableWord 32 0x05001070 = some (.readReq 0x00#8 0x10#7 0x70#8) := by decide

/-! ### WellFormed: an ill-formed term for each check -/

theorem test_wellFormed_read : (Instr.read 0 0x80#8).wellFormed = false := by decide
theorem test_wellFormed_write : (Instr.write 0 0xFF#8 0#32).wellFormed = false := by decide
/-- TR4, TR5, TR6. -/
theorem test_wellFormed_transact :
    (Instr.transact 0 [0x05#8, 0x00#8, 0x10#8] 3 5).wellFormed = false ∧
    (Instr.transact 0 [0x05#8, 0x70#8] 1 5).wellFormed = false ∧
    (Instr.transact 0 [0x05#8, 0x00#8, 0x10#8, 0x70#8] 3 0).wellFormed = false := by decide
theorem test_wellFormed_buildReadReq : (Instr.buildReadReq 0#8 0x80#8).wellFormed = false := by decide
theorem test_wellFormed_buildWrite : (Instr.buildWrite 0#8 0x80#8 0#32).wellFormed = false := by decide
theorem test_wellFormed_turnaround : (Instr.turnaround 0#32).wellFormed = false := by decide
theorem test_wellFormed_admits :
    (Instr.read 0 0x7F#8).wellFormed = true ∧ (Instr.transact 0 [5#8, 0#8, 0x10#8] 2 1).wellFormed = true := by decide

/-! ### One step of each instruction -/

/-- BB1. -/
theorem test_busInit_defined :
    (after (exec (.busInit 0 (some 7)) State.reset)).map
      (fun s => ((s.bus 0).initialized, (s.bus 0).handle, (s.bus 0).direction, s.events)) =
      some (true, some 7, .unset, []) := by decide
/-- BB2. -/
theorem test_busInit_undefined :
    (after (exec (.busInit 0 none) State.reset)).map (fun s => ((s.bus 0).initialized, s.events)) =
      some (false, [.log .pinUnconfigured]) := by decide
/-- TT2. -/
theorem test_construct :
    (record (exec (.construct 0 0 11 0x03#8 0 none) (small idle []))).map
      (fun T => (T.cfg.delayUs, T.cfg.slaveAddr, T.readFailed)) = some (347#32, 0x03#8, false) := by decide
/-- TT7. -/
theorem test_construct_zeroBaud :
    (after (exec (.construct 0 1 11 0x03#8 0 none) State.reset)).map (fun s => (s.faults, s.transceivers, s.events)) =
      some ([.zeroBaud], [], []) := by decide
/-- FR3. -/
theorem test_read :
    (record (exec (.read 0 0x10#8) (small idle []))).map (fun T => (T.req, T.attempt, T.phase)) =
      some (some [0x05#8, 0x00#8, 0x10#8, 0x70#8], some 0, .preFlush) := by decide +kernel
/-- FF1. -/
theorem test_read_badRegAddr : faults (exec (.read 0 0x80#8) (small idle [])) = some [.badRegAddr] := by decide
/-- FW1. -/
theorem test_write :
    (record (exec (.write 0 0x10#8 0x00011F0A#32) (small idle []))).map (fun T => (T.datagram, T.phase)) =
      some (some [0x05#8, 0x00#8, 0x90#8, 0x00#8, 0x01#8, 0x1F#8, 0x0A#8, 0x50#8], .wDirTx) := by decide +kernel
/-- FF2. -/
theorem test_write_badRegAddr : faults (exec (.write 0 0xFF#8 0#32) (small idle [])) = some [.badRegAddr] := by decide
/-- TR5. -/
theorem test_transact_badLength :
    faults (exec (.transact 0 [0x05#8, 0x70#8] 1 5) (small idle [])) = some [.badDatagramLength] := by decide
/-- TR6. -/
theorem test_transact_zeroTimeout :
    faults (exec (.transact 0 [0x05#8, 0x00#8, 0x10#8, 0x70#8] 3 0) (small idle [])) = some [.badParameter] := by decide
/-- VA1. -/
theorem test_validate_accept :
    answer (exec (.validate 0x05FF100000012CA7#64) State.reset) = some (.verdict (.accept 0x0000012C#32)) := by decide +kernel
/-- VA9, VA4. -/
theorem test_validate_reject :
    answer (exec (.validate 0x05FF100000007A00#64) State.reset) = some (.verdict (.reject .zeroChecksumRejected)) ∧
    answer (exec (.validate 0x0000000000000001#64) State.reset) = some (.verdict (.reject .checksumMismatch)) := by
  decide +kernel
/-- BB5. -/
theorem test_setDir_transmit :
    (after (exec (.setDir .transmit) (taking { idle with phase := .dirTx } []))).map
      (fun s => ((s.bus 0).pin, (s.bus 0).direction, s.events)) =
      some (.output true, .transmit, [.dirSet .transmit]) := by decide
/-- BB7. -/
theorem test_setDir_uninitialized :
    (after (exec (.setDir .transmit) { taking { idle with phase := .dirTx } [] with buses := [] })).map
      (fun s => (s.buses, s.events)) = some ([], []) := by decide
/-- TR2. -/
theorem test_flush_empty :
    events (exec .flush (taking { idle with phase := .preFlush } [])) = some [.flushed 0] := by decide
/-- TR9: the byte after the reply, discarded by PostFlush. -/
theorem test_flush_byte :
    (record (exec .flush (taking { idle with phase := .postFlush } [0x11#8]))).map (fun T => (T.flushed, T.phase)) =
      some (1, .postFlush) := by decide
/-- TR3, its last byte. -/
theorem test_txByte_last :
    (after (exec (.txByte 3)
      (taking { idle with phase := .tx 3, hold := .completed, job := .direct [5#8, 0#8, 0x10#8, 0x70#8] 5 } []))).map
      (fun s => ((s.uart 0).txlog, s.events, (s.transceiver 0).map (·.phase))) =
      some ([0x70#8], [.tx 0x70#8], some .turnaround) := by decide
/-- The sequencer is held until the write completes (R143). -/
theorem test_txByte_held :
    (after (exec (.txByte 0)
      (taking { idle with phase := .tx 0, hold := .started, job := .direct [5#8, 0#8, 0x10#8, 0x70#8] 5 } []))).map
      (fun s => (s.uart 0).txlog) = some [] := by decide
/-- P1: `Waited(347)`. -/
theorem test_wait_turnaround :
    (after (exec (.wait 347) (taking { idle with phase := .turnaround, hold := .completed } []))).map
      (fun s => (s.events, (s.transceiver 0).map (·.phase))) = some ([.waited 347], some .dirRx) := by decide
/-- WR1: `Waited(2000)`. -/
theorem test_wait_write :
    (after (exec (.wait 2000) (taking { idle with phase := .wReplyWait, hold := .completed } []))).map
      (fun s => (s.events, (s.transceiver 0).map (·.phase))) = some ([.waited 2000], some .wEnd) := by decide
/-- E1: the target. -/
theorem test_scanEnter :
    (record (exec .scanEnter (taking { idle with phase := .scanEnter, job := .direct [5#8, 0#8, 0x10#8] 4 } []))).map
      (fun T => (T.target, T.window, T.budget)) = some (some 0x05FF10#24, some 0#24, some 4) := by decide
/-- B2, poll 7: the lock. -/
theorem test_scanPoll_lock :
    (record (exec .scanPoll
      (taking
        { idle with
          phase := .scan, window := some 0x7005FF#24, target := some 0x05FF10#24, budget := some 5, lastMs := some 0#32 }
        [0x10#8, 0x00#8]))).map (fun T => (T.window, T.phase)) = some (some 0x05FF10#24, .captureEnter) := by decide
/-- B3 and S8: a tick across the clock's wrap, and the zero test before the read. -/
theorem test_scanPoll_expires :
    (after (exec .scanPoll
      (taking
        { idle with
          phase := .scan, window := some 0#24, target := some 0x05FF10#24, budget := some 1,
          lastMs := some 0xFFFFFFFF#32 }
        [0x05#8]))).map (fun s => ((s.uart 0).rx, s.events, (s.transceiver 0).map (fun T => (T.result, T.phase)))) =
      some ([0x05#8], [.tick], some (some .noReply, .postFlush)) := by decide
/-- B2: the window's bytes become the high bytes of the accumulator, the second budget is loaded. -/
theorem test_captureEnter :
    (record (exec .captureEnter (taking { idle with phase := .captureEnter, window := some 0x05FF10#24 } []))).map
      (fun T => (T.acc, T.capCount, T.budget)) = some (some 0x05FF10#64, some 0, some 5) := by decide
/-- B2, poll 12: the frame. -/
theorem test_capturePoll_frame :
    (record (exec .capturePoll
      (taking
        { idle with
          phase := .capture, acc := some 0x05FF100000012C#64, capCount := some 4, budget := some 5, lastMs := some 0#32 }
        [0xA7#8]))).map (fun T => (T.result, T.phase)) =
      some (some (.frame 0x05FF100000012CA7#64), .postFlush) := by decide
/-- B4, poll 8. -/
theorem test_capturePoll_expires :
    (record (exec .capturePoll
      { taking
          { idle with phase := .capture, acc := some 0#64, capCount := some 2, budget := some 1, lastMs := some 1#32 } []
        with clk := 2#32 })).map (fun T => (T.result, T.budget)) = some (some .incompleteFrame, some 0) := by decide
/-- FR5. -/
theorem test_buildReadReq :
    value (evaluating (.buildReadReq 0x03#8 0x6C#8)) = some (.datagram [0x05#8, 0x03#8, 0x6C#8, 0x27#8]) := by
  decide +kernel
/-- FW6: a checksum of 0 is sent like any other. -/
theorem test_buildWrite :
    value (evaluating (.buildWrite 0x01#8 0x09#8 0#32)) =
      some (.datagram [0x05#8, 0x01#8, 0x89#8, 0#8, 0#8, 0#8, 0#8, 0#8]) := by decide +kernel
/-- R129. -/
theorem test_crc8 : value (evaluating (.crc8 [0x05#8, 0xFF#8, 0x10#8])) = some (.checksum 0xA7#8) := by decide +kernel
/-- R129. -/
theorem test_crc8_value :
    value (evaluating (.crc8 [0x05#8, 0xFF#8, 0x6C#8, 0x10#8, 0x00#8, 0x00#8, 0x53#8])) = some (.checksum 0x51#8) := by
  decide +kernel
/-- TT1, TT5. -/
theorem test_turnaround :
    value (evaluating (.turnaround 9600#32)) = some (.micros 4166#32) ∧
    value (evaluating (.turnaround 40000001#32)) = some (.micros 0#32) := by decide
/-- R87: the caller never issues a pure micro-step, and no sequencer runs one outside an operation. -/
theorem test_pure_outside_operation :
    ∀ i ∈ [Instr.buildReadReq 0#8 0#8, .buildWrite 0#8 0#8 0#32, .crc8 [], .turnaround 1#32],
      exec i (small { idle with phase := .preFlush } []) = .refused .microStepOutsideOperation ∧
      exec i (taking idle []) = .refused .microStepOutsideOperation := by
  intro i hi
  simp only [List.mem_cons, List.not_mem_nil, or_false] at hi
  obtain rfl | rfl | rfl | rfl := hi <;> exact ⟨rfl, rfl⟩
/-- R56, R111, R120, R121: out of its range a pure row has no exception, builds nothing and leaves the operation running. -/
theorem test_pure_outOfRange :
    ∀ i ∈ [Instr.buildReadReq 0#8 0x80#8, .buildWrite 0#8 0xFF#8 0#32, .turnaround 0#32],
      faults (evaluating i) = some [] ∧
      (record (evaluating i)).map (fun T => (T.phase, T.stopped, T.value)) = some (.preFlush, false, none) := by decide
/-- FW1: the echo of a WRITE. -/
theorem test_writeFrame :
    (after (exec (.writeFrame 0x00#8 0x10#7 0x00011F0A#32 0x50#8) State.reset)).map (fun s => (s.uart 0).rx) =
      some [0x05#8, 0x00#8, 0x90#8, 0x00#8, 0x01#8, 0x1F#8, 0x0A#8, 0x50#8] := by decide
/-- FR3: the echo of a read request. -/
theorem test_readReq :
    (after (exec (.readReq 0x00#8 0x10#7 0x70#8) (small idle [0x37#8]))).map (fun s => (s.uart 0).rx) =
      some [0x37#8, 0x05#8, 0x00#8, 0x10#8, 0x70#8] := by decide
/-- E1: the reply. -/
theorem test_reply :
    (after (exec (.reply 0x10#7 0x0000012C#32 0xA7#8) State.reset)).map (fun s => (s.uart 0).rx) =
      some [0x05#8, 0xFF#8, 0x10#8, 0x00#8, 0x00#8, 0x01#8, 0x2C#8, 0xA7#8] := by decide

/-! ### Witnesses: a concrete state and operands for the hypotheses of each statement, at the ends of their ranges -/

/-- A clock value no record has seen. -/
def late (s : State) : State := { s with clk := 1#32 }

/-- A record whose operation a fault has stopped. -/
def halting (T : Transceiver) : Transceiver := { T with stopped := true }

/-- The same parameters with `WRITE_END_DIRECTION = Release`. -/
def releasing (s : State) : State := { s with params := { s.params with writeEnd := .release } }

/-- A record in the scan of the §8 example. -/
def scanning : Transceiver :=
  { idle with
    phase := .scan, window := some 0#24, target := some 0x05FF10#24, budget := some 1, lastMs := some 0#32,
    job := .direct [0x05#8, 0x00#8, 0x10#8] 1 }

/-- A record in the capture, with the header taken over. -/
def capturing : Transceiver :=
  { idle with
    phase := .capture, acc := some 0x05FF10#64, capCount := some 0, budget := some 1, lastMs := some 0#32,
    job := .direct [0x05#8, 0x00#8, 0x10#8] 1 }

/-- A record of a READ of register 0x10 in this phase, in its first attempt. -/
def reading (ph : Phase) : Transceiver :=
  { idle with phase := ph, job := .read, req := some [0x05#8, 0x00#8, 0x10#8, 0x70#8], attempt := some 0 }

/-- `s` with this as its next move. -/
def moving (m : Move) (s : State) : State := { s with schedule := [m] }

/-- The hypotheses an operation on transceiver 0 is issued under. -/
def issuable (s : State) : Bool :=
  decide (s.ctx = .stallTolerant) && paramsValid s.params && s.idle 0 && !s.contended 0 && (s.transceiver 0).isSome

theorem transceiver_small {T K : Transceiver} {rx : List Byte} {k : Nat} (h : (small T rx).transceiver k = some K) :
    k = 0 ∧ K = T := by
  simp only [State.transceiver, small, Table.find] at h
  split at h
  · rename_i h0
    cases h
    exact ⟨h0.symm, rfl⟩
  · cases h

theorem witness_DecodeOfEncode : (Instr.construct 0 0 0 0#8 0 none).format = .operation ∧
    (Instr.writeFrame 0#8 0#7 0#32 0#8).format = .frame := by decide

theorem witness_EncodeOfDecode : decode .operation [0x12#8, 0x7F#8] = .ok (.txByte 127, []) ∧
    decode .operation [0x12#8, 0x80#8, 0x01#8] = .ok (.txByte 128, []) ∧
    decode .frame [0x05#8, 0xFF#8, 0x7F#8, 0x00#8] = .ok (.readReq 0xFF#8 0x7F#7 0x00#8, []) := by decide

theorem witness_UnknownTagRefused : ∀ op ∈ [0x00#8, 0x07#8, 0x0F#8, 0x1C#8, 0xFF#8],
    op ∉ [0x01#8, 0x02#8, 0x03#8, 0x04#8, 0x05#8, 0x06#8, 0x10#8, 0x11#8, 0x12#8, 0x13#8, 0x14#8, 0x15#8, 0x16#8, 0x17#8,
      0x18#8, 0x19#8, 0x1A#8, 0x1B#8] ∧
    ({ moving (.caller .stallTolerant) State.reset with program := [op] } : State).program = [op] := by decide

/-- Where a pure function is evaluated: a sequencer's step with an operation in flight. -/
theorem evaluating_hypotheses :
    (taking { idle with phase := .preFlush } []).running = some 0 ∧
    (taking { idle with phase := .preFlush } []).transceiver 0 = some { idle with phase := .preFlush } ∧
    Phase.preFlush ≠ .idle := by decide

theorem witness_FramerBuildsFrames :
    ((taking { idle with phase := .preFlush } []).running = some 0 ∧
      (taking { idle with phase := .preFlush } []).transceiver 0 = some { idle with phase := .preFlush } ∧
      Phase.preFlush ≠ .idle) ∧
    (0x00#8 : Byte).toNat ≤ 0x7F ∧ (0x7F#8 : Byte).toNat ≤ 0x7F := ⟨evaluating_hypotheses, by decide⟩

theorem witness_WriteFrameRoundTrip : (0x00#8 : Byte).toNat ≤ 0x7F ∧ (0x7F#8 : Byte).toNat ≤ 0x7F := by decide

/-- A move that evaluates in range and one out of range, and the rows' operands out of range. -/
theorem witness_PureRowsNeverDisturb :
    ((taking { idle with phase := .preFlush } []).running = some 0 ∧
      (taking { idle with phase := .preFlush } []).transceiver 0 = some { idle with phase := .preFlush } ∧
      Phase.preFlush ≠ .idle) ∧
    idle.stopped = false ∧
    (∀ r ∈ [0x7F#8, 0x80#8],
      (after (step (moving (.evaluate 0 (.buildReadReq 0#8 r)) (small { idle with phase := .preFlush } [])))).isSome = true) ∧
    0x7F < (0x80#8 : Byte).toNat ∧ 0x7F < (0xFF#8 : Byte).toNat :=
  ⟨evaluating_hypotheses, by decide +kernel⟩

theorem witness_Crc8RowEffect :
    ((taking { idle with phase := .preFlush } []).running = some 0 ∧
      (taking { idle with phase := .preFlush } []).transceiver 0 = some { idle with phase := .preFlush } ∧
      Phase.preFlush ≠ .idle) ∧
    (taking { idle with phase := .preFlush } []).params.crc = .trinamic := ⟨evaluating_hypotheses, by decide⟩

theorem witness_TurnaroundTruncates :
    ((taking { idle with phase := .preFlush } []).running = some 0 ∧
      (taking { idle with phase := .preFlush } []).transceiver 0 = some { idle with phase := .preFlush } ∧
      Phase.preFlush ≠ .idle) ∧
    (1#32 : Word) ≠ 0#32 ∧ (0xFFFFFFFF#32 : Word) ≠ 0#32 := ⟨evaluating_hypotheses, by decide⟩

theorem witness_CrcDefaultProperties :
    ([0x05#8] : List Byte).length = ([0xFF#8] : List Byte).length ∧ (List.replicate 7 0#8).length = 7 ∧ 6 < 7 ∧ 7 < 8 := by
  decide

theorem witness_BusInitEffect : State.reset.ctx = .stallTolerant ∧ paramsValid State.reset.params = true ∧
    ((small idle []).bus 0).initialized = true ∧ (State.reset.bus 0).initialized = false ∧
    State.reset.params.pins.lookup 7 = some 7 ∧ State.reset.params.pins.lookup 8 = none := by decide

theorem witness_SetDirEffect : ∀ ph ∈ [Phase.dirTx, .dirRx, .wDirTx],
    (taking { idle with phase := ph } []).running = some 0 ∧
    (taking { idle with phase := ph } []).transceiver 0 = some { idle with phase := ph } ∧
    ((taking { idle with phase := ph } []).bus 0).initialized = true := by decide

theorem witness_PinMovesOnlyBySetDir :
    (after (step (moving (.sequencer 0) (small { idle with phase := .dirTx } [])))).map
      (fun s => (s.bus 0).direction) = some .transmit ∧
    ((small { idle with phase := .dirTx } []).bus 0).initialized = true ∧
    ((small { idle with phase := .dirTx } []).bus 0).direction = .unset := by decide

theorem witness_InitializedBusStays : (after (step (moving (.clock 1) (small idle [])))).isSome = true ∧
    ((small idle []).bus 0).initialized = true ∧ ((small idle []).bus 0).pin = .output false := by decide

theorem witness_ConstructEffect : (small idle []).ctx = .stallTolerant ∧ paramsValid (small idle []).params = true ∧
    ((small idle []).uart 0).baud ≠ 0#32 ∧ (small idle []).transceiver 1 = none ∧ (small idle []).faulted = false ∧
    ((small idle []).transceiver 0).map (·.phase) = some .idle := by decide

theorem witness_ConfigurationReadOnly : (small idle []).transceiver 0 = some idle ∧
    (after (step (moving (.environment (.configure 0 9600#32)) (small idle [])))).isSome = true := by decide

theorem witness_TransactStarts : issuable (small idle []) = true ∧
    ([0x05#8, 0x00#8, 0x10#8] : List Byte).length = 2 + 1 ∧ 1 ≤ 1 := by decide

theorem witness_FlushDiscardsPending : ∀ ph ∈ [Phase.preFlush, .postFlush],
    (taking { idle with phase := ph } [0x11#8]).transceiver 0 = some { idle with phase := ph } ∧
    ((taking { idle with phase := ph } [0x11#8]).uart 0).rx = [0x11#8] := by decide

theorem witness_TxByteEffect : ∀ h ∈ [Hold.free, .started, .completed],
    (taking { idle with phase := .wTx 7, hold := h, job := .write (List.replicate 8 0#8) } []).transceiver 0 =
      some { idle with phase := .wTx 7, hold := h, job := .write (List.replicate 8 0#8) } ∧
    { idle with phase := .wTx 7, hold := h, job := .write (List.replicate 8 0#8) }.datagram =
      some (List.replicate 8 0#8) ∧ (List.replicate 8 0#8)[7]? = some 0#8 := by decide

theorem witness_WaitEffect : ∀ ph ∈ [Phase.turnaround, .replyWait, .wReplyWait],
    ∀ h ∈ [Hold.free, .started, .completed],
      (taking { idle with phase := ph, hold := h } []).transceiver 0 = some { idle with phase := ph, hold := h } := by
  decide

theorem witness_PostFlushReturnsResult :
    (taking { scanning with phase := .postFlush, result := some .noReply } []).transceiver 0 =
      some { scanning with phase := .postFlush, result := some .noReply } ∧
    ((taking { scanning with phase := .postFlush, result := some .noReply } []).uart 0).rx = [] := by decide

theorem witness_ScanEnterEffect :
    (taking (reading .scanEnter) []).transceiver 0 = some (reading .scanEnter) ∧
    (reading .scanEnter).req = some [0x05#8, 0x00#8, 0x10#8, 0x70#8] ∧
    (taking { scanning with phase := .scanEnter } []).transceiver 0 = some { scanning with phase := .scanEnter } := by
  decide

/-- The budget at its end with the clock changed, an empty FIFO, and a byte waiting. -/
theorem witness_ScanPollEffect : ∀ s ∈ [late (taking scanning []), taking scanning [], taking scanning [0x05#8]],
    s.transceiver 0 = some scanning ∧ scanning.budget = some 1 ∧ scanning.lastMs = some 0#32 := by decide

theorem witness_CaptureEnterEffect :
    (taking { idle with phase := .captureEnter, window := some 0xFFFFFF#24 } []).transceiver 0 =
      some { idle with phase := .captureEnter, window := some 0xFFFFFF#24 } := by decide

/-- As for the scan, and the last byte. -/
theorem witness_CapturePollEffect :
    (∀ s ∈ [late (taking capturing []), taking capturing [], taking capturing [0x05#8]],
      s.transceiver 0 = some capturing) ∧
    (taking { capturing with capCount := some 4 } [0xA7#8]).transceiver 0 =
      some { capturing with capCount := some 4 } := by decide

/-- No shorter beginning of `05 FF 10` ends in that header. -/
theorem header_first {m : Nat} (h0 : 0 < m) (h3 : m < 3) :
    ¬ endsInHeader 0x05#8 0x10#8 (([0x05#8, replyMarker, 0x10#8] : List Byte).take m) := by
  rintro ⟨front, h⟩
  have h := congrArg List.reverse h
  obtain rfl | rfl : m = 1 ∨ m = 2 := by omega
  · simp [replyMarker] at h
  · simp [replyMarker] at h

theorem witness_ScanLocksOnFirstHeader :
    (taking scanning [0x05#8, 0xFF#8, 0x10#8, 0x00#8]).transceiver 0 = some scanning ∧
    scanning.target = some (targetOf 0x05#8 0x10#8) ∧
    ((taking scanning [0x05#8, 0xFF#8, 0x10#8, 0x00#8]).uart 0).rx = [0x05#8, 0xFF#8, 0x10#8] ++ [0x00#8] ∧
    endsInHeader 0x05#8 0x10#8 [0x05#8, 0xFF#8, 0x10#8] ∧
    ∀ k, 0 < k → k < 3 → ¬ endsInHeader 0x05#8 0x10#8 (([0x05#8, 0xFF#8, 0x10#8] : List Byte).take k) :=
  ⟨by decide, by decide, by decide, ⟨[0#8, 0#8, 0#8], rfl⟩, fun _ h0 h3 => header_first h0 h3⟩

theorem witness_CaptureAssemblesFrame :
    capturing.acc = some ((0x05#8 ++ 0xFF#8 ++ 0x10#8 : BitVec 24).setWidth 64) ∧
    ((taking capturing [0x00#8, 0x00#8, 0x01#8, 0x2C#8, 0xA7#8]).uart 0).rx =
      [0x00#8, 0x00#8, 0x01#8, 0x2C#8, 0xA7#8] ++ [] ∧
    (taking capturing [0x00#8, 0x00#8, 0x01#8, 0x2C#8, 0xA7#8]).transceiver 0 = some capturing := by decide

/-- A clock that jumps by 3, two polls that see it at once, a jump by 1 across nothing, and the poll that sees it. -/
def quietRun : List Move := [.clock 3, .sequencer 0, .sequencer 0, .clock 1, .sequencer 0]

/-- The first clause with no move, with one poll on a still clock and one change short of the budget 2; the second with the budget
1 and the budget 2 at their ends. -/
theorem witness_SilentScanTimesOut :
    (small scanning []).transceiver 0 = some scanning ∧ scanning.stopped = false ∧ scanning.phase = .scan ∧
    scanning.budget = some 1 ∧
    scanning.lastMs = some 0#32 ∧ ((small scanning []).uart 0).rx = [] ∧
    changesSeen [] (small scanning []).clk 0#32 = 0 ∧
    changesSeen [.sequencer 0] (small scanning []).clk 0#32 = 0 ∧
    changesSeen [.clock 3, .sequencer 0, .sequencer 0] (small scanning []).clk 0#32 = 1 ∧
    changesSeen quietRun (small scanning []).clk 0#32 = 2 ∧
    quietRun = [.clock 3, .sequencer 0, .sequencer 0, .clock 1] ++ [.sequencer 0] ∧
    changesSeen [.clock 3, .sequencer 0, .sequencer 0, .clock 1] (small scanning []).clk 0#32 = 1 ∧
    changesSeen [.clock 1] (small scanning []).clk 0#32 = 0 ∧
    changesSeen [.clock 1, .sequencer 0] (small scanning []).clk 0#32 = 1 ∧
    quietMoves 0 quietRun := by
  refine ⟨by decide, by decide, by decide, by decide, by decide, by decide, by decide, by decide, by decide, by decide,
    by decide, by decide, by decide, by decide, ?_⟩
  intro m hm
  simp only [quietRun, List.mem_cons, List.not_mem_nil, or_false] at hm
  obtain rfl | rfl | rfl | rfl | rfl := hm
  · exact .inr ⟨3, rfl⟩
  · exact .inl rfl
  · exact .inl rfl
  · exact .inr ⟨1, rfl⟩
  · exact .inl rfl

theorem witness_PollsLeaveBusAndFlag :
    (after (exec .scanPoll (taking scanning [0x05#8]))).isSome = true ∧
    (taking scanning [0x05#8]).transceiver 0 = some scanning := by decide

/-- VA1, VA2 and VA9: each of the three verdicts. -/
theorem witness_ValidateVerdict : State.reset.running = none ∧ State.reset.ctx = .stallTolerant ∧
    State.reset.params.crc = .trinamic ∧
    crc8 .trinamic [0x05#8, 0xFF#8, 0x10#8, 0x00#8, 0x00#8, 0x01#8, 0x2C#8] = 0xA7#8 ∧
    crc8 .trinamic [0x05#8, 0xFF#8, 0x10#8, 0x00#8, 0x00#8, 0x01#8, 0x2C#8] ≠ 0xA6#8 ∧
    crc8 .trinamic [0x05#8, 0xFF#8, 0x10#8, 0x00#8, 0x00#8, 0x00#8, 0x7A#8] = 0x00#8 ∧
    [0#8, 0#8, 0#8, 0#8, 0#8, 0#8, 0#8] = List.replicate 7 0#8 ∧ paramsValid State.reset.params = true := by decide +kernel

/-- A byte 7 on each side of 0, and VA9's frame with the checksum 0. -/
theorem witness_ZeroChecksumsRejected : (0x01#8 : Byte) ≠ 0#8 ∧ (0x00#8 : Byte) = 0#8 ∧
    crc8 .trinamic [0x05#8, 0xFF#8, 0x10#8, 0x00#8, 0x00#8, 0x00#8, 0x7A#8] = 0#8 := by decide +kernel

theorem witness_SingleBitFlipRejected : verdictOf .trinamic 0x05FF100000012CA7#64 = .accept 0x0000012C#32 ∧
    8 ≤ 8 ∧ 63 < 64 := by decide +kernel

theorem witness_ReadStarts : issuable (small idle []) = true ∧ (0x7F#8 : Byte).toNat ≤ 0x7F := by decide

/-- VA1 accepted, VA2 rejected with an attempt left and with none. -/
theorem witness_ValidatePhaseEndsAttempt :
    verdictOf State.reset.params.crc 0x05FF100000012CA7#64 = .accept 0x0000012C#32 ∧
    verdictOf State.reset.params.crc 0x05FF100000012CA6#64 = .reject .checksumMismatch ∧
    0 + 1 < State.reset.params.maxRetries ∧ State.reset.params.maxRetries ≤ 1 + 1 ∧
    (∀ k ∈ [1, 2],
      (taking { reading .validate with result := some (.frame 0#64), attempt := some k } []).transceiver 0 =
        some { reading .validate with result := some (.frame 0#64), attempt := some k }) := by decide +kernel

theorem witness_PostFlushEndsReadTransaction : ∀ r ∈ [TransactResult.noReply, .incompleteFrame, .frame 0#64],
    ∀ k ∈ [0, 1],
      (taking { reading .postFlush with result := some r, attempt := some k } []).transceiver 0 =
        some { reading .postFlush with result := some r, attempt := some k } := by decide

theorem witness_WriteStarts : issuable (small idle []) = true ∧ (0x00#8 : Byte).toNat ≤ 0x7F := by decide

theorem witness_WriteReleasesBus : ∀ h ∈ [Hold.free, .started, .completed, .passed],
    (releasing (taking { idle with phase := .wEnd, hold := h } [])).transceiver 0 =
      some { idle with phase := .wEnd, hold := h } ∧
    (releasing (taking { idle with phase := .wEnd, hold := h } [])).params.writeEnd = .release := by decide

/-- Both ends of a WRITE. -/
theorem witness_WriteRunsToEnd : ∀ s ∈ [small idle [], releasing (small idle [])],
    issuable s = true ∧
    ({ s with
      program := encode (.write 0 0x10#8 0x00011F0A#32)
      schedule := .caller .stallTolerant :: writeMoves 0 s.params.writeEnd } : State).schedule =
        .caller .stallTolerant :: writeMoves 0 s.params.writeEnd ++ [] := by decide

/-- The §8 reply, without noise. -/
theorem witness_ReadReturnsGenuineReply :
    (small (reading .scanEnter) [0x05#8, 0xFF#8, 0x10#8, 0x00#8, 0x00#8, 0x01#8, 0x2C#8, 0xA7#8]).transceiver 0 =
      some (reading .scanEnter) ∧
    (reading .scanEnter).stopped = false ∧
    ((small (reading .scanEnter) [0x05#8, 0xFF#8, 0x10#8, 0x00#8, 0x00#8, 0x01#8, 0x2C#8, 0xA7#8]).uart 0).rx =
      [] ++ [0x05#8, replyMarker, 0x10#8] ++ [0x00#8, 0x00#8, 0x01#8, 0x2C#8, 0xA7#8] ∧
    crc8 .trinamic [0x05#8, replyMarker, 0x10#8, 0x00#8, 0x00#8, 0x01#8, 0x2C#8] = 0xA7#8 ∧
    ∀ m, 0 < m → m < 3 → ¬ endsInHeader 0x05#8 0x10#8 (([] ++ [0x05#8, replyMarker, 0x10#8]).take m) :=
  ⟨by decide, rfl, by decide, by decide +kernel, fun _ h0 h3 => header_first h0 h3⟩

/-- A caller in the wrong context, a bad parameter, no transceiver, a busy one, a bad register, a busy bus. -/
theorem witness_ReadWritePreconditions :
    ({ small idle [] with ctx := .realTime } : State).ctx = .realTime ∧
    paramsValid { State.reset.params with maxRetries := 0 } = false ∧
    (small idle []).transceiver 1 = none ∧
    ((small scanning []).transceiver 0).map (·.phase) = some .scan ∧ 0x7F < (0x80#8 : Byte).toNat ∧
    ({ small idle [] with buses := [(0, { bus with busy := true })] } : State).contended 0 = true := by decide

theorem witness_TransactPreconditions :
    paramsValid State.reset.params = true ∧ State.reset.ctx = .stallTolerant ∧
    (small idle []).transceiver 1 = none ∧ (small idle []).transceiver 0 = some idle ∧
    ((small scanning []).transceiver 0).map (·.phase) = some .scan ∧
    ([0x05#8, 0x70#8] : List Byte).length = 1 + 1 ∧ ([0x05#8, 0x00#8, 0x10#8] : List Byte).length ≠ 3 + 1 := by decide

theorem witness_ConstructPreconditions : ((small scanning []).transceiver 0).map (·.phase) = some .scan ∧
    State.reset.transceiver 0 = none ∧ (State.reset.uart 0).baud = 0#32 := by decide

/-- Each of the six operations, and both ways to be refused. -/
theorem witness_HostOperationsRefused :
    (∀ i ∈ [Instr.busInit 0 none, .construct 0 0 0 0#8 0 none, .read 0 0#8, .write 0 0#8 0#32, .transact 0 [] 0 0,
        .validate 0#64],
      (encode i).head? ∈ [some 0x01#8, some 0x02#8, some 0x03#8, some 0x04#8, some 0x05#8, some 0x06#8] ∧
      i.format = .operation) ∧
    ({ small idle [] with ctx := .realTime } : State).running = none ∧ (small idle []).ctx = .stallTolerant ∧
    paramsValid { (small idle []).params with abortWindow := 0 } = false := by decide

theorem witness_RecordsOnlyGrow : (after (step (moving (.sequencer 0) (small scanning [0x05#8])))).isSome = true := by decide

theorem witness_CallerStepRunsDecoded :
    decode .operation (encode (.read 0 0x10#8) ++ [0x11#8]) = .ok (.read 0 0x10#8, [0x11#8]) ∧
    (moving (.caller .realTime) State.reset).schedule = [.caller .realTime] := by decide

theorem witness_SequencerStepRunsPhase :
    (moving (.sequencer 0) (small scanning [])).transceiver 0 = some scanning ∧ scanning.stopped = false ∧
    microOp State.reset.params scanning = some .scanPoll ∧
    (moving (.sequencer 0) (small (halting scanning) [])).transceiver 0 = some (halting scanning) ∧
    (small { idle with phase := .wEnd } []).params.writeEnd = .hold ∧
    (moving (.evaluate 0 (.crc8 [])) (small scanning [])).schedule = [.evaluate 0 (.crc8 [])] := by decide

theorem witness_EnvironmentDelivers :
    (moving (.environment (.deliver 3 [0x37#8])) State.reset).schedule = [.environment (.deliver 3 [0x37#8])] ∧
    (moving (.environment (.configure 0 9600#32)) (small idle [0x37#8])).schedule =
      [.environment (.configure 0 9600#32)] := by decide

theorem witness_FrameRowsArrive : (Instr.reply 0#7 0#32 0#8).format = .frame ∧
    (Instr.readReq 0#8 0#7 0#8).format = .frame := by decide

/-- Both completions, and the clock's wrap. -/
theorem witness_ClockAndCompletions :
    (moving (.clock 1) { State.reset with clk := 0xFFFFFFFF#32 }).schedule = [.clock 1] ∧
    (small { idle with phase := .tx 0, hold := .started } []).transceiver 0 =
      some { idle with phase := .tx 0, hold := .started } ∧
    (small { idle with phase := .wEnd, hold := .started } []).transceiver 0 =
      some { idle with phase := .wEnd, hold := .started } ∧
    (small idle []).transceiver 0 = some idle := by decide

theorem witness_MicroStepsOnlyBySequencer :
    ∀ i ∈ [Instr.setDir .transmit, .flush, .txByte 0, .wait 0, .scanEnter, .scanPoll, .captureEnter, .capturePoll,
        .buildReadReq 0#8 0x7F#8, .buildWrite 0#8 0xFF#8 0#32, .crc8 [0x05#8], .turnaround 0#32],
      decode .operation (encode i) = .ok (i, []) := by decide

/-- Another agent's move, and the sequencer's own after a fault has stopped its operation. -/
theorem witness_PhaseMovesOnlyBySequencer :
    (small scanning []).transceiver 0 = some scanning ∧ scanning.phase ≠ .idle ∧
    (after (step (moving (.sequencer 1) (small scanning [])))).isSome = true ∧
    (small (halting scanning) []).transceiver 0 = some (halting scanning) ∧
    (after (step (moving (.sequencer 0) (small (halting scanning) [])))).isSome = true := by decide

theorem witness_SequencerTouchesOwn :
    (after (step (moving (.sequencer 0) (small scanning [0x05#8])))).isSome = true ∧
    microOp State.reset.params { idle with phase := .dirTx } = some (.setDir .transmit) ∧
    ((small { idle with phase := .dirTx } []).bus 0).initialized = true ∧
    (after (step (moving (.sequencer 0) (small { idle with phase := .dirTx } [])))).isSome = true := by decide

theorem witness_StepKeepsTablesCanonical : (small scanning []).wf = true ∧
    (after (step (moving (.sequencer 0) (small scanning [])))).isSome = true := by decide

/-- A scan in flight meets the invariant of the latches. -/
theorem witness_StepKeepsLatches : LatchesFit (moving (.sequencer 0) (small scanning [])) ∧
    (after (step (moving (.sequencer 0) (small scanning [])))).isSome = true := by
  refine ⟨?_, by decide⟩
  intro t T h
  obtain ⟨-, rfl⟩ := transceiver_small (T := scanning) (rx := []) h
  exact ⟨⟨by decide, by decide, by decide⟩, rfl, ⟨⟨1, rfl, by decide⟩, rfl⟩, rfl, rfl⟩

/-- Every read of a register that no step has written: the record and the bytes that wait. -/
def unwrittenReads : List (Transceiver × List Byte) :=
  [({ reading (.tx 0) with req := none }, []), ({ reading (.tx 0) with req := none, hold := .completed }, []),
    ({ reading (.wTx 0) with req := none }, []), ({ reading .scanEnter with req := none }, []),
    ({ scanning with budget := none }, []), ({ scanning with lastMs := none }, []),
    ({ scanning with window := none }, [0x05#8]), ({ scanning with target := none }, [0x05#8]),
    ({ idle with phase := .captureEnter }, []), ({ capturing with budget := none }, []),
    ({ capturing with acc := none }, [0x05#8]), ({ capturing with capCount := none }, [0x05#8]),
    (reading .postFlush, []), ({ reading .postFlush with result := some .noReply, attempt := none }, []),
    ({ scanning with phase := .postFlush }, []), (reading .validate, []),
    ({ reading .validate with result := some (.frame 0#64), attempt := none }, [])]

/-- A fit state; and each read of an unwritten register, where it is recorded (R44). -/
theorem witness_NoRegisterReadUnwritten : LatchesFit (moving (.sequencer 0) (small scanning [])) ∧
    (∀ T : Transceiver, T = { scanning with window := none } → T.readsUnwritten (small T [0x05#8])) ∧
    ∀ e ∈ unwrittenReads, e.1.stopped = false ∧
      (moving (.sequencer 0) (small e.1 e.2)).transceiver 0 = some e.1 ∧
      faults (step (moving (.sequencer 0) (small e.1 e.2))) = some [.unwritten] :=
  ⟨witness_StepKeepsLatches.1,
    fun _ h => h ▸ .inr (.inr ⟨.inl rfl, ⟨1, 0#32, rfl, rfl, by decide⟩, by decide⟩),
    by decide⟩

theorem witness_StepKeepsOneInFlight : OneInFlight (moving (.sequencer 0) (small scanning [])) := by
  refine ⟨?_, ?_, ?_⟩
  · intro t T h _
    obtain ⟨-, rfl⟩ := transceiver_small (T := scanning) (rx := []) h
    decide
  · intro t T k K h g _ _ _
    rw [(transceiver_small (T := scanning) (rx := []) h).1, (transceiver_small (T := scanning) (rx := []) g).1]
  · intro b h
    refine ⟨0, scanning, rfl, by decide, ?_⟩
    by_cases hb : 0 = b
    · exact hb
    · simp [moving, small, State.bus, Table.read, Table.find, hb, Bus.start] at h

theorem witness_StepKeepsPins : PinsFit (moving (.sequencer 0) (small scanning [])) := by
  intro b
  by_cases hb : 0 = b
  · simp [moving, small, State.bus, Table.read, Table.find, hb, bus]
  · simp [moving, small, State.bus, Table.read, Table.find, hb, Bus.start]

theorem witness_StepKeepsDelays : DelaysFit (moving (.sequencer 0) (small scanning [])) := by
  intro t T h
  obtain ⟨-, rfl⟩ := transceiver_small (T := scanning) (rx := []) h
  exact ⟨by decide, rfl⟩

end Sys2Proof.Tests
end

/-! PROOFS of the statements of the family `10_state.md`. -/

namespace Sys2Proof.Machine

/-! ### Invariants of the step -/

/-- A property that the schedule does not touch and that no agent's move breaks is kept by every step. -/
theorem step_keeps {P : State → Prop} (hs : ∀ s moves, P s → P { s with schedule := moves })
    (hm : ∀ s m s', Stepped s m s' → P s → P s') {s s' : State} (h : step s = .next s') (hP : P s) : P s' := by
  obtain ⟨-, rfl⟩ | ⟨m, moves, -, hmove⟩ := step_next h
  · exact hP
  · exact hm _ m s' hmove (hs s moves hP)

/-! ### Canonical tables -/

section Canonical

variable {s s' : State} {t : Nat} {T : Transceiver}

theorem State.wf_endOperation (t : Nat) (T : Transceiver) (a : Answer) (h : s.wf = true) :
    (s.endOperation t T a).wf = true :=
  State.wf_setTransceiver t _ (State.wf_setBus T.bus _ h)

theorem State.wf_startOperation (t : Nat) (T : Transceiver) (h : s.wf = true) : (s.startOperation t T).wf = true :=
  State.wf_setTransceiver t _ (State.wf_setBus T.bus _ h)

theorem State.wf_failAttempt (t : Nat) (T : Transceiver) (k : Nat) (kind : ErrorKind) (h : s.wf = true) :
    (s.failAttempt t T k kind).wf = true := by
  obtain ⟨-, e⟩ | ⟨-, e⟩ := State.failAttempt_cases s t T k kind <;> rw [e]
  · exact State.wf_setTransceiver t _ h
  · exact State.wf_endOperation t _ _ h

theorem State.wf_setDirection (b : Nat) (d : Dir) (h : s.wf = true) : (s.setDirection b d).wf = true := by
  obtain ⟨-, e⟩ | ⟨-, e⟩ := State.setDirection_cases s b d <;> rw [e]
  · exact State.wf_setBus b _ h
  · exact h

theorem State.wf_initBus (b : Nat) (pin : Option Nat) (h : s.wf = true) : (s.initBus b pin).wf = true := by
  obtain ⟨-, e⟩ | ⟨-, n, -, e⟩ | ⟨-, -, e⟩ := State.initBus_cases s b pin <;> rw [e]
  · exact h
  · exact State.wf_setBus b _ h
  · exact h

theorem State.wf_ticked (ticked : Bool) (h : s.wf = true) : (if ticked then s.emit Event.tick else s).wf = true := by
  cases ticked <;> exact h

theorem Moved.wf (h : Moved s t T s') (hw : s.wf = true) : s'.wf = true := by
  cases h
  case stay => exact hw
  case unwritten | asked | flushed | framed | waited | passed | scanEntered | captureEntered =>
    exact State.wf_setTransceiver t _ hw
  case discarded | sent => exact State.wf_setTransceiver t _ (State.wf_setUart T.uart _ hw)
  case returned | ended | accepted => exact State.wf_endOperation t _ _ hw
  case lost | rejected => exact State.wf_failAttempt t _ _ _ hw
  case directed => exact State.wf_setTransceiver t _ (State.wf_setDirection T.bus _ hw)
  case released => exact State.wf_endOperation t _ _ (State.wf_setDirection T.bus _ hw)
  case expired | empty => exact State.wf_setTransceiver t _ (State.wf_ticked _ hw)
  case received => exact State.wf_setTransceiver t _ (State.wf_setUart T.uart _ (State.wf_ticked _ hw))

theorem Issued.wf {i : Instr} (h : Issued s i s') (hw : s.wf = true) : s'.wf = true := by
  cases h
  case raised | answered => exact hw
  case init => exact State.wf_initBus _ _ hw
  case constructed => exact State.wf_setTransceiver _ _ (State.wf_initBus _ _ hw)
  case reads | writes | transacts => exact State.wf_startOperation _ _ hw

theorem Stepped.wf {m : Move} (h : Stepped s m s') (hw : s.wf = true) : s'.wf = true := by
  cases h
  case noProgram | noTransceiver | outOfRange | halted | nothing | clocked => exact hw
  case issued h => exact Issued.wf h hw
  case moved h => exact Moved.wf h hw
  case evaluated | completed => exact State.wf_setTransceiver _ _ hw
  case delivered | configured => exact State.wf_setUart _ _ hw

end Canonical

/-- Settles O55: every update a move is made of writes a table by `Table.write` or `Table.insert`. -/
theorem stepKeepsTablesCanonical : Obligations.StepKeepsTablesCanonical := by
  intro s s' hw h
  exact step_keeps (P := fun s => s.wf = true) (fun _ _ h => h) (fun _ _ _ h => h.wf) h hw

end Sys2Proof.Machine

namespace Sys2Proof.Machine

/-! ### Latches and phases -/

section Latches

variable {p : Params} {T : Transceiver}

theorem Transceiver.datagram_of_read (hj : T.job = .read) : T.datagram = T.req := by
  simp only [Transceiver.datagram, hj]

theorem Transceiver.datagram_of_direct {dg : List Byte} {n : Nat} (hj : T.job = .direct dg n) :
    T.datagram = some dg := by
  simp only [Transceiver.datagram, hj]

theorem Transceiver.scanBudget_of_read (hj : T.job = .read) : T.scanBudget p = some p.scanTimeout := by
  simp only [Transceiver.scanBudget, hj]

theorem Transceiver.scanBudget_of_direct {dg : List Byte} {n : Nat} (hj : T.job = .direct dg n) :
    T.scanBudget p = some n := by
  simp only [Transceiver.scanBudget, hj]

theorem Transceiver.inTransaction.datagram_eq (h : T.inTransaction p) :
    ∃ dg, T.datagram = some dg ∧ 3 ≤ dg.length := by
  obtain ⟨-, h⟩ := h
  split at h <;> rename_i hj
  · obtain ⟨⟨q, hq, hl⟩, -⟩ := h
    exact ⟨q, (Transceiver.datagram_of_read hj).trans hq, by omega⟩
  · exact ⟨_, Transceiver.datagram_of_direct hj, h.1⟩
  · exact h.elim

theorem Transceiver.inTransaction.byteAt_eq (h : T.inTransaction p) {i : Nat} (hi : i < 3) :
    ∃ b, T.byteAt i = some b := by
  obtain ⟨dg, hd, hl⟩ := h.datagram_eq
  exact ⟨dg[i]'(by omega), by simp [Transceiver.byteAt, hd]⟩

theorem Transceiver.inTransaction.scanBudget_eq (h : T.inTransaction p) : ∃ n, T.scanBudget p = some n ∧ 1 ≤ n := by
  obtain ⟨hv, h⟩ := h
  split at h <;> rename_i hj
  · simp only [paramsValid, Bool.and_eq_true, decide_eq_true_eq] at hv
    exact ⟨_, Transceiver.scanBudget_of_read hj, hv.1.2⟩
  · exact ⟨_, Transceiver.scanBudget_of_direct hj, h.2⟩
  · exact h.elim

theorem Transceiver.inTransaction.read (h : T.inTransaction p) (hj : T.job = .read) :
    paramsValid p = true ∧ (∃ q, T.req = some q ∧ q.length = 4) ∧ ∃ k, T.attempt = some k ∧ k < p.maxRetries := by
  obtain ⟨hv, h⟩ := h
  simp only [hj] at h
  exact ⟨hv, h⟩

theorem Transceiver.inWrite.byteAt_eq (h : T.inWrite) {i : Nat} (hi : i < 8) : ∃ b, T.byteAt i = some b := by
  obtain ⟨f, hj, hl⟩ := h
  exact ⟨f[i]'(by omega), by simp [Transceiver.byteAt, Transceiver.datagram, hj]⟩

/-- Asking for a write or a wait and completing it keep the latches fit. -/
theorem Transceiver.consistent.setHold (h : T.consistent p) (hp : T.phase.sends = true ∨ T.phase.waits = true)
    {hold : Hold} (hh : hold ≠ .passed) : { T with hold := hold }.consistent p := by
  cases hph : T.phase <;> simp [hph, Phase.sends, Phase.waits] at hp <;>
    simp only [Transceiver.consistent, hph] at h ⊢
  case tx => exact ⟨h.1, h.2.1, hh⟩
  case wTx => exact ⟨h.1, h.2.1, hh⟩
  case turnaround | replyWait | wReplyWait => exact ⟨h.1, hh⟩
  case wEnd => exact h

/-- A tick writes the budget and the clock value it was taken at. -/
theorem Transceiver.tick_record {T' : Transceiver} {now : Word} {b : Bool} (h : T.tick now = some (T', b)) :
    ∃ n, T' = { T with budget := some n, lastMs := some now } := by
  obtain ⟨n, ms, hb, hm, ⟨rfl, rfl, -⟩ | ⟨-, rfl, -⟩⟩ := Transceiver.tick_some h
  · exact ⟨n, by rw [← hb, ← hm]⟩
  · exact ⟨n - 1, rfl⟩

/-- Fit latches hold every register that the phase reads (10_state.md R44). -/
theorem Transceiver.consistent.not_readsUnwritten (h : T.consistent p) (s : State) : ¬ T.readsUnwritten s := by
  intro hr
  cases hp : T.phase <;> simp only [Transceiver.readsUnwritten, hp] at hr <;>
    simp only [Transceiver.consistent, hp] at h
  case tx =>
    obtain ⟨hj, hq, -⟩ := hr
    obtain ⟨-, ⟨q, hq', -⟩, -⟩ := h.1.read hj
    simp [hq] at hq'
  case wTx =>
    obtain ⟨f, hj, -⟩ := h.1
    simp [hr.1] at hj
  case scanEnter =>
    obtain ⟨-, ⟨q, hq', -⟩, -⟩ := h.1.read hr.1
    simp [hr.2] at hq'
  case scan =>
    obtain ⟨-, -, ⟨⟨n, hb, -⟩, hm⟩, hw, hg⟩ := h
    obtain hr | hr | ⟨hr | hr, -⟩ := hr <;> simp [hr] at hb hm hw hg
  case captureEnter => simp [hr] at h
  case capture =>
    obtain ⟨-, -, ⟨⟨n, hb, -⟩, hm⟩, ha, k, hk, -⟩ := h
    obtain hr | hr | ⟨hr | hr, -⟩ := hr <;> simp [hr] at hb hm ha hk
  case postFlush =>
    obtain ⟨hin, -, hres⟩ := h
    obtain ⟨-, ⟨hj, hr | hr⟩ | ⟨-, hr⟩⟩ := hr
    · simp [hr] at hres
    · obtain ⟨-, -, k, hk, -⟩ := hin.read hj
      simp [hr] at hk
    · simp [hr] at hres
  case validate =>
    obtain ⟨-, -, -, -, ⟨k, hk, -⟩, f, hf⟩ := h
    obtain hr | ⟨-, hr⟩ := hr
    · simp [hr] at hf
    · simp [hr] at hk

end Latches

/-! ### What a sequencer's move makes of fit latches -/

section MovedLatches

variable {s s' : State} {t : Nat} {T : Transceiver}

/-- The record of `t` in `s` is there, and its latches fit. -/
def State.fitAt (s : State) (t : Nat) (p : Params) : Prop := ∃ T, s.transceiver t = some T ∧ T.consistent p

theorem State.fitAt_setTransceiver {p : Params} (h : T.consistent p) : (s.setTransceiver t T).fitAt t p :=
  ⟨T, State.transceiver_setTransceiver_same s t T, h⟩

/-- An operation ends with latches that fit `Idle`. -/
theorem State.fitAt_endOperation (a : Answer) (p : Params) : (s.endOperation t T a).fitAt t p :=
  ⟨_, State.endOperation_transceiver_same s t T a, rfl, rfl, rfl⟩

/-- A failed attempt that is counted leaves latches that fit the next one, or ends READ. -/
theorem State.fitAt_failAttempt {k : Nat} (kind : ErrorKind) (hj : T.job = .read) (hh : T.hold = .free)
    (hv : paramsValid s.params = true) (hq : ∃ q, T.req = some q ∧ q.length = 4) (hk : T.attempt = some (k + 1)) :
    (s.failAttempt t T k kind).fitAt t s.params := by
  obtain ⟨hlt, e⟩ | ⟨-, e⟩ := State.failAttempt_cases s t T k kind <;> rw [e]
  · refine State.fitAt_setTransceiver ⟨⟨hv, ?_⟩, hh⟩
    simp only [hj]
    exact ⟨hq, k + 1, hk, hlt⟩
  · exact State.fitAt_endOperation _ _

/-- A byte of the scan leaves latches that fit the scan or its lock. -/
theorem consistent_scanByte {p : Params} {T' : Transceiver} {b : Byte} (hin : T.inTransaction p) (hh : T.hold = .free)
    (hc : T.counting) (h : scanByte T b = some T') : T'.consistent p := by
  unfold scanByte at h
  split at h <;> cases h
  rename_i w g hw hg
  by_cases hl : shiftWindow w b = g
  · simp only [if_pos hl]
    exact ⟨hin, hh, rfl, hc.2⟩
  · simp only [if_neg hl]
    exact ⟨hin, hh, hc, rfl, by simp [hg]⟩

/-- A byte of the capture leaves latches that fit the capture or, with the fifth, PostFlush. -/
theorem consistent_captureByte {p : Params} {T' : Transceiver} {b : Byte} (hin : T.inTransaction p)
    (hh : T.hold = .free) (hc : T.counting) (hn : ∀ n, T.capCount = some n → n < captureLen)
    (h : captureByte T b = some T') : T'.consistent p := by
  unfold captureByte at h
  split at h
  · rename_i a n ha hk
    have hn := hn n hk
    split at h <;> cases h
    · exact ⟨hin, hh, rfl⟩
    · exact ⟨hin, hh, hc, rfl, n + 1, rfl, by omega⟩
  · cases h

/-- Every move of a sequencer keeps the latches of its transceiver fit for the phase. -/
theorem Moved.fitAt (hT : s.transceiver t = some T) (hc : T.consistent s.params) (h : Moved s t T s') :
    s'.fitAt t s.params := by
  cases h
  case stay => exact ⟨T, hT, hc⟩
  case unwritten h => exact absurd h (hc.not_readsUnwritten s)
  case asked hp hh => exact State.fitAt_setTransceiver (hc.setHold hp (by simp))
  case discarded hp _ => exact State.fitAt_setTransceiver hc
  case flushed hp _ =>
    simp only [Transceiver.consistent, hp] at hc
    exact State.fitAt_setTransceiver hc
  case returned | ended | released | accepted => exact State.fitAt_endOperation _ _
  case framed f k hp _ hj hr hk =>
    simp only [Transceiver.consistent, hp] at hc
    obtain ⟨hin, hh, -⟩ := hc
    obtain ⟨hv, hq, k', hk', hlt⟩ := hin.read hj
    obtain rfl : k = k' := by simpa [hk] using hk'
    exact State.fitAt_setTransceiver ⟨hh, hv, hj, hq, ⟨k, rfl, hlt⟩, f, hr⟩
  case lost r k hp _ hj _ _ _ =>
    simp only [Transceiver.consistent, hp] at hc
    obtain ⟨hin, hh, -⟩ := hc
    obtain ⟨hv, hq, -⟩ := hin.read hj
    exact State.fitAt_failAttempt (s := s.emit (.flushed T.flushed)) (T := { T with attempt := some (k + 1) }) r.kind hj
      hh hv hq rfl
  case directed d next hp =>
    obtain ⟨hp, -, rfl⟩ | ⟨hp, -, rfl⟩ | ⟨hp, -, rfl⟩ := hp <;> simp only [Transceiver.consistent, hp] at hc <;>
      obtain ⟨hin, hh⟩ := hc
    · obtain ⟨b, hb⟩ := hin.byteAt_eq (i := 0) (by omega)
      exact State.fitAt_setTransceiver ⟨hin, Option.isSome_of_eq_some hb, by simp [hh]⟩
    · exact State.fitAt_setTransceiver ⟨hin, by simp [hh]⟩
    · exact State.fitAt_setTransceiver ⟨hin, by omega, by simp [hh]⟩
  case sent i dg b hp hh hd hb =>
    refine State.fitAt_setTransceiver ?_
    obtain hp | hp := hp <;> simp only [Transceiver.consistent, hp] at hc <;> obtain ⟨hin, hi, -⟩ := hc <;>
      rw [hp] <;> unfold Phase.afterByte <;> dsimp only <;> split
    case inl.isTrue hlt =>
      have hnext : (T.byteAt (i + 1)).isSome = true := by simpa [Transceiver.byteAt, hd] using hlt
      exact ⟨hin, hnext, by simp⟩
    case inl.isFalse => exact ⟨hin, by simp⟩
    case inr.isTrue hlt =>
      obtain ⟨f, hj, hl⟩ := id hin
      obtain rfl : f = dg := by simpa [Transceiver.datagram, hj] using hd
      exact ⟨hin, by omega, by simp⟩
    case inr.isFalse => exact ⟨hin, by simp⟩
  case waited us next hp hh =>
    obtain ⟨hp, rfl⟩ | ⟨hp, rfl⟩ | ⟨hp, rfl⟩ := hp <;> simp only [Transceiver.consistent, hp] at hc
    · exact State.fitAt_setTransceiver ⟨hc.1, rfl⟩
    · exact State.fitAt_setTransceiver ⟨hc.1, rfl⟩
    · exact State.fitAt_setTransceiver hc.1
  case passed us hp _ _ =>
    simp only [Transceiver.consistent, hp] at hc
    refine State.fitAt_setTransceiver ?_
    simp only [Transceiver.consistent, hp]
    exact hc
  case scanEntered b0 b2 n hp _ _ hn =>
    simp only [Transceiver.consistent, hp] at hc
    obtain ⟨hin, hh⟩ := hc
    obtain ⟨n', hn', hpos⟩ := hin.scanBudget_eq
    obtain rfl : n = n' := by simpa [hn] using hn'
    exact State.fitAt_setTransceiver ⟨hin, hh, ⟨⟨n, rfl, hpos⟩, rfl⟩, rfl, rfl⟩
  case captureEntered w hp _ =>
    simp only [Transceiver.consistent, hp] at hc
    obtain ⟨hin, hh, -, hm⟩ := hc
    have hv := hin.1
    simp only [paramsValid, Bool.and_eq_true, decide_eq_true_eq] at hv
    exact State.fitAt_setTransceiver ⟨hin, hh, ⟨⟨_, rfl, hv.2⟩, hm⟩, rfl, 0, rfl, by decide⟩
  case expired r T' ticked hp hk _ =>
    obtain ⟨n, rfl⟩ := Transceiver.tick_record hk
    obtain ⟨hp, -⟩ | ⟨hp, -⟩ := hp <;> simp only [Transceiver.consistent, hp] at hc <;>
      exact State.fitAt_setTransceiver ⟨hc.1, hc.2.1, rfl⟩
  case empty T' ticked hp hk h0 _ =>
    obtain ⟨n, rfl⟩ := Transceiver.tick_record hk
    have hn : 1 ≤ n := by
      have : n ≠ 0 := by simpa using h0
      omega
    refine State.fitAt_setTransceiver ?_
    obtain hp | hp := hp <;> simp only [Transceiver.consistent, hp] at hc ⊢
    · obtain ⟨hin, hh, -, hw, hg⟩ := hc
      exact ⟨hin, hh, ⟨⟨n, rfl, hn⟩, rfl⟩, hw, hg⟩
    · obtain ⟨hin, hh, -, ha, hcap⟩ := hc
      exact ⟨hin, hh, ⟨⟨n, rfl, hn⟩, rfl⟩, ha, hcap⟩
  case received b rest T' T'' ticked hp hk h0 _ =>
    obtain ⟨n, rfl⟩ := Transceiver.tick_record hk
    have hn : 1 ≤ n := by
      have : n ≠ 0 := by simpa using h0
      omega
    refine State.fitAt_setTransceiver ?_
    obtain ⟨hp, hb⟩ | ⟨hp, hb⟩ := hp <;> simp only [Transceiver.consistent, hp] at hc
    · obtain ⟨hin, hh, -⟩ := hc
      exact consistent_scanByte (T := { T with budget := some n, lastMs := some s.clk }) hin hh ⟨⟨n, rfl, hn⟩, rfl⟩ hb
    · obtain ⟨hin, hh, -, -, k, hcap, hlt⟩ := hc
      refine consistent_captureByte (T := { T with budget := some n, lastMs := some s.clk }) hin hh
        ⟨⟨n, rfl, hn⟩, rfl⟩ (fun j hj => ?_) hb
      obtain rfl : k = j := by simpa [hcap] using hj
      exact hlt
  case rejected f k kind hp _ hk _ =>
    simp only [Transceiver.consistent, hp] at hc
    obtain ⟨hh, hv, hj, hq, -⟩ := hc
    exact State.fitAt_failAttempt kind hj hh hv hq hk

end MovedLatches

end Sys2Proof.Machine

namespace Sys2Proof.Machine

/-! ### What a step makes of the record of a transceiver -/

section Records

variable {s s' : State}

@[simp] theorem State.initBus_transceiver (b : Nat) (pin : Option Nat) (k : Nat) :
    (s.initBus b pin).transceiver k = s.transceiver k := by
  obtain ⟨-, e⟩ | ⟨-, n, -, e⟩ | ⟨-, -, e⟩ := State.initBus_cases s b pin <;> rw [e]
  · rfl
  · rfl

@[simp] theorem State.initBus_uart (b : Nat) (pin : Option Nat) (u : Nat) : (s.initBus b pin).uart u = s.uart u := by
  obtain ⟨-, e⟩ | ⟨-, n, -, e⟩ | ⟨-, -, e⟩ := State.initBus_cases s b pin <;> rw [e]
  · rfl
  · rfl

@[simp] theorem State.initBus_params (b : Nat) (pin : Option Nat) : (s.initBus b pin).params = s.params := by
  obtain ⟨-, e⟩ | ⟨-, n, -, e⟩ | ⟨-, -, e⟩ := State.initBus_cases s b pin <;> rw [e]
  · rfl
  · rfl

@[simp] theorem State.initBus_faults (b : Nat) (pin : Option Nat) : (s.initBus b pin).faults = s.faults := by
  obtain ⟨-, e⟩ | ⟨-, n, -, e⟩ | ⟨-, -, e⟩ := State.initBus_cases s b pin <;> rw [e]
  · rfl
  · rfl

theorem State.initBus_busy (b : Nat) (pin : Option Nat) (k : Nat) :
    ((s.initBus b pin).bus k).busy = (s.bus k).busy := by
  obtain ⟨-, e⟩ | ⟨-, n, -, e⟩ | ⟨-, -, e⟩ := State.initBus_cases s b pin <;> rw [e]
  · rw [State.bus_setBus]
    split
    · rename_i h
      rw [h]
    · rfl
  · rfl

/-- The record `T'` of an operation that has just been issued on the idle record `T`: what the issue keeps, and that the latches
fit the first phase. -/
structure Started (p : Params) (T T' : Transceiver) : Prop where
  idle : T.phase = .idle
  cfg : T'.cfg = T.cfg
  bus : T'.bus = T.bus
  uart : T'.uart = T.uart
  running : T'.phase ≠ .idle
  fit : T'.consistent p

/-- What an issue can make of the state, whichever operation it is: READ, WRITE and TRANSACT alike start one on an idle transceiver
whose bus is free. -/
inductive IssueEffect (s : State) : State → Prop where
  | raised (f : OpFault) (hf : f ≠ .unwritten) : IssueEffect s (s.raise f)
  | init (b : Nat) (pin : Option Nat) : IssueEffect s (s.initBus b pin)
  | constructed (t uart rsense : Nat) (addr : Byte) (b : Nat) (pin : Option Nat) (hi : s.idle t = true)
      (hb : (s.uart uart).baud ≠ 0#32) :
    IssueEffect s ((s.initBus b pin).setTransceiver t (Transceiver.fresh (s.uart uart).baud uart rsense addr b))
  | started (t : Nat) (T T' : Transceiver) (hT : s.transceiver t = some T) (hb : (s.bus T'.bus).busy = false)
      (h : Started s.params T { T' with hold := .free, flushed := 0, stopped := false, answer := none }) :
    IssueEffect s (s.startOperation t T')
  | answered (a : Answer) : IssueEffect s (s.setAnswer a)

theorem Issued.effect {i : Instr} (h : Issued s i s') : IssueEffect s s' := by
  cases h
  case raised f hf => exact .raised f hf
  case init b pin => exact .init b pin
  case constructed t uart rsense addr b pin hi hb => exact .constructed t uart rsense addr b pin hi hb
  case reads t regAddr T hT hp hv hb =>
    have hm : 0 < s.params.maxRetries := by
      simp only [paramsValid, Bool.and_eq_true, decide_eq_true_eq] at hv
      omega
    exact .started t T _ hT hb ⟨hp, rfl, rfl, rfl, Phase.noConfusion,
      ⟨hv, ⟨_, rfl, by simp [readDatagram, closed]⟩, 0, rfl, hm⟩, rfl⟩
  case writes t regAddr value T hT hp hv hb =>
    exact .started t T _ hT hb ⟨hp, rfl, rfl, rfl, Phase.noConfusion,
      ⟨_, rfl, by simp [writeDatagram, closed, wordBytes]⟩, rfl⟩
  case transacts t dg payloadLen scanTimeout T hT hp hv hb hl hn =>
    exact .started t T _ hT hb ⟨hp, rfl, rfl, rfl, Phase.noConfusion, ⟨hv, hl, hn⟩, rfl⟩
  case answered f => exact .answered _

/-- What one move of an agent makes of the record of transceiver `k`: the move and the record after it. -/
inductive Rerecorded (s : State) (k : Nat) : Move → State → Option Transceiver → Prop where
  /-- The move does not touch it. -/
  | kept (m : Move) (s' : State) : Rerecorded s k m s' (s.transceiver k)
  /-- CONSTRUCT of an idle or an unused name, on a channel that is open. -/
  | constructed (ctx : Context) (s' : State) (baud : Word) (uart rsense : Nat) (addr : Byte) (b : Nat)
      (hi : s.idle k = true) (hb : baud ≠ 0#32) :
    Rerecorded s k (.caller ctx) s' (some (Transceiver.fresh baud uart rsense addr b))
  /-- An operation starts. -/
  | started (ctx : Context) (s' : State) (T T' : Transceiver) (hT : s.transceiver k = some T)
      (h : Started s.params T T') : Rerecorded s k (.caller ctx) s' (some T')
  /-- Its own sequencer moves. -/
  | moved (s' : State) (T T' : Transceiver) (r : Option Nat) (hT : s.transceiver k = some T)
      (h : Moved { s with running := r } k T s') (ho : Own { s with running := r } k T s' T') :
    Rerecorded s k (.sequencer k) s' (some T')
  /-- Its own sequencer evaluates a pure function. -/
  | evaluated (i : Instr) (s' : State) (T : Transceiver) (v : Value) (hT : s.transceiver k = some T) :
    Rerecorded s k (.evaluate k i) s' (some { T with value := some v })
  /-- Its write or wait is completed. -/
  | completed (m : Move) (s' : State) (T : Transceiver) (hT : s.transceiver k = some T)
      (hp : T.phase.sends = true ∨ T.phase.waits = true) :
    Rerecorded s k m s' (some { T with hold := .completed })

theorem Stepped.rerecorded {m : Move} (h : Stepped s m s') (k : Nat) : Rerecorded s k m s' (s'.transceiver k) := by
  cases h
  case noProgram | noTransceiver | outOfRange | halted | delivered | configured | nothing | clocked => exact .kept _ _
  case issued ctx i rest hd h =>
    cases h.effect
    case raised | answered => exact .kept _ _
    case init =>
      rw [State.initBus_transceiver]
      exact .kept _ _
    case constructed t uart rsense addr b pin hi hb =>
      rw [State.transceiver_setTransceiver, State.initBus_transceiver]
      split
      · rename_i hk
        subst hk
        exact .constructed ctx _ _ uart rsense addr b hi hb
      · exact .kept _ _
    case started t T T' hT _ hst =>
      rw [State.startOperation_transceiver]
      split
      · rename_i hk
        subst hk
        exact .started ctx _ T _ hT hst
      · exact .kept _ _
  case moved t T r hT h =>
    obtain ⟨T', ho⟩ := h.own hT
    rw [ho.transceivers]
    split
    · rename_i hk
      subst hk
      exact .moved s' T T' r hT h ho
    · exact .kept _ _
  case evaluated t T i v _ hT _ =>
    rw [State.transceiver_setTransceiver]
    split
    · rename_i hk
      subst hk
      exact .evaluated i _ T v hT
    · exact .kept _ _
  case completed t T hT hh hm =>
    rw [State.transceiver_setTransceiver]
    split
    · rename_i hk
      subst hk
      exact .completed m _ T hT (hm.imp And.right And.right)
    · exact .kept _ _

theorem Stepped.params {m : Move} (h : Stepped s m s') : s'.params = s.params := by
  cases h
  case issued h =>
    cases h.effect
    case raised | started | answered => rfl
    case init | constructed => exact State.initBus_params _ _
  case moved t T r hT h =>
    obtain ⟨T', ho⟩ := h.own hT
    exact ho.params
  all_goals rfl

end Records

/-- Settles O56: each move leaves the record it writes with latches that fit, and writes no other. -/
theorem stepKeepsLatches : Obligations.StepKeepsLatches := by
  intro s s' hfit h
  refine step_keeps (P := LatchesFit) (fun _ _ h => h) (fun s m s' h hfit k K' hK' => ?_) h hfit
  rw [h.params]
  have hk := h.rerecorded k
  rw [hK'] at hk
  generalize hr : some K' = r at hk
  cases hk
  case kept => exact hfit k K' hr.symm
  case constructed =>
    cases hr
    exact ⟨rfl, rfl, rfl⟩
  case started h =>
    cases hr
    exact h.fit
  case moved T _ r hT hm _ =>
    cases hr
    obtain ⟨T'', hT'', hc⟩ := Moved.fitAt (s := { s with running := r }) hT (hfit k T hT) hm
    cases hT''.symm.trans hK'
    exact hc
  case evaluated T v hT =>
    cases hr
    exact hfit k T hT
  case completed T hT hp =>
    cases hr
    exact (hfit k T hT).setHold hp (by simp)

/-- Settles O60: a configuration is written by CONSTRUCT alone, from an open channel's rate. -/
theorem stepKeepsDelays : Obligations.StepKeepsDelays := by
  intro s s' hfit h
  refine step_keeps (P := DelaysFit) (fun _ _ h => h) (fun s m s' h hfit k K' hK' => ?_) h hfit
  have hk := h.rerecorded k
  rw [hK'] at hk
  generalize hr : some K' = r at hk
  cases hk
  case kept => exact hfit k K' hr.symm
  case constructed hb =>
    cases hr
    exact ⟨hb, rfl⟩
  case started T _ hT h =>
    cases hr
    rw [h.cfg]
    exact hfit k T hT
  case moved T _ r hT _ ho =>
    cases hr
    rw [ho.cfg]
    exact hfit k T hT
  case evaluated T v hT =>
    cases hr
    exact hfit k T hT
  case completed T hT hp =>
    cases hr
    exact hfit k T hT

/-- Settles O51: an issue writes idle records only, another agent's move no phase, and the sequencer of a stopped operation
nothing. -/
theorem phaseMovesOnlyBySequencer : Obligations.PhaseMovesOnlyBySequencer := by
  intro s s' t T m moves hs hm hT hp h
  by_cases hown : m = .sequencer t
  · have hstop : T.stopped = true := hm.resolve_left (absurd hown)
    subst hown
    rw [step_cons hs, move_sequencer, sequencerStep_stopped (s := { s with schedule := moves }) hT hstop] at h
    cases h
    exact ⟨T, hT, rfl, id⟩
  · rw [step_cons hs] at h
    have hk := (move_next h).rerecorded t
    generalize hr : s'.transceiver t = r at hk
    cases hk
    case kept => exact ⟨T, hT, rfl, id⟩
    case constructed hi _ => simp [idle_of_some (s := { s with schedule := moves }) hT, hp] at hi
    case started T' _ hT' h =>
      cases hT.symm.trans hT'
      exact absurd h.idle hp
    case moved => exact absurd rfl hown
    case evaluated T' v hT' =>
      cases hT.symm.trans hT'
      exact ⟨_, rfl, rfl, id⟩
    case completed T' hT' _ =>
      cases hT.symm.trans hT'
      exact ⟨_, rfl, rfl, id⟩

end Sys2Proof.Machine

namespace Sys2Proof.Machine

/-! ### One operation in flight on a bus (10_state.md R29) -/

section Flight

variable {s s' : State}

/-- The bus that the operation in flight on transceiver `k` has taken. -/
def State.flight (s : State) (k : Nat) : Option Nat :=
  match s.transceiver k with
  | none => none
  | some T => if T.phase = .idle then none else some T.bus

theorem State.flight_eq_some {k b : Nat} :
    s.flight k = some b ↔ ∃ T, s.transceiver k = some T ∧ T.phase ≠ .idle ∧ T.bus = b := by
  unfold State.flight
  cases s.transceiver k with
  | none => simp
  | some T => by_cases h : T.phase = .idle <;> simp [h]

theorem State.flight_of_idle {k : Nat} {T : Transceiver} (hT : s.transceiver k = some T) (hp : T.phase = .idle) :
    s.flight k = none := by
  simp [State.flight, hT, hp]

theorem State.flight_of_running {k : Nat} {T : Transceiver} (hT : s.transceiver k = some T) (hp : T.phase ≠ .idle) :
    s.flight k = some T.bus := by
  simp [State.flight, hT, hp]

/-- Records that agree on bus and on being idle have the same flight. -/
theorem State.flight_congr {k : Nat} {T T' : Transceiver} (hT : s.transceiver k = some T)
    (hT' : s'.transceiver k = some T') (hb : T'.bus = T.bus) (hp : T'.phase = .idle ↔ T.phase = .idle) :
    s'.flight k = s.flight k := by
  simp [State.flight, hT, hT', hb, hp]

theorem State.flight_of_transceiver_eq {k : Nat} (h : s'.transceiver k = s.transceiver k) :
    s'.flight k = s.flight k := by
  simp [State.flight, h]

/-- `BB.busy` of bus `b`. -/
def State.busy (s : State) (b : Nat) : Bool := (s.bus b).busy

/-- R29 in terms of the flights and the busy flags alone. -/
theorem oneInFlight_iff : OneInFlight s ↔
    (∀ k b, s.flight k = some b → s.busy b = true) ∧
    (∀ k j b, s.flight k = some b → s.flight j = some b → k = j) ∧
    ∀ b, s.busy b = true → ∃ k, s.flight k = some b := by
  simp only [State.flight_eq_some]
  constructor
  · intro ⟨marked, one, real⟩
    refine ⟨?_, ?_, real⟩
    · rintro k _ ⟨T, hT, hp, rfl⟩
      exact marked k T hT hp
    · rintro k j b ⟨T, hT, hp, rfl⟩ ⟨K, hK, hq, hb⟩
      exact one k T j K hT hK hp hq hb.symm
  · intro ⟨marked, one, real⟩
    exact ⟨fun k T hT hp => marked k T.bus ⟨T, hT, hp, rfl⟩,
      fun t T k K hT hK hp hq hb => one t k K.bus ⟨T, hT, hp, hb⟩ ⟨K, hK, hq, rfl⟩, real⟩

/-- What a step can make of the flights and of the busy flags. -/
inductive FlightChange (fly fly' : Nat → Option Nat) (busy busy' : Nat → Bool) : Prop where
  /-- No operation starts or ends. -/
  | same (hf : ∀ k, fly' k = fly k) (hb : ∀ b, busy' b = busy b)
  /-- An operation starts on a bus that is free. -/
  | starts (t c : Nat) (hidle : fly t = none) (hfree : busy c = false)
      (hf : ∀ k, fly' k = if k = t then some c else fly k) (hb : ∀ b, busy' b = if b = c then true else busy b)
  /-- The operation on a bus ends. -/
  | ends (t c : Nat) (hrun : fly t = some c) (hf : ∀ k, fly' k = if k = t then none else fly k)
      (hb : ∀ b, busy' b = if b = c then false else busy b)

/-- The change from `s` to `s'`. -/
abbrev State.flightTo (s s' : State) : Prop := FlightChange s.flight s'.flight s.busy s'.busy

theorem State.flightTo.oneInFlight (h : s.flightTo s') (hs : OneInFlight s) : OneInFlight s' := by
  rw [oneInFlight_iff] at hs ⊢
  obtain ⟨marked, one, real⟩ := hs
  cases h with
  | same hf hb => simpa only [hf, hb] using ⟨marked, one, real⟩
  | starts t c hidle hfree hf hb =>
    have other : ∀ k b, s.flight k = some b → b ≠ c := by
      rintro k b hk rfl
      simp [marked k b hk] at hfree
    simp only [hf, hb]
    refine ⟨fun k b hk => ?_, fun k j b hk hj => ?_, fun b hbusy => ?_⟩
    · by_cases hkt : k = t
      · simp_all
      · rw [if_neg hkt] at hk
        rw [if_neg (other k b hk), marked k b hk]
    · by_cases hkt : k = t <;> by_cases hjt : j = t
      · rw [hkt, hjt]
      · rw [if_pos hkt] at hk
        rw [if_neg hjt] at hj
        cases hk
        exact absurd rfl (other j c hj)
      · rw [if_neg hkt] at hk
        rw [if_pos hjt] at hj
        cases hj
        exact absurd rfl (other k c hk)
      · rw [if_neg hkt] at hk
        rw [if_neg hjt] at hj
        exact one k j b hk hj
    · by_cases hbc : b = c
      · exact ⟨t, by simp [hbc]⟩
      · rw [if_neg hbc] at hbusy
        obtain ⟨k, hk⟩ := real b hbusy
        have hkt : k ≠ t := by
          rintro rfl
          simp [hidle] at hk
        exact ⟨k, by rw [if_neg hkt, hk]⟩
  | ends t c hrun hf hb =>
    have other : ∀ k b, k ≠ t → s.flight k = some b → b ≠ c := by
      rintro k b hkt hk rfl
      exact hkt (one k t b hk hrun)
    have running : ∀ k b, (if k = t then none else s.flight k) = some b → k ≠ t ∧ s.flight k = some b := by
      intro k b hk
      by_cases hkt : k = t
      · simp [hkt] at hk
      · exact ⟨hkt, by rwa [if_neg hkt] at hk⟩
    simp only [hf, hb]
    refine ⟨fun k b hk => ?_, fun k j b hk hj => ?_, fun b hbusy => ?_⟩
    · obtain ⟨hkt, hk⟩ := running k b hk
      rw [if_neg (other k b hkt hk), marked k b hk]
    · exact one k j b (running k b hk).2 (running j b hj).2
    · by_cases hbc : b = c
      · simp [hbc] at hbusy
      · rw [if_neg hbc] at hbusy
        obtain ⟨k, hk⟩ := real b hbusy
        have hkt : k ≠ t := by
          rintro rfl
          exact hbc (by simpa [hrun] using hk.symm)
        exact ⟨k, by rw [if_neg hkt, hk]⟩

/-- An operation starts on an idle transceiver and a free bus. -/
theorem State.flightTo_startOperation {t : Nat} {T T' : Transceiver} (hT : s.transceiver t = some T)
    (hfree : (s.bus T'.bus).busy = false) (hidle : T.phase = .idle) (hrun : T'.phase ≠ .idle) :
    s.flightTo (s.startOperation t T') := by
  refine .starts t T'.bus (State.flight_of_idle hT hidle) hfree (fun k => ?_) (fun b => ?_)
  · split
    · rename_i hk
      subst hk
      exact State.flight_eq_some.mpr ⟨_, State.startOperation_transceiver_same s k T', hrun, rfl⟩
    · rename_i hk
      exact State.flight_of_transceiver_eq (by rw [State.startOperation_transceiver, if_neg hk])
  · unfold State.busy
    rw [State.startOperation_bus]
    split <;> rfl

/-- A sequencer's move ends the operation of its transceiver, or neither starts nor ends one. -/
theorem Own.flightTo {t : Nat} {T T' : Transceiver} (hT : s.transceiver t = some T) (h : Own s t T s' T') :
    s.flightTo s' := by
  have hT' : s'.transceiver t = some T' := by rw [h.transceivers, if_pos rfl]
  have hother : ∀ k, k ≠ t → s'.flight k = s.flight k := fun k hk =>
    State.flight_of_transceiver_eq (by rw [h.transceivers, if_neg hk])
  obtain ⟨hbusy, hidle⟩ | ⟨hbusy, hidle, hrun⟩ := h.busy
  · refine .same (fun k => ?_) (fun b => ?_) <;> [by_cases hk : k = t; by_cases hb : b = T.bus]
    · rw [hk]
      exact State.flight_congr hT hT' h.bus hidle
    · exact hother k hk
    · rw [hb]
      exact hbusy
    · exact congrArg Bus.busy (h.buses b hb)
  · refine .ends t T.bus (State.flight_of_running hT hrun) (fun k => ?_) (fun b => ?_) <;> split <;> rename_i he
    · rw [he]
      exact State.flight_of_idle hT' hidle
    · exact hother k he
    · rw [he]
      exact hbusy
    · exact congrArg Bus.busy (h.buses b he)

/-- CONSTRUCT leaves an idle name idle. -/
theorem State.flight_setTransceiver_idle {t : Nat} {T' : Transceiver} (hi : s.idle t = true) (hp : T'.phase = .idle)
    (k : Nat) : (s.setTransceiver t T').flight k = s.flight k := by
  by_cases hk : k = t
  · subst hk
    rw [State.flight_of_idle (State.transceiver_setTransceiver_same s k T') hp]
    unfold State.idle at hi
    unfold State.flight
    cases hT : s.transceiver k <;> simp_all
  · exact State.flight_of_transceiver_eq (State.transceiver_setTransceiver_other s hk T')

/-- Writing a record with the same bus and phase starts and ends nothing. -/
theorem State.flight_setTransceiver {t : Nat} {T T' : Transceiver} (hT : s.transceiver t = some T)
    (hb : T'.bus = T.bus) (hp : T'.phase = T.phase) (k : Nat) : (s.setTransceiver t T').flight k = s.flight k := by
  by_cases hk : k = t
  · subst hk
    exact State.flight_congr hT (State.transceiver_setTransceiver_same s k T') hb (by rw [hp])
  · exact State.flight_of_transceiver_eq (State.transceiver_setTransceiver_other s hk T')

theorem Stepped.flightTo {m : Move} (h : Stepped s m s') : s.flightTo s' := by
  cases h
  case noProgram | noTransceiver | outOfRange | halted | delivered | configured | nothing | clocked =>
    exact .same (fun _ => rfl) (fun _ => rfl)
  case issued ctx i rest hd h =>
    cases h.effect
    case raised | answered => exact .same (fun _ => rfl) (fun _ => rfl)
    case init b pin =>
      exact .same (fun k => State.flight_of_transceiver_eq (State.initBus_transceiver b pin k)) (State.initBus_busy b pin)
    case constructed b pin hi _ =>
      refine .same (fun k => ?_) (State.initBus_busy b pin)
      rw [State.flight_setTransceiver_idle (by simpa only [State.idle, State.initBus_transceiver] using hi) rfl]
      exact State.flight_of_transceiver_eq (State.initBus_transceiver b pin k)
    case started T _ hT hb hst =>
      exact State.flightTo_startOperation (s := { s with program := rest, ctx := ctx, running := none }) hT hb hst.idle
        hst.running
  case moved t T r hT h =>
    obtain ⟨T', ho⟩ := h.own hT
    exact Own.flightTo (s := { s with running := r }) hT ho
  case evaluated t T i v _ hT _ => exact .same (State.flight_setTransceiver hT rfl rfl) (fun _ => rfl)
  case completed t T hT _ _ => exact .same (State.flight_setTransceiver hT rfl rfl) (fun _ => rfl)

end Flight

/-- Settles O58: an operation starts on an idle transceiver whose bus is free, and its end frees the bus. -/
theorem stepKeepsOneInFlight : Obligations.StepKeepsOneInFlight := by
  intro s s' hs h
  refine step_keeps (P := OneInFlight) (fun s moves h => ?_) (fun s m s' h hs => h.flightTo.oneInFlight hs) h hs
  exact ⟨h.marked, h.one, h.real⟩

/-! ### The pin and the direction of a bus (10_state.md R27, R28, R40) -/

section Pins

variable {s s' : State}

/-- What a move can make of what bus `b` says of its pin: from the parameters, the records and the `BB` before it, to the move
and the `BB` after it. -/
inductive PinChange (p : Params) (record : Nat → Option Transceiver) (b : Nat) (B : Bus) : Move → Bus → Prop where
  /-- Nothing. -/
  | kept (m : Move) (B' : Bus) (hi : B'.initialized = B.initialized) (hh : B'.handle = B.handle)
      (hd : B'.direction = B.direction) (hp : B'.pin = B.pin) : PinChange p record b B m B'
  /-- BUS_INIT gives it its handle and makes the pin an output. -/
  | made (ctx : Context) (B' : Bus) (h0 : B.initialized = false) (hi : B'.initialized = true)
      (hh : B'.handle.isSome = true) (hd : B'.direction = B.direction) (hp : ∃ l, B'.pin = .output l) :
    PinChange p record b B (.caller ctx) B'
  /-- A sequencer on the bus runs SET_DIR. -/
  | set (t : Nat) (T : Transceiver) (d : Dir) (B' : Bus) (hT : record t = some T) (hb : T.bus = b)
      (hd : microOp p T = some (.setDir d)) (h1 : B.initialized = true) (hi : B'.initialized = true)
      (hh : B'.handle = B.handle) (hp : B'.pin = .output (level p d)) (hdir : B'.direction = directionOf d) :
    PinChange p record b B (.sequencer t) B'

/-- What the move `m` from `s` to `s'` makes of bus `b`. -/
abbrev State.pinTo (s : State) (b : Nat) (m : Move) (s' : State) : Prop :=
  PinChange s.params s.transceiver b (s.bus b) m (s'.bus b)

theorem State.pinTo_of_bus_eq {b : Nat} (h : s'.bus b = s.bus b) (m : Move) : s.pinTo b m s' := by
  unfold State.pinTo
  rw [h]
  exact .kept m _ rfl rfl rfl rfl

theorem State.pinTo_initBus (b c : Nat) (pin : Option Nat) (ctx : Context) :
    s.pinTo b (.caller ctx) (s.initBus c pin) := by
  obtain ⟨-, e⟩ | ⟨h0, h, -, e⟩ | ⟨-, -, e⟩ := State.initBus_cases s c pin <;> rw [e]
  · exact State.pinTo_of_bus_eq rfl _
  · by_cases hb : b = c
    · subst hb
      unfold State.pinTo
      rw [State.bus_setBus_same]
      exact .made ctx _ h0 rfl rfl rfl ⟨_, rfl⟩
    · exact State.pinTo_of_bus_eq (State.bus_setBus_other _ hb _) _
  · exact State.pinTo_of_bus_eq rfl _

theorem State.pinTo_startOperation (b t : Nat) (T : Transceiver) (m : Move) : s.pinTo b m (s.startOperation t T) := by
  unfold State.pinTo
  rw [State.startOperation_bus]
  split
  · rename_i hb
    subst hb
    exact .kept m _ rfl rfl rfl rfl
  · exact .kept m _ rfl rfl rfl rfl

theorem Own.pinTo {t : Nat} {T T' : Transceiver} (hT : s.transceiver t = some T) (h : Own s t T s' T') (b : Nat) :
    s.pinTo b (.sequencer t) s' := by
  by_cases hb : b = T.bus
  · subst hb
    obtain ⟨hp, hd⟩ | ⟨d, hm, hi, hp, hd⟩ := h.pin
    · exact .kept _ _ h.initialized h.handle hd hp
    · exact .set t T d _ hT rfl hm hi (h.initialized.trans hi) h.handle hp hd
  · exact State.pinTo_of_bus_eq (h.buses b hb) _

theorem Stepped.pinTo {m : Move} (h : Stepped s m s') (b : Nat) : s.pinTo b m s' := by
  cases h
  case issued ctx i rest hd h =>
    cases h.effect
    case raised | answered => exact State.pinTo_of_bus_eq rfl _
    case init c pin | constructed c pin _ _ =>
      exact State.pinTo_initBus (s := { s with program := rest, ctx := ctx, running := none }) b c pin ctx
    case started t T T' _ _ _ =>
      exact State.pinTo_startOperation (s := { s with program := rest, ctx := ctx, running := none }) b t T' _
  case moved t T r hT h =>
    obtain ⟨T', ho⟩ := h.own hT
    exact Own.pinTo (s := { s with running := r }) hT ho b
  all_goals exact State.pinTo_of_bus_eq rfl _

end Pins

/-- Settles O59: BUS_INIT and SET_DIR write the fields together, and nothing else writes them. -/
theorem stepKeepsPins : Obligations.StepKeepsPins := by
  intro s s' hfit h
  refine step_keeps (P := PinsFit) (fun _ _ h => h) (fun s m s' h hfit b => ?_) h hfit
  obtain ⟨hun, hin, htx, hrx⟩ := hfit b
  rw [h.params]
  have hb := h.pinTo b
  cases hb
  case kept hi hh hd hp =>
    rw [hi, hh, hd, hp]
    exact ⟨hun, hin, htx, hrx⟩
  case made h0 hi hh hd hp =>
    rw [hi, hd, (hun h0).2.1]
    exact ⟨by simp, fun _ => ⟨hh, hp⟩, by simp, by simp⟩
  case set t T d hT hb hd h1 hi hh hp hdir =>
    rw [hi, hh, hp, hdir]
    refine ⟨by simp, fun _ => ⟨(hin h1).1, _, rfl⟩, ?_, ?_⟩ <;> cases d <;> simp [directionOf, level]

/-- Settles O12: of the moves only SET_DIR changes the pin or the direction of an initialised bus. -/
theorem pinMovesOnlyBySetDir : Obligations.PinMovesOnlyBySetDir := by
  intro s s' b h hinit hmoved
  obtain ⟨-, rfl⟩ | ⟨m, moves, hs, h⟩ := step_next h
  · simp at hmoved
  · have hb := h.pinTo b
    cases hb
    case kept _ _ hd hp => exact hmoved.elim (absurd hp) (absurd hd)
    case made h0 _ _ _ _ => exact absurd (hinit.symm.trans h0) (by simp)
    case set t T d hT hb hd _ _ _ _ _ => exact ⟨t, T, moves, d, hs, hT, hb, hd⟩

end Sys2Proof.Machine

namespace Sys2Proof.Machine

/-! ### Faults, events and transmit logs -/

section Records

variable {s s' : State} {t : Nat} {T : Transceiver}

@[simp] theorem State.failAttempt_faults (s : State) (t : Nat) (T : Transceiver) (k : Nat) (kind : ErrorKind) :
    (s.failAttempt t T k kind).faults = s.faults := by
  obtain ⟨-, e⟩ | ⟨-, e⟩ := State.failAttempt_cases s t T k kind <;> rw [e] <;> rfl

theorem State.initBus_events (s : State) (b : Nat) (pin : Option Nat) :
    ∃ es, (s.initBus b pin).events = s.events ++ es := by
  obtain ⟨-, e⟩ | ⟨-, n, -, e⟩ | ⟨-, -, e⟩ := State.initBus_cases s b pin <;> rw [e]
  · exact ⟨[], by simp⟩
  · exact ⟨[], by simp⟩
  · exact ⟨[.log .pinUnconfigured], rfl⟩

/-- A sequencer's move records nothing, or the read of a register that nothing has written. -/
theorem Moved.faults (h : Moved s t T s') :
    s'.faults = s.faults ∨ T.readsUnwritten s ∧ s' = s.stopOperation t T .unwritten := by
  cases h
  case unwritten h => exact .inr ⟨h, rfl⟩
  case lost | rejected => exact .inl (State.failAttempt_faults _ _ _ _ _)
  case directed => exact .inl (State.setDirection_faults _ _ _)
  case released => exact .inl (State.setDirection_faults _ _ _)
  case expired | empty | received => exact .inl (State.ticked_faults _ _)
  all_goals exact .inl rfl

/-- A step records a fault of an issue, or its sequencer's read of a register that nothing has written. -/
theorem Stepped.faults {m : Move} (h : Stepped s m s') :
    ∃ fs, s'.faults = s.faults ++ fs ∧
      (OpFault.unwritten ∈ fs → ∃ t T, m = .sequencer t ∧ s.transceiver t = some T ∧ T.readsUnwritten s) := by
  cases h
  case issued ctx i rest hd h =>
    cases h.effect
    case raised f hf => exact ⟨[f], rfl, fun hu => absurd (List.mem_singleton.mp hu).symm hf⟩
    case init | constructed | started | answered => exact ⟨[], by simp [State.startOperation], by simp⟩
  case moved t T r hT h =>
    obtain h | ⟨hu, rfl⟩ := h.faults
    · exact ⟨[], by simp [h], by simp⟩
    · exact ⟨[.unwritten], rfl, fun _ => ⟨t, T, rfl, hT, hu⟩⟩
  all_goals exact ⟨[], by simp, by simp⟩

theorem Stepped.events {m : Move} (h : Stepped s m s') : ∃ es, s'.events = s.events ++ es := by
  cases h
  case issued ctx i rest hd h =>
    cases h.effect
    case raised | started | answered => exact ⟨[], by simp [State.startOperation]⟩
    case init c pin | constructed c pin _ _ => exact State.initBus_events _ c pin
  case moved t T r hT h =>
    obtain ⟨T', ho⟩ := h.own hT
    exact ho.events
  all_goals exact ⟨[], by simp⟩

theorem Issued.uart {i : Instr} (h : Issued s i s') (u : Nat) : s'.uart u = s.uart u := by
  cases h.effect
  case raised | started | answered => rfl
  case init c pin | constructed c pin _ _ => exact State.initBus_uart c pin u

theorem Stepped.txlog {m : Move} (h : Stepped s m s') (u : Nat) : ∃ bs, (s'.uart u).txlog = (s.uart u).txlog ++ bs := by
  cases h
  case issued h => exact ⟨[], by rw [h.uart]; simp [State.uart]⟩
  case moved t T r hT h =>
    obtain ⟨T', ho⟩ := h.own hT
    exact ho.txlog u
  case delivered v bs =>
    refine ⟨[], ?_⟩
    rw [State.uart_deliver]
    split
    · rename_i hu
      subst hu
      simp [State.uart]
    · simp [State.uart]
  case configured v baud =>
    refine ⟨[], ?_⟩
    rw [State.uart_setUart]
    split
    · rename_i hu
      subst hu
      simp
    · simp
  all_goals exact ⟨[], (List.append_nil _).symm⟩

end Records

/-- Settles O44: each agent's move only appends to the records, and none writes the parameters. -/
theorem recordsOnlyGrow : Obligations.RecordsOnlyGrow := by
  intro s s' h
  obtain ⟨-, rfl⟩ | ⟨m, moves, -, h⟩ := step_next h
  · exact ⟨rfl, ⟨[], by simp⟩, ⟨[], by simp⟩, fun _ => ⟨[], by simp⟩⟩
  · obtain ⟨fs, hfs, -⟩ := h.faults
    exact ⟨h.params, ⟨fs, hfs⟩, h.events, h.txlog⟩

/-! ### Reads of registers that nothing has written (10_state.md R44) -/

section Unwritten

variable {s : State} {t : Nat} {T : Transceiver}

theorem Transceiver.tick_of_unwritten {now : Word} (h : T.budget = none ∨ T.lastMs = none) : T.tick now = none := by
  unfold Transceiver.tick
  obtain h | h := h <;> rw [h]
  cases T.budget <;> rfl

/-- A poll that goes on is one whose tick leaves a budget. -/
theorem Transceiver.tick_of_pollsOn {T' : Transceiver} {now : Word} {b : Bool} (hp : T.pollsOn now)
    (h : T.tick now = some (T', b)) : T'.budget ≠ some 0 := by
  obtain ⟨n, l, hn, hl, hne⟩ := hp
  obtain ⟨n', ms, hn', hms, ⟨rfl, rfl, -⟩ | ⟨hc, rfl, -⟩⟩ := Transceiver.tick_some h <;>
    cases hn.symm.trans hn' <;> cases hl.symm.trans hms
  · rw [if_pos rfl] at hne
    simpa [hn] using hne
  · rw [if_neg hc] at hne
    simpa using hne

/-- A poll that reads a register that nothing has written stops the operation. -/
theorem poll_unwritten {expired : TransactResult} {accept : Transceiver → Byte → Option Transceiver}
    (h : T.budget = none ∨ T.lastMs = none ∨
      (∀ T' ticked b, T.tick s.clk = some (T', ticked) → accept T' b = none) ∧ T.pollsOn s.clk ∧
        (s.uart T.uart).rx ≠ []) :
    poll t T expired accept s = .next (s.stopOperation t T .unwritten) := by
  obtain ⟨s', hpoll, ⟨T', ticked, hk, hcase⟩ | ⟨-, rfl⟩⟩ := poll_cases t T expired accept s
  · have hnone : T.budget = none ∨ T.lastMs = none → False := fun hn => by
      simp [Transceiver.tick_of_unwritten hn] at hk
    obtain h | h | ⟨hacc, hon, hx⟩ := h
    · exact (hnone (.inl h)).elim
    · exact (hnone (.inr h)).elim
    · obtain ⟨h0, -⟩ | ⟨-, hx', -⟩ | ⟨-, b, -, T'', -, ha, -⟩ := hcase
      · exact absurd h0 (Transceiver.tick_of_pollsOn hon hk)
      · exact absurd hx' hx
      · simp [hacc T' ticked b hk] at ha
  · exact hpoll

theorem noDatagram_of_unwritten (hj : T.job = .read) (hq : T.req = none) :
    s.noDatagram t T = .next (s.stopOperation t T .unwritten) := by
  simp [State.noDatagram, hj, hq]

theorem Transceiver.datagram_of_unwritten (hj : T.job = .read) (hq : T.req = none) : T.datagram = none := by
  simp [Transceiver.datagram, hj, hq]

theorem Transceiver.byteAt_of_unwritten (hj : T.job = .read) (hq : T.req = none) (i : Nat) : T.byteAt i = none := by
  simp [Transceiver.byteAt, Transceiver.datagram_of_unwritten hj hq]

theorem execTxByte_unwritten {i : Nat} (run : ∀ f, onSequencer (.txByte i) s f = f t T) (hj : T.job = .read)
    (hq : T.req = none) (hh : T.hold = .free ∨ T.hold = .completed) :
    execTxByte i s = .next (s.stopOperation t T .unwritten) := by
  rw [execTxByte, run, Transceiver.byteAt_of_unwritten hj hq, Transceiver.datagram_of_unwritten hj hq]
  obtain hh | hh := hh <;> rw [hh] <;> exact noDatagram_of_unwritten hj hq

theorem execFlush_unwritten (run : ∀ f, onSequencer .flush s f = f t T) (hp : T.phase = .postFlush)
    (hx : (s.uart T.uart).rx = [])
    (h : T.job = .read ∧ (T.result = none ∨ T.attempt = none) ∨ (∃ dg n, T.job = .direct dg n) ∧ T.result = none) :
    execFlush s = .next (s.stopOperation t T .unwritten) := by
  simp only [execFlush, run, hx, hp]
  obtain ⟨hj, hr | hk⟩ | ⟨⟨dg, n, hj⟩, hr⟩ := h
  · simp [State.afterTransact, hj, hr]
  · cases hr : T.result <;> simp [State.afterTransact, hj, hr, hk]
  · simp [State.afterTransact, hj, hr]

/-- A sequencer's move that reads a register that nothing has written stops the operation and does nothing else. -/
theorem sequencerStep_unwritten (hT : s.transceiver t = some T) (hs : T.stopped = false) (h : T.readsUnwritten s) :
    ∃ r, sequencerStep t s = .next (({ s with running := r } : State).stopOperation t T .unwritten) := by
  have runs : ∀ {i}, microOp s.params T = some i →
      exec i { s with running := some t } =
        .next (({ s with running := some t } : State).stopOperation t T .unwritten) →
      ∃ r, sequencerStep t s = .next (({ s with running := r } : State).stopOperation t T .unwritten) :=
    fun hi he => ⟨some t, (sequencerStep_micro hT hs hi).trans he⟩
  have run : ∀ {i}, microOp s.params T = some i → ∀ f, onSequencer i { s with running := some t } f = f t T :=
    fun hi f => onSequencer_run rfl hT hi
  cases hp : T.phase <;> simp only [Transceiver.readsUnwritten, hp] at h
  case tx i =>
    have hi : microOp s.params T = some (.txByte i) := by simp only [microOp, hp]
    exact runs hi (execTxByte_unwritten (run hi) h.1 h.2.1 h.2.2)
  case wTx i =>
    have hi : microOp s.params T = some (.txByte i) := by simp only [microOp, hp]
    exact runs hi (execTxByte_unwritten (run hi) h.1 h.2.1 h.2.2)
  case scanEnter =>
    have hi : microOp s.params T = some .scanEnter := by simp only [microOp, hp]
    refine runs hi ?_
    simp only [exec, execScanEnter, run hi, Transceiver.byteAt_of_unwritten h.1 h.2]
    exact noDatagram_of_unwritten h.1 h.2
  case scan =>
    have hi : microOp s.params T = some .scanPoll := by simp only [microOp, hp]
    refine runs hi ?_
    simp only [exec, execScanPoll, run hi]
    refine poll_unwritten (h.imp_right (Or.imp_right (And.imp_left fun hw T' ticked b hk => ?_)))
    obtain ⟨h1, h2, -⟩ := Transceiver.tick_registers hk
    rw [← h1, ← h2] at hw
    obtain hw | hw := hw <;> simp [scanByte, hw]
  case captureEnter =>
    have hi : microOp s.params T = some .captureEnter := by simp only [microOp, hp]
    refine runs hi ?_
    simp only [exec, execCaptureEnter, run hi, h]
  case capture =>
    have hi : microOp s.params T = some .capturePoll := by simp only [microOp, hp]
    refine runs hi ?_
    simp only [exec, execCapturePoll, run hi]
    refine poll_unwritten (h.imp_right (Or.imp_right (And.imp_left fun hw T' ticked b hk => ?_)))
    obtain ⟨-, -, h1, h2⟩ := Transceiver.tick_registers hk
    rw [← h1, ← h2] at hw
    obtain hw | hw := hw <;> simp [captureByte, hw]
  case postFlush =>
    have hi : microOp s.params T = some .flush := by simp only [microOp, hp]
    exact runs hi (execFlush_unwritten (run hi) hp h.1 h.2)
  case validate =>
    obtain hr | ⟨⟨f, hf⟩, hk⟩ := h
    · have hi : microOp s.params T = none := by simp only [microOp, hp, hr]
      exact ⟨s.running, by simp only [sequencerStep_plain hT hs hi, plainStep, hp, if_pos hr]⟩
    · have hi : microOp s.params T = some (.validate f) := by simp only [microOp, hp, hf]
      refine runs hi ?_
      simp only [exec, execValidate, run hi, State.judge, hk]

end Unwritten

/-! ### Fit latches never fault (log 32) -/

section NoFault

variable {s : State} {t : Nat} {T : Transceiver}

theorem withTransceiver_fault {run : Transceiver → Step} {r : Fault} (h : s.withTransceiver t run = .fault r) :
    ∃ T, run T = .fault r := by
  unfold State.withTransceiver at h
  split at h
  · exact ⟨_, h⟩
  · cases h

/-- No operation word that the caller issues faults. -/
theorem exec_issued_fault {i : Instr} {r : Fault} (hr : s.running = none) (hf : i.format = .operation) :
    exec i s ≠ .fault r := by
  intro h
  cases i
  case busInit => cases guarded_fault h
  case construct => cases guarded_fault h
  case read | write | transact =>
    obtain ⟨T, h⟩ := withTransceiver_fault (guarded_fault h)
    cases h
  case validate f =>
    simp only [exec, execValidate, hr] at h
    cases guarded_fault h
  case buildReadReq | buildWrite | crc8 | turnaround => exact evaluated_fault _ _ _ _ h
  case writeFrame | readReq | reply => cases hf
  all_goals
    obtain ⟨t, T, hrun, -⟩ := onSequencer_fault h
    simp [hr] at hrun

/-- With a transaction's or a WRITE's latches a byte is there, and TX_BYTE has something to do. -/
theorem execTxByte_progress {i : Nat} {b : Byte} (run : ∀ f, onSequencer (.txByte i) s f = f t T)
    (hb : T.byteAt i = some b) (hh : T.hold ≠ .passed) : ∃ s', execTxByte i s = .next s' := by
  obtain ⟨dg, hd⟩ : ∃ dg, T.datagram = some dg := by
    cases hd : T.datagram with
    | none => simp [Transceiver.byteAt, hd] at hb
    | some dg => exact ⟨dg, rfl⟩
  rw [execTxByte, run, hb, hd]
  cases hhold : T.hold
  case passed => exact absurd hhold hh
  all_goals exact ⟨_, rfl⟩

theorem execWait_progress {us : Nat} (run : ∀ f, onSequencer (.wait us) s f = f t T) (hp : T.phase.waits = true)
    (hh : T.hold ≠ .passed) : ∃ s', execWait us s = .next s' := by
  rw [execWait, run]
  cases hhold : T.hold
  case free | started => exact ⟨_, rfl⟩
  case completed => cases hph : T.phase <;> simp [hph, Phase.waits] at hp <;> exact ⟨_, rfl⟩
  case passed => exact absurd hhold hh

theorem afterTransact_progress (hin : T.inTransaction s.params) (hr : T.result.isSome = true) :
    ∃ s', s.afterTransact t T = .next s' := by
  obtain ⟨res, hres⟩ := Option.isSome_iff_exists.mp hr
  have hin' := hin.2
  split at hin' <;> rename_i hj
  · obtain ⟨-, k, hk, -⟩ := hin'
    cases res <;> simp [State.afterTransact, hj, hres, hk]
  · simp [State.afterTransact, hj, hres]
  · exact hin'.elim

/-- The sequencer of a transceiver whose latches fit always answers a next state. -/
theorem sequencerStep_progress (hT : s.transceiver t = some T) (hc : T.consistent s.params) :
    ∃ s', sequencerStep t s = .next s' := by
  cases hs : T.stopped
  case true => exact ⟨s, sequencerStep_stopped hT hs⟩
  have runs : ∀ {i}, microOp s.params T = some i → (∃ s', exec i { s with running := some t } = .next s') →
      ∃ s', sequencerStep t s = .next s' :=
    fun hi he => by rwa [sequencerStep_micro hT hs hi]
  have plain : microOp s.params T = none → (∃ s', plainStep t T s = .next s') → ∃ s', sequencerStep t s = .next s' :=
    fun hi he => by rwa [sequencerStep_plain hT hs hi]
  have run : ∀ {i}, microOp s.params T = some i → ∀ f, onSequencer i { s with running := some t } f = f t T :=
    fun hi f => onSequencer_run rfl hT hi
  have polls : ∀ {e a}, ∃ s', poll t T e a { s with running := some t } = .next s' := fun {e a} => by
    obtain ⟨s', h, -⟩ := poll_cases t T e a { s with running := some t }
    exact ⟨s', h⟩
  cases hp : T.phase <;> simp only [Transceiver.consistent, hp] at hc
  case idle => exact plain (by simp only [microOp, hp]) ⟨s, by simp only [plainStep, hp]⟩
  case preFlush =>
    have hi : microOp s.params T = some .flush := by simp only [microOp, hp]
    refine runs hi ?_
    simp only [exec, execFlush, run hi, hp]
    split <;> exact ⟨_, rfl⟩
  case postFlush =>
    have hi : microOp s.params T = some .flush := by simp only [microOp, hp]
    refine runs hi ?_
    simp only [exec, execFlush, run hi, hp]
    split
    · exact ⟨_, rfl⟩
    · exact afterTransact_progress (s := { s with running := some t }) hc.1 hc.2.2
  case dirTx | wDirTx =>
    have hi : microOp s.params T = some (.setDir .transmit) := by simp only [microOp, hp]
    exact runs hi ⟨_, by simp only [exec, execSetDir, run hi, hp]; rfl⟩
  case dirRx =>
    have hi : microOp s.params T = some (.setDir .receive) := by simp only [microOp, hp]
    exact runs hi ⟨_, by simp only [exec, execSetDir, run hi, hp]; rfl⟩
  case tx i =>
    have hi : microOp s.params T = some (.txByte i) := by simp only [microOp, hp]
    obtain ⟨b, hb⟩ := Option.isSome_iff_exists.mp hc.2.1
    exact runs hi (execTxByte_progress (run hi) hb hc.2.2)
  case wTx i =>
    have hi : microOp s.params T = some (.txByte i) := by simp only [microOp, hp]
    obtain ⟨b, hb⟩ := hc.1.byteAt_eq hc.2.1
    exact runs hi (execTxByte_progress (run hi) hb hc.2.2)
  case turnaround | replyWait | wReplyWait =>
    have hi : ∃ us, microOp s.params T = some (.wait us) := by simp only [microOp, hp]; exact ⟨_, rfl⟩
    obtain ⟨us, hi⟩ := hi
    exact runs hi (execWait_progress (run hi) (by simp [hp, Phase.waits]) hc.2)
  case scanEnter =>
    have hi : microOp s.params T = some .scanEnter := by simp only [microOp, hp]
    obtain ⟨b0, h0⟩ := hc.1.byteAt_eq (i := 0) (by omega)
    obtain ⟨b2, h2⟩ := hc.1.byteAt_eq (i := 2) (by omega)
    obtain ⟨n, hn, -⟩ := hc.1.scanBudget_eq
    exact runs hi ⟨_, by simp only [exec, execScanEnter, run hi, h0, h2, hn]; rfl⟩
  case scan =>
    have hi : microOp s.params T = some .scanPoll := by simp only [microOp, hp]
    exact runs hi (by simpa only [exec, execScanPoll, run hi] using polls)
  case captureEnter =>
    have hi : microOp s.params T = some .captureEnter := by simp only [microOp, hp]
    obtain ⟨w, hw⟩ := Option.isSome_iff_exists.mp hc.2.2.1
    exact runs hi ⟨_, by simp only [exec, execCaptureEnter, run hi, hw]; rfl⟩
  case capture =>
    have hi : microOp s.params T = some .capturePoll := by simp only [microOp, hp]
    exact runs hi (by simpa only [exec, execCapturePoll, run hi] using polls)
  case validate =>
    obtain ⟨-, -, -, -, ⟨k, hk, -⟩, f, hf⟩ := hc
    have hi : microOp s.params T = some (.validate f) := by simp only [microOp, hp, hf]
    refine runs hi ?_
    simp only [exec, execValidate, run hi, State.judge, hk]
    cases verdictOf s.params.crc f <;> exact ⟨_, rfl⟩
  case wEnd =>
    cases he : s.params.writeEnd
    case hold => exact plain (by simp only [microOp, hp, he]) ⟨_, by simp only [plainStep, hp]; rfl⟩
    case release =>
      by_cases hh : T.hold = .passed
      · have hi : microOp s.params T = some (.setDir .receive) := by simp only [microOp, hp, he, if_pos hh]
        exact runs hi ⟨_, by simp only [exec, execSetDir, run hi, hp]; rfl⟩
      · have hi : microOp s.params T = some (.wait T.cfg.delayUs.toNat) := by simp only [microOp, hp, he, if_neg hh]
        exact runs hi (execWait_progress (run hi) (by simp [hp, Phase.waits]) hh)

theorem LatchesFit.sequencerStep_ne_fault (h : LatchesFit s) (t : Nat) (r : Fault) : sequencerStep t s ≠ .fault r := by
  cases hT : s.transceiver t with
  | none => simp [sequencerStep, hT]
  | some T =>
    obtain ⟨s', hs'⟩ := sequencerStep_progress hT (h t T hT)
    simp [hs']

theorem LatchesFit.move_ne_fault (h : LatchesFit s) (m : Move) (r : Fault) : move m s ≠ .fault r := by
  intro hm
  cases m with
  | caller ctx =>
    simp only [move, callerStep] at hm
    split at hm
    · cases hm
    · split at hm
      · cases hm
      · rename_i hd
        exact exec_issued_fault rfl (format_of_decode hd) hm
  | sequencer t => exact h.sequencerStep_ne_fault t r hm
  | evaluate t i =>
    simp only [move, evaluateStep] at hm
    split at hm
    · rename_i hi
      split at hm
      · cases hm
      · obtain ⟨inRange, v, he⟩ := exec_pure hi { s with running := some t }
        exact evaluated_fault _ _ _ _ (he.symm.trans hm)
    · cases hm
  | environment e =>
    cases e with
    | deliver u bs => simp [environmentStep_deliver] at hm
    | writeDone t => cases hm
    | configure u baud => cases hm
  | clock n => cases hm
  | delay t => cases hm

theorem LatchesFit.step_ne_fault (h : LatchesFit s) (r : Fault) : step s ≠ .fault r := by
  cases hs : s.schedule with
  | nil => simp [step_nil hs]
  | cons m moves =>
    rw [step_cons hs]
    exact LatchesFit.move_ne_fault (s := { s with schedule := moves }) h m r

end NoFault

/-- Settles O57: fit latches hold what the phase reads; any read of an unwritten register, first or later, is the one fault a
sequencer records, and stops the operation. -/
theorem noRegisterReadUnwritten : Obligations.NoRegisterReadUnwritten := by
  intro s
  refine ⟨fun hfit => ⟨hfit.step_ne_fault, fun s' h => ?_⟩,
    fun t T moves hs hT => ⟨fun s' h hf => ?_, fun hstop hu => ?_⟩⟩
  · obtain ⟨-, rfl⟩ | ⟨m, moves, -, h⟩ := step_next h
    · exact ⟨[], by simp, by simp⟩
    · obtain ⟨fs, hfs, hun⟩ := h.faults
      refine ⟨fs, hfs, fun hmem => ?_⟩
      obtain ⟨t, T, -, hT, hr⟩ := hun hmem
      exact (hfit t T hT).not_readsUnwritten _ hr
  · rw [step_cons hs, move_sequencer] at h
    obtain ⟨hnone, -⟩ | ⟨T', r, hT', h⟩ := sequencerStep_next h
    · cases hT.symm.trans hnone
    · cases hT.symm.trans hT'
      obtain h | ⟨hu, rfl⟩ := h.faults
      · exact absurd h hf
      · exact ⟨hu, rfl, rfl, State.transceiver_stopOperation_same _ _ _ _, fun _ => rfl, fun _ => rfl,
          fun k hk => by rw [State.transceiver_stopOperation, if_neg hk]; rfl⟩
  · obtain ⟨r, h⟩ := sequencerStep_unwritten (s := { s with schedule := moves }) hT hstop hu
    exact ⟨_, by rw [step_cons hs, move_sequencer, h], rfl⟩

/-! ### A sequencer touches its own (60_exceptions.md R226) -/

/-- SET_DIR leaves the bus of the running transceiver with the direction and the pin that `State.setDirection` writes. -/
theorem execSetDir_bus {s s' : State} {t : Nat} {T : Transceiver} {d : Dir}
    (run : ∀ f, onSequencer (.setDir d) s f = f t T) (hi : (s.bus T.bus).initialized = true)
    (h : execSetDir d s = .next s') :
    (s'.bus T.bus).direction = directionOf d ∧ (s'.bus T.bus).pin = .output (level s.params d) := by
  have hbus : (s.setDirection T.bus d).bus T.bus =
      { s.bus T.bus with direction := directionOf d, pin := .output (level s.params d) } := by
    simp [State.setDirection, hi]
  simp only [execSetDir, run] at h
  split at h
  case h_4 =>
    cases h
    rw [State.endOperation_bus, if_pos rfl, hbus]
    exact ⟨rfl, rfl⟩
  case h_5 => cases h
  all_goals
    cases h
    rw [State.bus_setTransceiver, hbus]
    exact ⟨rfl, rfl⟩

/-- Settles O52: what every sequencer's move keeps (`Own`), and the two fields SET_DIR writes. -/
theorem sequencerTouchesOwn : Obligations.SequencerTouchesOwn := by
  intro s s' t T moves hs hT h
  rw [step_cons hs, move_sequencer] at h
  refine ⟨fun d hd hstop hi => ?_, ?_⟩
  · rw [sequencerStep_micro (s := { s with schedule := moves }) hT hstop hd] at h
    have hpin := execSetDir_bus (s := { s with schedule := moves, running := some t })
      (fun f => onSequencer_run rfl hT hd) hi h
    cases d <;> exact hpin
  · obtain ⟨hnone, -⟩ | ⟨T', r, hT', hm⟩ := sequencerStep_next h
    · cases hT.symm.trans hnone
    · cases hT.symm.trans hT'
      obtain ⟨T'', ho⟩ := Moved.own (s := { s with schedule := moves, running := r }) hT hm
      exact ⟨ho.buses, ho.uarts, fun k hk => by rw [ho.transceivers, if_neg hk]; rfl, ho.baud,
        ⟨T'', by rw [ho.transceivers, if_pos rfl], ho.cfg, ho.bus, ho.uart⟩, ho.clk, ho.program, ho.answer,
        ho.faults.imp_right And.left⟩

end Sys2Proof.Machine

namespace Sys2Proof.Machine

/-! ### What each update leaves unchanged -/

section Frames

variable {s s1 : State} {b u t : Option Nat} {k : Nat}

theorem MicroFrame.refl (s : State) (b u t : Option Nat) : MicroFrame s s b u t :=
  ⟨⟨rfl, rfl, rfl, rfl, rfl, rfl, rfl, rfl, fun _ _ => rfl, fun _ _ => rfl, fun _ _ => rfl⟩, rfl, rfl⟩

theorem MicroFrame.trans {s2 : State} (h : MicroFrame s s1 b u t) (g : MicroFrame s1 s2 b u t) :
    MicroFrame s s2 b u t where
  frame :=
    { params := g.frame.params.trans h.frame.params
      clk := g.frame.clk.trans h.frame.clk
      faults := g.frame.faults.trans h.frame.faults
      program := g.frame.program.trans h.frame.program
      schedule := g.frame.schedule.trans h.frame.schedule
      ctx := g.frame.ctx.trans h.frame.ctx
      running := g.frame.running.trans h.frame.running
      line := g.frame.line.trans h.frame.line
      buses := fun j hj => (g.frame.buses j hj).trans (h.frame.buses j hj)
      uarts := fun j hj => (g.frame.uarts j hj).trans (h.frame.uarts j hj)
      transceivers := fun j hj => (g.frame.transceivers j hj).trans (h.frame.transceivers j hj) }
  answer := g.answer.trans h.answer
  draws := g.draws.trans h.draws

theorem MicroFrame.emit (h : MicroFrame s s1 b u t) (e : Event) : MicroFrame s (s1.emit e) b u t :=
  { h with frame := { h.frame with } }

theorem MicroFrame.setTransceiver (h : MicroFrame s s1 b u (some k)) (T : Transceiver) :
    MicroFrame s (s1.setTransceiver k T) b u (some k) :=
  { h with
    frame := { h.frame with
      transceivers := fun j hj =>
        (State.transceiver_setTransceiver_other s1 (fun e => hj (congrArg some e.symm)) T).trans
          (h.frame.transceivers j hj) } }

theorem MicroFrame.setUart (h : MicroFrame s s1 b (some k) t) (v : Uart) :
    MicroFrame s (s1.setUart k v) b (some k) t :=
  { h with
    frame := { h.frame with
      uarts := fun j hj =>
        (State.uart_setUart_other s1 (fun e => hj (congrArg some e.symm)) v).trans (h.frame.uarts j hj) } }

theorem MicroFrame.setBus (h : MicroFrame s s1 (some k) u t) (v : Bus) : MicroFrame s (s1.setBus k v) (some k) u t :=
  { h with
    frame := { h.frame with
      buses := fun j hj =>
        (State.bus_setBus_other s1 (fun e => hj (congrArg some e.symm)) v).trans (h.frame.buses j hj) } }

theorem MicroFrame.startOperation {T : Transceiver} (h : MicroFrame s s1 (some T.bus) u (some k)) :
    MicroFrame s (s1.startOperation k T) (some T.bus) u (some k) :=
  (h.setBus _).setTransceiver _

theorem MicroFrame.endOperation {T : Transceiver} (h : MicroFrame s s1 (some T.bus) u (some k)) (a : Answer) :
    MicroFrame s (s1.endOperation k T a) (some T.bus) u (some k) :=
  (h.setBus _).setTransceiver _

theorem MicroFrame.ticked (h : MicroFrame s s1 b u t) (ticked : Bool) :
    MicroFrame s (if ticked then s1.emit .tick else s1) b u t := by
  cases ticked
  · exact h
  · exact h.emit _

end Frames

/-! ### TRANSACT's issue -/

/-- Settles O17: no precondition fails, so the issue is the start of the operation. -/
theorem transactStarts : Obligations.TransactStarts := by
  intro s t T dg payloadLen scanTimeout hc hp hT hidle hlen hpay hscan hbus
  have hnone : firstFault (s.transactChecks t dg payloadLen scanTimeout) = none := by
    rw [firstFault_eq_none]
    simp [State.transactChecks, State.requestChecks, State.ownerChecks, hT, idle_of_some hT, contended_of_some hT,
      admitsLength, hc, hp, hidle, hlen, hpay, hbus]
    omega
  refine ⟨_, (guarded_none hnone).trans (withTransceiver_some hT), State.startOperation_transceiver_same _ _ _, ?_, rfl,
    (MicroFrame.refl s _ _ _).startOperation⟩
  rw [State.startOperation_bus, if_pos rfl]

/-! ### TX_BYTE -/

section TxByte

variable {s : State} {t : Nat} {T : Transceiver} {i : Nat} {b : Byte}

theorem execTxByte_free (run : ∀ f, onSequencer (.txByte i) s f = f t T) (hb : T.byteAt i = some b)
    (hh : T.hold = .free) : execTxByte i s = .next (s.setTransceiver t { T with hold := .started }) := by
  rw [execTxByte, run, hb, hh]

theorem execTxByte_started (run : ∀ f, onSequencer (.txByte i) s f = f t T) (hh : T.hold = .started) :
    execTxByte i s = .next s := by
  rw [execTxByte, run, hh]

theorem execTxByte_completed {dg : List Byte} (run : ∀ f, onSequencer (.txByte i) s f = f t T)
    (hd : T.datagram = some dg) (hb : T.byteAt i = some b) (hh : T.hold = .completed) :
    execTxByte i s = .next (((s.logTx T.uart b).emit (.tx b)).setTransceiver t
      { T with hold := .free, phase := T.phase.afterByte i dg.length }) := by
  rw [execTxByte, run, hb, hd, hh]

end TxByte

/-- Settles O19: the three holds of TX_BYTE, in either of its two phases. -/
theorem txByteEffect : Obligations.TxByteEffect := by
  intro s t T i dg b hr hT hp hd hb
  have hi : microOp s.params T = some (.txByte i) := by obtain hp | hp := hp <;> simp only [microOp, hp]
  have run : ∀ f, onSequencer (.txByte i) s f = f t T := fun f => onSequencer_run hr hT hi
  have hbyte : T.byteAt i = some b := by simp [Transceiver.byteAt, hd, hb]
  have hnext : T.phase.afterByte i dg.length =
      if T.phase = .tx i then (if i + 1 < dg.length then .tx (i + 1) else .turnaround)
      else (if i + 1 < dg.length then .wTx (i + 1) else .wReplyWait) := by
    obtain hp | hp := hp <;> simp [hp, Phase.afterByte]
  refine ⟨fun hh => ⟨_, execTxByte_free run hbyte hh, State.transceiver_setTransceiver_same _ _ _, rfl,
      (MicroFrame.refl s _ _ _).setTransceiver _⟩,
    execTxByte_started run, fun hh => ⟨_, execTxByte_completed run hd hbyte hh, ?_, rfl, ?_,
      (((MicroFrame.refl s _ _ _).setUart _).emit _).setTransceiver _⟩⟩
  · rw [State.uart_setTransceiver, State.uart_emit, State.uart_logTx, if_pos rfl]
  · rw [State.transceiver_setTransceiver_same, hnext]

/-! ### Polls -/

section Polls

variable {s : State} {t : Nat} {T : Transceiver}

/-- The budget after the tick rule of a poll at clock value `now`, from the budget `n` and the clock value `ms` (R161). -/
def budgetAfter (n : Nat) (ms now : Word) : Nat := if now = ms then n else n - 1

/-- The events of that tick rule. -/
def ticksOf (ms now : Word) : List Event := if now = ms then [] else [Event.tick]

/-- The record after it. -/
def Transceiver.polled (T : Transceiver) (n : Nat) (ms now : Word) : Transceiver :=
  { T with budget := some (budgetAfter n ms now), lastMs := some now }

theorem Transceiver.tick_eq_polled {n : Nat} {ms now : Word} (hb : T.budget = some n) (hm : T.lastMs = some ms) :
    T.tick now = some (T.polled n ms now, decide (now ≠ ms)) := by
  unfold Transceiver.polled budgetAfter
  by_cases h : now = ms
  · subst h
    rw [Transceiver.tick_same hb hm, if_pos rfl, ← hb, ← hm]
    simp
  · rw [Transceiver.tick_changed hb hm h, if_neg h]
    simp [h]

theorem State.ticked_events (s : State) (ms : Word) :
    (if decide (s.clk ≠ ms) then s.emit Event.tick else s).events = s.events ++ ticksOf ms s.clk := by
  unfold ticksOf
  by_cases h : s.clk = ms <;> simp [h]

theorem State.ticked_uart (s : State) (ticked : Bool) (u : Nat) :
    (if ticked then s.emit Event.tick else s).uart u = s.uart u := by
  cases ticked <;> rfl

/-- One poll with its registers written (R163): the tick, then expiry, an empty FIFO, or one byte that `accept` takes. -/
theorem poll_effect {expired : TransactResult} {accept : Transceiver → Byte → Option Transceiver} {n : Nat} {ms : Word}
    (hb : T.budget = some n) (hm : T.lastMs = some ms) (hacc : ∀ b, (accept (T.polled n ms s.clk) b).isSome = true) :
    ∃ s', poll t T expired accept s = .next s' ∧
      (budgetAfter n ms s.clk = 0 →
        s'.transceiver t =
          some { T.polled n ms s.clk with result := some expired, phase := Phase.postFlush, flushed := 0 } ∧
        s'.uart T.uart = s.uart T.uart ∧ s'.events = s.events ++ ticksOf ms s.clk) ∧
      (budgetAfter n ms s.clk ≠ 0 → (s.uart T.uart).rx = [] →
        s'.transceiver t = some (T.polled n ms s.clk) ∧
        s'.uart T.uart = s.uart T.uart ∧ s'.events = s.events ++ ticksOf ms s.clk) ∧
      (budgetAfter n ms s.clk ≠ 0 → ∀ b rest, (s.uart T.uart).rx = b :: rest →
        s'.transceiver t = accept (T.polled n ms s.clk) b ∧
        s'.uart T.uart = { s.uart T.uart with rx := rest } ∧
        s'.events = s.events ++ ticksOf ms s.clk ++ [Event.rx b]) ∧
      MicroFrame s s' none (some T.uart) (some t) := by
  obtain ⟨s', hpoll, ⟨T', ticked, hk, hcase⟩ | ⟨hn, -⟩⟩ := poll_cases t T expired accept s
  · cases (Transceiver.tick_eq_polled hb hm).symm.trans hk
    have hframe := (MicroFrame.refl s none (some T.uart) (some t)).ticked (decide (s.clk ≠ ms))
    have htick := State.ticked_events s ms
    simp only [Transceiver.polled, Option.some.injEq, ne_eq] at hcase
    refine ⟨s', hpoll, ?_⟩
    obtain ⟨h0, rfl⟩ | ⟨h0, hx, rfl⟩ | ⟨h0, b, rest, T'', hx, ha, rfl⟩ := hcase
    · exact ⟨fun _ => ⟨State.transceiver_setTransceiver_same _ _ _, State.ticked_uart _ _ _, htick⟩,
        fun h => absurd h0 h, fun h => absurd h0 h, hframe.setTransceiver _⟩
    · refine ⟨fun h => absurd h h0,
        fun _ _ => ⟨State.transceiver_setTransceiver_same _ _ _, State.ticked_uart _ _ _, htick⟩,
        fun _ b rest hx' => ?_, hframe.setTransceiver _⟩
      cases hx.symm.trans hx'
    · refine ⟨fun h => absurd h h0, fun _ hx' => ?_, fun _ c rest' hx' => ?_,
        ((hframe.setUart _).emit _).setTransceiver _⟩
      · cases hx.symm.trans hx'
      · cases hx.symm.trans hx'
        refine ⟨(State.transceiver_setTransceiver_same _ _ _).trans ha.symm, ?_, congrArg (· ++ [Event.rx b]) htick⟩
        rw [State.uart_setTransceiver, State.uart_emit, State.uart_setRx, if_pos rfl, State.ticked_uart]
  · obtain hn | ⟨T', ticked, b, hk, -, -, ha⟩ := hn
    · simp [Transceiver.tick_eq_polled hb hm] at hn
    · cases (Transceiver.tick_eq_polled hb hm).symm.trans hk
      have htaken := hacc b
      simp [ha] at htaken

end Polls

/-- Settles O23: one poll, whose byte shifts into the window. -/
theorem scanPollEffect : Obligations.ScanPollEffect := by
  intro s t T n ms w g hr hT hp hb _ hm hw hg
  have hi : microOp s.params T = some .scanPoll := by simp only [microOp, hp]
  have hbyte : ∀ b, scanByte (T.polled n ms s.clk) b =
      some { T.polled n ms s.clk with
        window := some (shiftWindow w b), phase := if shiftWindow w b = g then .captureEnter else .scan } := fun b => by
    simp [scanByte, Transceiver.polled, hw, hg]
  obtain ⟨s', hpoll, hexp, hempty, hread, hframe⟩ :=
    poll_effect (t := t) (s := s) (expired := .noReply) (accept := scanByte) hb hm (fun b => by simp [hbyte b])
  refine ⟨s', _, _, (onSequencer_run hr hT hi).trans hpoll, rfl, rfl, fun h0 => ?_, hempty, fun h0 b rest hx => ?_, hframe⟩
  · have hzero : budgetAfter n ms s.clk = 0 := h0
    simpa only [Transceiver.polled, ticksOf, hzero] using hexp h0
  · obtain ⟨hrec, huart, hev⟩ := hread h0 b rest hx
    exact ⟨shiftWindow w b, shiftWindow_toNat w b, hrec.trans (hbyte b), huart, hev⟩

/-! ### The capture of five bytes -/

section Capture

variable {s : State} {t : Nat} {T : Transceiver}

theorem repeatExec_add {i : Instr} {s s1 : State} {m : Nat} (h : repeatExec i m s = .next s1) (n : Nat) :
    repeatExec i (m + n) s = repeatExec i n s1 := by
  induction m generalizing s with
  | zero =>
    cases h
    rw [Nat.zero_add]
  | succ m ih =>
    rw [Nat.succ_add]
    simp only [repeatExec] at h ⊢
    split at h
    · exact ih h
    · cases h
    · cases h

theorem repeatExec_one {i : Instr} {s s1 : State} (h : exec i s = .next s1) : repeatExec i 1 s = .next s1 := by
  simp [repeatExec, h]

/-- One capture poll on a clock that does not move reads the head byte. -/
theorem execCapturePoll_steady {n : Nat} {b : Byte} {rest : List Byte} {T' : Transceiver} (hr : s.running = some t)
    (hT : s.transceiver t = some T) (hp : T.phase = .capture) (hb : T.budget = some n) (hn : 1 ≤ n)
    (hm : T.lastMs = some s.clk) (hx : (s.uart T.uart).rx = b :: rest) (ha : captureByte T b = some T') :
    exec .capturePoll s = .next (((s.setRx T.uart rest).emit (.rx b)).setTransceiver t T') := by
  have hi : microOp s.params T = some .capturePoll := by simp only [microOp, hp]
  rw [exec, execCapturePoll, onSequencer_run hr hT hi, poll_steady hb hn hm, hx]
  simp only [ha]

/-- Capture polls on a clock that does not move shift the bytes they read into the accumulator, short of the fifth. -/
theorem repeat_capturePoll {n : Nat} {a : BitVec 64} {k : Nat} {rest : List Byte} (bs : List Byte)
    (hr : s.running = some t) (hT : s.transceiver t = some T) (hp : T.phase = .capture) (hb : T.budget = some n)
    (hn : 1 ≤ n) (hm : T.lastMs = some s.clk) (ha : T.acc = some a) (hk : T.capCount = some k)
    (hlt : k + bs.length < captureLen) (hx : (s.uart T.uart).rx = bs ++ rest) :
    ∃ s', repeatExec .capturePoll bs.length s = .next s' ∧
      s'.transceiver t = some { T with acc := some (bs.foldl shiftAcc a), capCount := some (k + bs.length) } ∧
      s'.uart T.uart = { s.uart T.uart with rx := rest } ∧ MicroFrame s s' none (some T.uart) (some t) := by
  induction bs generalizing s T a k with
  | nil =>
    refine ⟨s, rfl, ?_, ?_, MicroFrame.refl _ _ _ _⟩
    · rw [hT, List.foldl_nil, List.length_nil, Nat.add_zero, ← ha, ← hk]
    · rw [List.nil_append] at hx
      rw [← hx]
  | cons b bs ih =>
    rw [List.length_cons] at hlt
    have hbyte : captureByte T b = some { T with acc := some (shiftAcc a b), capCount := some (k + 1) } := by
      have hne : k + 1 ≠ captureLen := by omega
      simp [captureByte, ha, hk, hne, ← hp]
    have hstep := execCapturePoll_steady hr hT hp hb hn hm hx hbyte
    obtain ⟨s', hrun, hT', hu, hframe⟩ := ih
      (s := ((s.setRx T.uart (bs ++ rest)).emit (.rx b)).setTransceiver t
        { T with acc := some (shiftAcc a b), capCount := some (k + 1) })
      hr (State.transceiver_setTransceiver_same _ _ _) hp hb hm rfl rfl (by omega)
      (by rw [State.uart_setTransceiver, State.uart_emit, State.uart_setRx, if_pos rfl])
    refine ⟨s', ?_, ?_, ?_, (((MicroFrame.refl s _ _ _).setUart _).emit _ |>.setTransceiver _).trans hframe⟩
    · rw [List.length_cons, repeatExec, hstep]
      exact hrun
    · rw [hT', List.foldl_cons, List.length_cons, Nat.add_right_comm, Nat.add_assoc]
    · rw [hu, State.uart_setTransceiver, State.uart_emit, State.uart_setRx, if_pos rfl]

/-- The fifth byte is the last. -/
theorem captureByte_fifth {a : BitVec 64} (b : Byte) (ha : T.acc = some a) (hk : T.capCount = some 4) :
    captureByte T b =
      some { T with
        acc := some (shiftAcc a b), capCount := some 5, result := some (.frame (shiftAcc a b)), phase := .postFlush,
        flushed := 0 } := by
  simp [captureByte, captureLen, ha, hk]

/-- Eight bytes shifted in, the first three as the window's, are the frame word (10_state.md R24, 30_encoding.md R78). -/
theorem shiftAcc_frame (b0 b1 b2 c0 c1 c2 c3 c4 : Byte) :
    shiftAcc ([c0, c1, c2, c3].foldl shiftAcc ((b0 ++ b1 ++ b2).setWidth 64)) c4 = frameOf b0 b1 b2 c0 c1 c2 c3 c4 := by
  apply BitVec.eq_of_toNat_eq
  have hframe : (frameOf b0 b1 b2 c0 c1 c2 c3 c4).toNat =
      ((((((b0.toNat * 256 + b1.toNat) * 256 + b2.toNat) * 256 + c0.toNat) * 256 + c1.toNat) * 256 + c2.toNat) * 256 +
        c3.toNat) * 256 + c4.toNat := by
    show BitVec.toNat (w := 8 + 8 + 8 + 8 + 8 + 8 + 8 + 8) (b0 ++ b1 ++ b2 ++ c0 ++ c1 ++ c2 ++ c3 ++ c4) = _
    simp only [toNat_append8]
  have := (frameOf b0 b1 b2 c0 c1 c2 c3 c4).isLt
  simp only [List.foldl_cons, List.foldl_nil, shiftAcc_toNat, BitVec.toNat_setWidth, toNat_append8]
  omega

end Capture

/-- Settles O27: four polls short of the fifth byte, and the fifth that ends the capture. -/
theorem captureAssemblesFrame : Obligations.CaptureAssemblesFrame := by
  intro s t T n b0 b1 b2 c0 c1 c2 c3 c4 rest hr hT hp hb hn hm ha hk hx
  obtain ⟨s1, hrun, hT1, hu, hframe⟩ := repeat_capturePoll (rest := c4 :: rest) [c0, c1, c2, c3] hr hT hp hb hn hm ha hk
    (by simp [captureLen]) hx
  have hlast := execCapturePoll_steady (rest := rest) (hframe.frame.running.trans hr) hT1 hp hb hn
    (hm.trans (congrArg some hframe.frame.clk.symm)) (by rw [hu]) (captureByte_fifth c4 rfl rfl)
  refine ⟨_, _, _, (repeatExec_add hrun 1).trans (repeatExec_one hlast), State.transceiver_setTransceiver_same _ _ _, rfl,
    rfl, ?_, ?_, hframe.trans ((((MicroFrame.refl s1 _ _ _).setUart _).emit _).setTransceiver _)⟩
  · rw [shiftAcc_frame, frameBytes_frameOf]
  · rw [State.uart_setTransceiver, State.uart_emit, State.uart_setRx, if_pos rfl, hu]

/-! ### READ's phase Validate -/

theorem State.judge_accept {s : State} {t : Nat} {T : Transceiver} {k : Nat} (hk : T.attempt = some (k + 1))
    (value : Word) : s.judge t T (.accept value) =
      .next ((s.emit (.attempt k .ok)).endOperation t (T.setReadFailed false) (.read value true)) := by
  simp only [State.judge, hk]

theorem State.judge_reject {s : State} {t : Nat} {T : Transceiver} {k : Nat} (hk : T.attempt = some (k + 1))
    (kind : ErrorKind) : s.judge t T (.reject kind) = .next (s.failAttempt t T k kind) := by
  simp only [State.judge, hk]

/-- Settles O34: the verdict accepts, or rejects with an attempt left or on the last. -/
theorem validatePhaseEndsAttempt : Obligations.ValidatePhaseEndsAttempt := by
  intro s t T f k hr hT hp hres hk
  have hi : microOp s.params T = some (.validate f) := by simp only [microOp, hp, hres]
  have hexec : exec (.validate f) s = s.judge t T (verdictOf s.params.crc f) := by
    simp only [exec, execValidate, hr]
    exact onSequencer_run hr hT hi
  have hframe := (MicroFrame.refl s (some T.bus) none (some t)).emit
  rw [hexec]
  cases hv : verdictOf s.params.crc f with
  | accept value =>
    refine ⟨_, State.judge_accept hk value, fun value' h => ?_, fun _ h => Verdict.noConfusion h,
      fun _ h => Verdict.noConfusion h, (hframe (.attempt k .ok)).endOperation (T := T.setReadFailed false) _⟩
    cases h
    exact ⟨State.endOperation_transceiver_same _ _ _ _, (State.endOperation_bus _ _ _ _ _).trans (if_pos rfl), rfl⟩
  | reject kind =>
    refine ⟨_, State.judge_reject hk kind, fun _ h => Verdict.noConfusion h, ?_⟩
    obtain ⟨hlt, e⟩ | ⟨hle, e⟩ := State.failAttempt_cases s t T k kind <;> rw [e]
    · refine ⟨fun kind' h _ => ?_, fun _ _ h => absurd hlt (by omega), (hframe _).setTransceiver _⟩
      cases h
      exact ⟨State.transceiver_setTransceiver_same _ _ _, rfl, rfl⟩
    · refine ⟨fun _ _ h => absurd h (by omega), fun kind' h _ => ?_,
        (hframe _).endOperation (T := T.setReadFailed true) _⟩
      cases h
      exact ⟨State.endOperation_transceiver_same _ _ _ _, (State.endOperation_bus _ _ _ _ _).trans (if_pos rfl), rfl⟩

/-! ### The agents -/

theorem decode_encode_frame {i : Instr} (h : i.format = .frame) : decode .frame (encode i) = .ok (i, []) := by
  cases i
  case writeFrame | readReq | reply => simp [decode, decodeFrame, encode, wordBytes, Except.map]
  all_goals cases h

/-- Settles O48: a frame row delivers the encoding of the frame. -/
theorem frameRowsArrive : Obligations.FrameRowsArrive := by
  intro s i hf
  refine ⟨_, encode i, exec_frame hf s, decode_encode_frame hf, ?_, rfl, (MicroFrame.refl s _ _ _).setUart _⟩
  rw [State.uart_deliver, if_pos rfl]

theorem State.completeHold_of_held {s : State} {t : Nat} {T : Transceiver} {holds : Phase → Bool}
    (hT : s.transceiver t = some T) (hp : holds T.phase = true) (hh : T.hold = .started) :
    s.completeHold holds t = s.setTransceiver t { T with hold := .completed } := by
  simp [State.completeHold, hT, hp, hh]

theorem State.completeHold_of_free {s : State} {t : Nat} {T : Transceiver} {holds : Phase → Bool}
    (hT : s.transceiver t = some T) (h : holds T.phase = false ∨ T.hold ≠ .started) : s.completeHold holds t = s := by
  obtain h | h := h <;> simp [State.completeHold, hT, h]

/-- Settles O49: both completions are `State.completeHold`, each with its own phases. -/
theorem clockAndCompletions : Obligations.ClockAndCompletions := by
  intro s moves
  refine ⟨fun n hs => ⟨_, step_cons hs, ?_⟩, fun t T m holds hT hm hs => ?_⟩
  · simp [BitVec.toNat_add, BitVec.toNat_ofNat]
  obtain ⟨agent, hstep, hag⟩ : ∃ agent : Phase → Bool,
      step s = .next (({ s with schedule := moves } : State).completeHold agent t) ∧ agent T.phase = holds := by
    rw [step_cons hs]
    obtain ⟨rfl, rfl⟩ | ⟨rfl, rfl⟩ := hm
    · exact ⟨Phase.sends, rfl, by cases T.phase <;> rfl⟩
    · exact ⟨Phase.waits, rfl, by cases T.phase <;> rfl⟩
  subst hag
  rw [hstep]
  refine ⟨fun hp hh => ?_, fun h => ?_⟩
  · rw [State.completeHold_of_held (s := { s with schedule := moves }) hT hp hh]
    exact ⟨_, rfl, State.transceiver_setTransceiver_same _ _ _, rfl, (MicroFrame.refl _ _ _ _).setTransceiver _⟩
  · rw [State.completeHold_of_free (s := { s with schedule := moves }) hT h]

/-- Settles O45: a program that decodes is not empty, and its caller's step runs what it decodes to. -/
theorem callerStepRunsDecoded : Obligations.CallerStepRunsDecoded := by
  intro s ctx moves i more hs hd
  rw [step_cons hs, move_caller, callerStep]
  cases hp : s.program with
  | nil =>
    rw [hp] at hd
    cases hd
  | cons b bs =>
    rw [hp] at hd
    simp only [hd]

theorem plainStep_idle {s : State} {t : Nat} {T : Transceiver} (hp : T.phase = .idle) : plainStep t T s = .next s := by
  simp only [plainStep, hp]

theorem plainStep_wEnd {s : State} {t : Nat} {T : Transceiver} (hp : T.phase = .wEnd) :
    plainStep t T s = .next (s.endOperation t T .written) := by
  simp only [plainStep, hp]

/-- Settles O46: the step of a sequencer that no fault has stopped is `exec` of what its phase or its move names. -/
theorem sequencerStepRunsPhase : Obligations.SequencerStepRunsPhase := by
  intro s t T moves hT
  have hT' : ({ s with schedule := moves } : State).transceiver t = some T := hT
  refine ⟨fun hstop hs => ?_, fun hstop hs => ?_, fun addr regAddr value baud bs i hi hs => ?_⟩
  · rw [step_cons hs, move_sequencer]
    refine ⟨fun i hi => sequencerStep_micro hT' hstop hi, fun hp => ?_, fun hp he => ?_⟩
    · rw [sequencerStep_plain hT' hstop (by simp only [microOp, hp]), plainStep_idle hp]
    · rw [sequencerStep_plain hT' hstop (by simp only [microOp, hp, he])]
      exact ⟨_, plainStep_wEnd hp, State.endOperation_transceiver_same _ _ _ _,
        (State.endOperation_bus _ _ _ _ _).trans (if_pos rfl), rfl, (MicroFrame.refl _ _ _ _).endOperation _⟩
  · rw [step_cons hs, move_sequencer, sequencerStep_stopped hT' hstop]
  · have hpure : isPure i = true := by
      simp only [List.mem_cons, List.not_mem_nil, or_false] at hi
      obtain rfl | rfl | rfl | rfl := hi <;> rfl
    rw [step_cons hs, move_evaluate]
    refine ⟨fun hstop => ?_, fun hstop => evaluateStep_stopped hT' hstop hpure⟩
    simp [evaluateStep, hpure, State.halted, hT', hstop]

/-- Settles O47: a delivery and a re-rating each write the one channel. -/
theorem environmentDelivers : Obligations.EnvironmentDelivers := by
  intro s u moves
  refine ⟨fun bs hs => ⟨_, (step_cons hs).trans (environmentStep_deliver u bs _), ?_, rfl,
      (MicroFrame.refl _ _ _ _).setUart _⟩,
    fun baud hs => ⟨_, step_cons hs, State.uart_setUart_same _ _ _, rfl, (MicroFrame.refl _ _ _ _).setUart _⟩⟩
  exact (State.uart_deliver _ _ _ _).trans (if_pos rfl)

end Sys2Proof.Machine

namespace Sys2Proof.Machine

/-! ### Evaluating a pure row -/

/-- An evaluation that no fault has stopped writes the latch of the value or leaves every record alone. -/
theorem evaluateStep_running {s s' : State} {t : Nat} {T : Transceiver} {i : Instr} (hT : s.transceiver t = some T)
    (hs : T.stopped = false) (h : evaluateStep t i s = .next s') :
    (∃ v, s' = ({ s with running := some t } : State).setTransceiver t { T with value := some v }) ∨
      s' = { s with running := some t } := by
  obtain ⟨-, ⟨hh, -⟩ | ⟨-, inRange, v, he⟩⟩ := evaluateStep_next h
  · simp [State.halted, hT, hs] at hh
  · obtain ⟨t', T', hr, hT', -, h⟩ := evaluated_next he
    cases hr
    cases hT.symm.trans hT'
    exact h.imp_left fun e => ⟨v, e⟩

theorem admitsReg_eq_false {r : Byte} (h : 0x7F < r.toNat) : admitsReg r = false :=
  decide_eq_false (Nat.not_le.mpr h)

/-- Settles O7: an evaluation writes the latch of the value or nothing, and out of range it is the shared operation out of
range. -/
theorem pureRowsNeverDisturb : Obligations.PureRowsNeverDisturb := by
  intro s t T hT
  refine ⟨fun s' i moves hstop hs h => ?_, fun addr regAddr value hr hp => ⟨fun hreg => ?_, ?_⟩⟩
  · rw [step_cons hs, move_evaluate] at h
    obtain ⟨v, rfl⟩ | rfl := evaluateStep_running (s := { s with schedule := moves }) hT hstop h
    · exact ⟨rfl, ⟨_, State.transceiver_setTransceiver_same _ _ _⟩, (MicroFrame.refl _ _ _ _).setTransceiver _⟩
    · exact ⟨rfl, ⟨T.value, hT⟩, MicroFrame.refl _ _ _ _⟩
  · have hout := admitsReg_eq_false hreg
    exact ⟨evaluated_outOfRange hr hT hp hout, evaluated_outOfRange hr hT hp hout⟩
  · exact evaluated_outOfRange hr hT hp (by decide)

/-! ### The configuration of a transceiver (R34, R63) -/

/-- The record of `k`, if there is one, keeps its configuration, its bus and its UART channel. -/
def State.keepsConfig (s s' : State) (k : Nat) : Prop :=
  ∀ T, s.transceiver k = some T → ∃ T', s'.transceiver k = some T' ∧ T'.cfg = T.cfg ∧ T'.bus = T.bus ∧ T'.uart = T.uart

section Config

variable {s s' : State} {k t : Nat} {T T' : Transceiver}

theorem State.keepsConfig_of_transceiver_eq (h : s'.transceiver k = s.transceiver k) : s.keepsConfig s' k :=
  fun T hT => ⟨T, h.trans hT, rfl, rfl, rfl⟩

/-- Writing one record keeps every configuration when it keeps the one it writes. -/
theorem State.keepsConfig_of_write (hT : s.transceiver t = some T)
    (h : s'.transceiver k = if k = t then some T' else s.transceiver k) (hc : T'.cfg = T.cfg) (hb : T'.bus = T.bus)
    (hu : T'.uart = T.uart) : s.keepsConfig s' k := by
  by_cases hk : k = t
  · subst hk
    intro K hK
    cases hT.symm.trans hK
    exact ⟨T', h.trans (if_pos rfl), hc, hb, hu⟩
  · exact State.keepsConfig_of_transceiver_eq (h.trans (if_neg hk))

/-- An issue that is not a CONSTRUCT of `k` keeps the configuration of `k`. -/
theorem Issued.keepsConfig {i : Instr} (h : Issued s i s') (k : Nat) :
    (∃ uart rsense addr bus pin, i = .construct k uart rsense addr bus pin) ∨ s.keepsConfig s' k := by
  cases h
  case raised | answered => exact .inr (State.keepsConfig_of_transceiver_eq rfl)
  case init => exact .inr (State.keepsConfig_of_transceiver_eq (State.initBus_transceiver _ _ _))
  case constructed t uart rsense addr b pin _ _ =>
    by_cases hk : k = t
    · exact .inl ⟨uart, rsense, addr, b, pin, by rw [hk]⟩
    · refine .inr (State.keepsConfig_of_transceiver_eq ?_)
      rw [State.transceiver_setTransceiver_other _ hk, State.initBus_transceiver]
  case reads hT _ _ _ | writes hT _ _ _ | transacts hT _ _ _ _ _ =>
    exact .inr (State.keepsConfig_of_write hT (State.startOperation_transceiver _ _ _ k) rfl rfl rfl)

/-- A move is the caller's issue of a CONSTRUCT of `k`, or keeps the configuration of `k`. -/
theorem Stepped.keepsConfig {m : Move} (h : Stepped s m s') (k : Nat) :
    (∃ ctx uart rsense addr bus pin rest, m = .caller ctx ∧
      decode .operation s.program = .ok (.construct k uart rsense addr bus pin, rest)) ∨ s.keepsConfig s' k := by
  cases h
  case issued ctx i rest hd h =>
    obtain ⟨uart, rsense, addr, bus, pin, rfl⟩ | hk := h.keepsConfig k
    · exact .inl ⟨ctx, uart, rsense, addr, bus, pin, rest, rfl, hd⟩
    · exact .inr hk
  case moved t T r hT h =>
    obtain ⟨T', ho⟩ := h.own hT
    exact .inr (State.keepsConfig_of_write hT (ho.transceivers k) ho.cfg ho.bus ho.uart)
  case evaluated t T i v _ hT _ =>
    exact .inr (State.keepsConfig_of_write hT (State.transceiver_setTransceiver _ _ k _) rfl rfl rfl)
  case completed t T hT _ _ =>
    exact .inr (State.keepsConfig_of_write hT (State.transceiver_setTransceiver _ _ k _) rfl rfl rfl)
  case noProgram | noTransceiver | outOfRange | halted | delivered | configured | nothing | clocked =>
    exact .inr (State.keepsConfig_of_transceiver_eq rfl)

end Config

/-- Settles O16: a step is a CONSTRUCT issued on the name, or one move that keeps its configuration. -/
theorem configurationReadOnly : Obligations.ConfigurationReadOnly := by
  intro s s' t T h hT
  obtain ⟨-, rfl⟩ | ⟨m, moves, hs, hmove⟩ := step_next h
  · exact .inr ⟨T, hT, rfl, rfl, rfl⟩
  · obtain ⟨ctx, uart, rsense, addr, bus, pin, rest, rfl, hd⟩ | hk := hmove.keepsConfig t
    · exact .inl ⟨ctx, moves, uart, rsense, addr, bus, pin, rest, hs, hd⟩
    · exact .inr (hk T hT)

end Sys2Proof.Machine

/-! PROOFS of the statements of the family `30_encoding.md`. -/

namespace Sys2Proof

/-! ### Decode after encode -/

theorem decode_operation_cons (op : Byte) (bs : List Byte) : decode .operation (op :: bs) = decodeOperands op bs := rfl

/-- Each operand is read back from the bytes it was written to, in the order of its row. -/
theorem decode_encode_operation {i : Instr} (h : i.format = .operation) (rest : List Byte) :
    decode .operation (encode i ++ rest) = .ok (i, rest) := by
  cases i
  case writeFrame | readReq | reply => cases h
  all_goals
    simp [encode, decode_operation_cons, decodeOperands, takeByte, bind, Except.bind, pure, Except.pure]

/-- Settles O1: an operation reads its operands back, and a frame its fields. -/
theorem decodeOfEncode : Obligations.DecodeOfEncode :=
  fun _ rest => ⟨fun h => decode_encode_operation h rest, Machine.decode_encode_frame⟩

/-! ### Encode after decode -/

theorem tag_of_toNat {op : Byte} {n : Nat} (h : op.toNat = n) : op = BitVec.ofNat 8 n := by
  rw [← h, BitVec.ofNat_toNat, BitVec.setWidth_eq]

/-- A row that reads on after the piece `a` began with the bytes `write a` that spell it. -/
theorem piece_of_bind {α β : Type} {read : Parse α} {write : α → List Byte}
    (hread : ∀ {bs rest : List Byte} {a : α}, read bs = .ok (a, rest) → bs = write a ++ rest) {bs : List Byte}
    {next : α × List Byte → Except Reject β} {b : β} (h : (read bs >>= next) = .ok b) :
    ∃ a rest, bs = write a ++ rest ∧ next (a, rest) = .ok b := by
  obtain ⟨⟨a, rest⟩, ha, h⟩ := parse_bind_ok h
  exact ⟨a, rest, hread ha, h⟩

theorem byte_of_bind {β : Type} {bs : List Byte} {next : Byte × List Byte → Except Reject β} {b : β}
    (h : (takeByte bs >>= next) = .ok b) : ∃ a rest, bs = a :: rest ∧ next (a, rest) = .ok b :=
  piece_of_bind (write := fun a => [a]) takeByte_ok h

/-- The tag names the row, and each operand read was spelled by its encoder. The cases are the decoder's arms in its own order,
by tag; the last two are the tags with no operand and the bytes that are no tag. -/
theorem encode_of_decodeOperands {op : Byte} {bs rest : List Byte} {i : Instr}
    (h : decodeOperands op bs = .ok (i, rest)) : op :: bs = encode i ++ rest := by
  unfold decodeOperands at h
  split at h
  case h_1 htag =>
    obtain ⟨bus, bs, hbus, h⟩ := piece_of_bind takeNat_ok h
    obtain ⟨pin, bs, hpin, h⟩ := piece_of_bind takePin_ok h
    cases h
    simp [encode, tag_of_toNat htag, hbus, hpin]
  case h_2 htag =>
    obtain ⟨t, bs, ht, h⟩ := piece_of_bind takeNat_ok h
    obtain ⟨uart, bs, huart, h⟩ := piece_of_bind takeNat_ok h
    obtain ⟨rsense, bs, hrsense, h⟩ := piece_of_bind takeNat_ok h
    obtain ⟨addr, bs, haddr, h⟩ := byte_of_bind h
    obtain ⟨bus, bs, hbus, h⟩ := piece_of_bind takeNat_ok h
    obtain ⟨pin, bs, hpin, h⟩ := piece_of_bind takePin_ok h
    cases h
    simp [encode, tag_of_toNat htag, ht, huart, hrsense, haddr, hbus, hpin]
  case h_3 htag =>
    obtain ⟨t, bs, ht, h⟩ := piece_of_bind takeNat_ok h
    obtain ⟨reg, bs, hreg, h⟩ := byte_of_bind h
    cases h
    simp [encode, tag_of_toNat htag, ht, hreg]
  case h_4 htag =>
    obtain ⟨t, bs, ht, h⟩ := piece_of_bind takeNat_ok h
    obtain ⟨reg, bs, hreg, h⟩ := byte_of_bind h
    obtain ⟨v, bs, hv, h⟩ := piece_of_bind takeWord_ok h
    cases h
    simp [encode, tag_of_toNat htag, ht, hreg, hv]
  case h_5 htag =>
    obtain ⟨t, bs, ht, h⟩ := piece_of_bind takeNat_ok h
    obtain ⟨dg, bs, hdg, h⟩ := piece_of_bind takeList_ok h
    obtain ⟨n, bs, hn, h⟩ := piece_of_bind takeNat_ok h
    obtain ⟨timeout, bs, htimeout, h⟩ := piece_of_bind takeNat_ok h
    cases h
    simp [encode, tag_of_toNat htag, ht, hdg, hn, htimeout]
  case h_6 htag =>
    obtain ⟨f, bs, hf, h⟩ := piece_of_bind takeFrame_ok h
    cases h
    simp [encode, tag_of_toNat htag, hf]
  case h_7 htag =>
    obtain ⟨d, bs, hd, h⟩ := piece_of_bind (write := fun d => [dirByte d]) takeDir_ok h
    cases h
    simp [encode, tag_of_toNat htag, hd]
  case h_9 htag | h_10 htag =>
    obtain ⟨n, bs, hn, h⟩ := piece_of_bind takeNat_ok h
    cases h
    simp [encode, tag_of_toNat htag, hn]
  case h_15 htag =>
    obtain ⟨addr, bs, haddr, h⟩ := byte_of_bind h
    obtain ⟨reg, bs, hreg, h⟩ := byte_of_bind h
    cases h
    simp [encode, tag_of_toNat htag, haddr, hreg]
  case h_16 htag =>
    obtain ⟨addr, bs, haddr, h⟩ := byte_of_bind h
    obtain ⟨reg, bs, hreg, h⟩ := byte_of_bind h
    obtain ⟨v, bs, hv, h⟩ := piece_of_bind takeWord_ok h
    cases h
    simp [encode, tag_of_toNat htag, haddr, hreg, hv]
  case h_17 htag =>
    obtain ⟨l, bs, hl, h⟩ := piece_of_bind takeList_ok h
    cases h
    simp [encode, tag_of_toNat htag, hl]
  case h_18 htag =>
    obtain ⟨baud, bs, hbaud, h⟩ := piece_of_bind takeWord_ok h
    cases h
    simp [encode, tag_of_toNat htag, hbaud]
  case h_8 htag | h_11 htag | h_12 htag | h_13 htag | h_14 htag =>
    cases h
    simp [encode, tag_of_toNat htag]
  case h_19 => cases h

theorem encode_of_decode_operation {bs rest : List Byte} {i : Instr} (h : decode .operation bs = .ok (i, rest)) :
    bs = encode i ++ rest := by
  obtain ⟨op, bs, rfl, h⟩ := byte_of_bind h
  exact encode_of_decodeOperands h

theorem encode_of_decode_frame {bs rest : List Byte} {i : Instr} (h : decode .frame bs = .ok (i, rest)) :
    i.format = .frame ∧ bs = encode i ++ rest := by
  simp only [decode] at h
  cases hd : decodeFrame bs with
  | error e =>
    rw [hd] at h
    cases h
  | ok j =>
    rw [hd] at h
    cases h
    obtain ⟨hf, rfl⟩ := Machine.encode_of_decodeFrame hd
    exact ⟨hf, (List.append_nil _).symm⟩

/-- Settles O2: every piece read is spelled as the encoder writes it, in operation words and in frames. -/
theorem encodeOfDecode : Obligations.EncodeOfDecode := by
  intro f bs i rest h
  cases f with
  | operation => exact ⟨format_of_decode h, encode_of_decode_operation h⟩
  | frame => exact encode_of_decode_frame h

/-! ### Words of the tables, and bytes that are no tag -/

/-- Settles O3: the five words are closed, and the decoder is run on them. -/
theorem specWordsDecode : Obligations.SpecWordsDecode := by
  unfold Obligations.SpecWordsDecode
  decide

/-- The eighteen tags of R86. -/
def operationTags : List Byte :=
  [0x01#8, 0x02#8, 0x03#8, 0x04#8, 0x05#8, 0x06#8, 0x10#8, 0x11#8, 0x12#8, 0x13#8, 0x14#8, 0x15#8, 0x16#8, 0x17#8, 0x18#8,
    0x19#8, 0x1A#8, 0x1B#8]

/-- A byte that is no tag falls through to the decoder's last arm, whatever follows it. -/
theorem decodeOperands_badTag {op : Byte} (bs : List Byte) (hop : op ∉ operationTags) :
    decodeOperands op bs = .error (.badTag op) := by
  unfold decodeOperands
  split
  case h_19 => rfl
  all_goals
    rename_i htag
    obtain rfl := tag_of_toNat htag
    exact absurd (by decide) hop

/-! ### Fields of a write frame -/

/-- A register address that the framer admits has bit 7 clear: it is its own low seven bits. -/
theorem toNat_regField {r : Byte} (h : r.toNat ≤ 0x7F) : (regField r).toNat = r.toNat := by
  simp only [regField, BitVec.extractLsb'_toNat, Nat.shiftRight_zero]
  exact Nat.mod_eq_of_lt (by omega)

theorem setWidth_regField {r : Byte} (h : r.toNat ≤ 0x7F) : (regField r).setWidth 8 = r := by
  apply BitVec.eq_of_toNat_eq
  rw [BitVec.toNat_setWidth_of_le (by decide), toNat_regField h]

/-- Setting the write flag of R124 makes the register byte of R71. -/
theorem or_writeFlag (r : Byte) : r ||| writeFlag = regByte true (regField r) := by
  revert r
  decide

theorem toNat_regByte_true (reg : BitVec 7) : (regByte true reg).toNat = reg.toNat + 0x80 := by
  revert reg
  decide

theorem frameOf_address (b0 b1 b2 b3 b4 b5 b6 b7 : Byte) :
    (frameOf b0 b1 b2 b3 b4 b5 b6 b7).extractLsb' 48 8 = b1 := by
  have hbytes := frameBytes_frameOf b0 b1 b2 b3 b4 b5 b6 b7
  simp only [frameBytes, List.cons.injEq] at hbytes
  obtain ⟨-, h1, -⟩ := hbytes
  exact h1

/-- Bit `40 + i` of the frame word is bit `i` of byte 2. -/
theorem frameOf_register (b0 b1 b2 b3 b4 b5 b6 b7 : Byte) :
    (frameOf b0 b1 b2 b3 b4 b5 b6 b7).extractLsb' 40 7 = regField b2 := by
  apply BitVec.eq_of_getLsbD_eq
  intro i hi
  simp only [regField, BitVec.getLsbD_extractLsb', getLsbD_frameOf]
  grind

/-- Bits 8 to 39 of the frame word are those of bytes 3 to 6, big-endian. -/
theorem frameOf_value (b0 b1 b2 b3 b4 b5 b6 b7 : Byte) :
    (frameOf b0 b1 b2 b3 b4 b5 b6 b7).extractLsb' 8 32 = wordOf b3 b4 b5 b6 := by
  apply BitVec.eq_of_getLsbD_eq
  intro i hi
  simp only [BitVec.getLsbD_extractLsb', getLsbD_frameOf, getLsbD_wordOf]
  grind

/-- The bytes of `wordBytes` weigh as big-endian digits (30_encoding.md R75). -/
theorem toNat_wordBytes (v : Word) :
    v.toNat = (v.extractLsb' 24 8).toNat * 2 ^ 24 + (v.extractLsb' 16 8).toNat * 2 ^ 16 +
      (v.extractLsb' 8 8).toNat * 2 ^ 8 + (v.extractLsb' 0 8).toNat := by
  conv_lhs => rw [← wordOf_wordBytes v, toNat_wordOf]
  omega

end Sys2Proof

namespace Sys2Proof.Machine

/-! ### The framer -/

/-- Settles O5: the fields of the frame word are the bytes the framer wrote, and R80 takes each back. -/
theorem writeFrameRoundTrip : Obligations.WriteFrameRoundTrip := by
  intro crc addr regAddr value hreg
  refine ⟨_, _, _, _, _, _, _, _, rfl, frameOf_address .., ?_, ?_⟩
  · rw [frameOf_register, or_writeFlag, regField_regByte, setWidth_regField hreg]
  · rw [frameOf_value, wordOf_wordBytes]

theorem admitsReg_eq_true {r : Byte} (h : r.toNat ≤ 0x7F) : admitsReg r = true := decide_eq_true h

/-- Settles O6: inside an operation both rows are the shared evaluation, in range, of the datagrams of R120 and R121. -/
theorem framerBuildsFrames : Obligations.FramerBuildsFrames := by
  intro s t T addr regAddr value hr hT hp hreg
  have hin := admitsReg_eq_true hreg
  refine ⟨_, _, _, _, _, _, evaluated_run hr hT hp hin, rfl, evaluated_run hr hT hp hin, ?_, toNat_wordBytes value⟩
  rw [or_writeFlag, toNat_regByte_true, toNat_regField hreg]

/-! ### SCAN_ENTER -/

/-- Settles O22: the operation in flight gives the datagram and the budget, and the step writes the four registers of R160. -/
theorem scanEnterEffect : Obligations.ScanEnterEffect := by
  intro s t T dg b0 b2 n hr hT hp hjob h0 h2
  have hi : microOp s.params T = some .scanEnter := by simp only [microOp, hp]
  obtain ⟨hdg, hn⟩ : T.datagram = some dg ∧ T.scanBudget s.params = some n := by
    obtain ⟨hj, hreq, rfl⟩ | hj := hjob
    · exact ⟨by simp only [Transceiver.datagram, hj, hreq], by simp only [Transceiver.scanBudget, hj]⟩
    · exact ⟨by simp only [Transceiver.datagram, hj], by simp only [Transceiver.scanBudget, hj]⟩
  have hbyte : ∀ i, T.byteAt i = dg[i]? := fun i => by simp only [Transceiver.byteAt, hdg]
  refine ⟨_, targetOf b0 b2, (onSequencer_run hr hT hi).trans ?_, State.transceiver_setTransceiver_same _ _ _,
    targetOf_toNat b0 b2, rfl, (MicroFrame.refl s _ _ _).setTransceiver _⟩
  simp only [hbyte, h0, h2, hn]

/-! ### What the caller may not issue -/

/-- Settles O50: the caller's step runs what its bytes decode to with no transceiver running, and every micro-step needs one:
eight the phase that names them, the four pure ones the operation in flight. -/
theorem microStepsOnlyBySequencer : Obligations.MicroStepsOnlyBySequencer := by
  intro s i ctx moves more d k us addr regAddr value baud bs hi hs hd
  obtain ⟨issue, hr, hstep⟩ : ∃ issue : State, issue.running = none ∧ step s = exec i issue :=
    ⟨_, rfl, callerStepRunsDecoded s ctx moves i more hs hd⟩
  rw [hstep]
  simp only [List.mem_cons, List.not_mem_nil, or_false] at hi
  obtain rfl | rfl | rfl | rfl | rfl | rfl | rfl | rfl | rfl | rfl | rfl | rfl := hi
  iterate 8 exact onSequencer_caller hr
  all_goals exact evaluated_caller hr

/-- Settles O4: the decoder stops at the tag, so the caller's step does. -/
theorem unknownTagRefused : Obligations.UnknownTagRefused := by
  intro s ctx moves op bs hs hp hop
  rw [step_cons hs, move_caller, callerStep]
  simp only [hp, decode_operation_cons, decodeOperands_badTag bs hop]

end Sys2Proof.Machine

namespace Sys2Proof.Machine

/-! ### BUS_INIT (40_bus_buffer.md R100, R101) -/

section BusInit

variable {s : State} {b : Nat} {pin : Option Nat}

theorem State.initBus_of_initialized (hi : (s.bus b).initialized = true) : s.initBus b pin = s := if_pos hi

theorem State.initBus_of_handle {h : Nat} (hi : (s.bus b).initialized = false)
    (hp : pinHandle s.params.pins pin = some h) :
    s.initBus b pin =
      ({ s with draws := s.draws + 1 } : State).setBus b
        { s.bus b with handle := some h, initialized := true, pin := .output (Config.freeLevel s.draws) } := by
  simp [State.initBus, hi, hp]

theorem State.initBus_of_noHandle (hi : (s.bus b).initialized = false) (hp : pinHandle s.params.pins pin = none) :
    s.initBus b pin = s.emit (.log .pinUnconfigured) := by
  simp [State.initBus, hi, hp]

theorem pinHandle_eq_none {pins : List (Nat × Nat)} (h : ∀ p, pin = some p → pins.lookup p = none) :
    pinHandle pins pin = none := by
  cases pin with
  | none => rfl
  | some p => exact h p rfl

end BusInit

/-- Settles O10: the preconditions hold, so the row is `State.initBus`, in each of its three cases. -/
theorem busInitEffect : Obligations.BusInitEffect := by
  intro s bus pin hc hv
  have hrun : exec (.busInit bus pin) s = .next (s.initBus bus pin) := guarded_none (requestChecks_none hc hv)
  rw [hrun]
  refine ⟨fun hi => ?_, fun hi p h hp hl => ?_, fun hi hp => ?_⟩
  · rw [State.initBus_of_initialized hi]
  · subst hp
    rw [State.initBus_of_handle (pin := some p) hi hl]
    exact ⟨_, _, rfl, State.bus_setBus_same _ _ _, rfl, rfl,
      { ((MicroFrame.refl { s with draws := s.draws + 1 } _ _ _).setBus _).frame with }⟩
  · rw [State.initBus_of_noHandle hi (pinHandle_eq_none hp)]
    rfl

/-! ### SET_DIR (40_bus_buffer.md R102, R103) -/

section SetDir

variable {s s1 : State} {t b : Nat} {T : Transceiver} {d : Dir}

theorem State.setDirection_of_initialized (hi : (s.bus b).initialized = true) :
    s.setDirection b d =
      (s.setBus b { s.bus b with direction := directionOf d, pin := .output (level s.params d) }).emit (.dirSet d) :=
  if_pos hi

theorem State.setDirection_of_uninitialized (hi : (s.bus b).initialized = false) : s.setDirection b d = s := by
  simp [State.setDirection, hi]

theorem MicroFrame.setDirection {u k : Option Nat} (h : MicroFrame s s1 (some b) u k) (d : Dir) :
    MicroFrame s (s1.setDirection b d) (some b) u k := by
  obtain ⟨-, e⟩ | ⟨-, e⟩ := State.setDirection_cases s1 b d <;> rw [e]
  · exact (h.setBus _).emit _
  · exact h

theorem directionOf_eq_ite (d : Dir) : directionOf d = if d = .transmit then .transmit else .receive := by
  cases d <;> rfl

theorem level_eq_ite (p : Params) (d : Dir) :
    level p d = if d = .transmit then p.dirTxLevel else !p.dirTxLevel := by
  cases d <;> rfl

/-- In DirTx, DirRx and WDirTx the row is `State.setDirection` on the transceiver's bus, and the next phase. -/
theorem exec_setDir {ph next : Phase} (hr : s.running = some t) (hT : s.transceiver t = some T) (hp : T.phase = ph)
    (hrow : (ph, d, next) ∈ [(Phase.dirTx, Dir.transmit, Phase.tx 0), (.dirRx, .receive, .replyWait),
      (.wDirTx, .transmit, .wTx 0)]) :
    exec (.setDir d) s = .next ((s.setDirection T.bus d).setTransceiver t { T with phase := next }) := by
  simp only [List.mem_cons, Prod.mk.injEq, List.not_mem_nil, or_false] at hrow
  obtain ⟨rfl, rfl, rfl⟩ | ⟨rfl, rfl, rfl⟩ | ⟨rfl, rfl, rfl⟩ := hrow <;>
    exact (onSequencer_run hr hT (by simp only [microOp, hp])).trans (by simp only [hp])

end SetDir

/-- Settles O11: the row is `State.setDirection` and the next phase, and an uninitialised bus is left as it is. -/
theorem setDirEffect : Obligations.SetDirEffect := by
  intro s t T hr hT ph d next hrow hp
  refine ⟨_, exec_setDir hr hT hp hrow, State.transceiver_setTransceiver_same _ _ _, fun hi => ?_, fun hi => ?_,
    ((MicroFrame.refl s _ _ _).setDirection d).setTransceiver _⟩
  · rw [State.setDirection_of_initialized hi, ← directionOf_eq_ite, ← level_eq_ite]
    exact ⟨State.bus_setBus_same _ _ _, rfl⟩
  · rw [State.setDirection_of_uninitialized hi]
    exact ⟨rfl, rfl⟩

/-! ### An initialised bus stays (40_bus_buffer.md R105) -/

/-- Settles O13: of the moves only SET_DIR writes the pin of an initialised bus, and it drives it. -/
theorem initializedBusStays : Obligations.InitializedBusStays := by
  refine ⟨fun _ _ => rfl, fun s s' b h hinit => ?_⟩
  obtain ⟨-, rfl⟩ | ⟨m, moves, -, h⟩ := step_next h
  · exact ⟨hinit, rfl, id⟩
  · have hb := h.pinTo b
    cases hb
    case kept hi hh _ hp => exact ⟨hi.trans hinit, hh, fun ⟨l, hl⟩ => ⟨l, hp.trans hl⟩⟩
    case made h0 _ _ _ _ => exact absurd (hinit.symm.trans h0) (by simp)
    case set hi hh hp _ => exact ⟨hi, hh, fun _ => ⟨_, hp⟩⟩

end Sys2Proof.Machine

namespace Sys2Proof.Machine

/-! ### The turnaround timer (41_turnaround_timer.md R111) -/

/-- The delay fits 32 bits, so it is the quotient itself. -/
theorem turnaroundUs_toNat (baud : Word) : (turnaroundUs baud).toNat = 40000000 / baud.toNat := by
  have hfit : 40000000 / baud.toNat < 2 ^ 32 := (Nat.div_le_self _ _).trans_lt (by decide)
  rw [turnaroundUs, BitVec.toNat_ofNat]
  exact Nat.mod_eq_of_lt hfit

theorem toNat_pos_of_ne_zero {w : Word} (h : w ≠ 0#32) : 0 < w.toNat :=
  Nat.pos_of_ne_zero fun e => h (BitVec.eq_of_toNat_eq e)

/-- Settles O15: the row is the shared evaluation, in range, and its value is the quotient of the division. -/
theorem turnaroundTruncates : Obligations.TurnaroundTruncates := by
  intro s t T baud hr hT hp hbaud
  refine ⟨turnaroundUs baud, evaluated_run hr hT hp (decide_eq_true hbaud), ?_, ?_⟩ <;> rw [turnaroundUs_toNat]
  · exact Nat.div_mul_le_self _ _
  · exact Nat.lt_mul_of_div_lt (Nat.lt_succ_self _) (toNat_pos_of_ne_zero hbaud)

/-! ### CONSTRUCT (41_turnaround_timer.md R110) -/

section Construct

variable {s : State} {t uart : Nat}

theorem idle_of_forall (h : ∀ T, s.transceiver t = some T → T.phase = .idle) : s.idle t = true := by
  cases hT : s.transceiver t with
  | none => simp [State.idle, hT]
  | some T => simp [idle_of_some hT, h T hT]

/-- Past the checks of every operation CONSTRUCT has two of its own: the name, then the channel's rate. -/
theorem constructChecks_firstFault (hc : s.ctx = .stallTolerant) (hv : paramsValid s.params = true) :
    firstFault (s.constructChecks t uart) =
      if s.idle t = false then some .notIdle else if (s.uart uart).baud = 0#32 then some .zeroBaud else none := by
  simp [State.constructChecks, State.requestChecks, hc, hv]

/-- BUS_INIT changes no record but the `BB` it is given. -/
theorem State.initBus_frame (s : State) (b : Nat) (pin : Option Nat) (u k : Option Nat) :
    Frame s (s.initBus b pin) (some b) u k := by
  obtain ⟨-, e⟩ | ⟨-, h, -, e⟩ | ⟨-, -, e⟩ := State.initBus_cases s b pin <;> rw [e]
  · exact (MicroFrame.refl s _ _ _).frame
  · exact { ((MicroFrame.refl { s with draws := s.draws + 1 } _ _ _).setBus _).frame with }
  · exact ((MicroFrame.refl s _ _ _).emit _).frame

theorem State.initBus_answer (s : State) (b : Nat) (pin : Option Nat) : (s.initBus b pin).answer = s.answer := by
  obtain ⟨-, e⟩ | ⟨-, h, -, e⟩ | ⟨-, -, e⟩ := State.initBus_cases s b pin <;> rw [e] <;> rfl

theorem Frame.setTransceiver {s1 : State} {b u : Option Nat} (h : Frame s s1 b u (some t)) (T : Transceiver) :
    Frame s (s1.setTransceiver t T) b u (some t) :=
  { h with
    transceivers := fun j hj =>
      (State.transceiver_setTransceiver_other s1 (fun e => hj (congrArg some e.symm)) T).trans (h.transceivers j hj) }

/-- An operation has ended where its record has returned and nothing is recorded (60_exceptions.md R230). -/
theorem ended_of_returned {T : Transceiver} (hT : s.transceiver t = some T) (hr : T.returned = true)
    (hf : s.faulted = false) : s.ended t = true := by
  simp [State.ended, hT, hr, hf]

end Construct

/-- Settles O14: no precondition fails, so the row is BUS_INIT's body and then the fresh record. -/
theorem constructEffect : Obligations.ConstructEffect := by
  intro s t uart rsense addr bus pin hc hv hbaud hidle
  have hnone : firstFault (s.constructChecks t uart) = none := by
    simp [constructChecks_firstFault hc hv, idle_of_forall hidle, hbaud]
  refine ⟨_, _, _, guarded_none hnone, guarded_none (requestChecks_none hc hv), fun _ => rfl, rfl,
    State.initBus_answer s bus pin, State.transceiver_setTransceiver_same _ _ _, rfl, turnaroundUs_toNat _,
    rfl, rfl, rfl, rfl, rfl, rfl, rfl, rfl, rfl, rfl, rfl, rfl, rfl, rfl, rfl, rfl, rfl, fun hf => ?_,
    (State.initBus_frame s bus pin none (some t)).setTransceiver _⟩
  refine ended_of_returned (State.transceiver_setTransceiver_same _ _ _) rfl ?_
  rwa [State.faulted, State.setTransceiver_faults, State.initBus_faults]

/-- Settles O42: a busy name is the first check that fails, and of an idle name a rate of 0 is. -/
theorem constructPreconditions : Obligations.ConstructPreconditions := by
  intro s t uart rsense addr bus pin hc hv
  refine ⟨fun T hT hp => guarded_some ?_, fun hidle hbaud => guarded_some ?_⟩ <;> rw [constructChecks_firstFault hc hv]
  · exact if_pos ((idle_of_some hT).trans (decide_eq_false hp))
  · simp [idle_of_forall hidle, hbaud]

end Sys2Proof.Machine

/-! PROOFS of the statements of the family `42_framer_crc.md`. -/

namespace Sys2Proof.Machine

/-! ### The default checksum, round by round (42_framer_crc.md R127) -/

/-- The checksum after one round of R127 on the byte `cur`. -/
def crcRound (c cur : Byte) : Byte := if c.getLsbD 7 ^^ cur.getLsbD 0 then (c <<< 1) ^^^ 0x07#8 else c <<< 1

/-- One round on the checksum and the byte it is fed: the next round sees the byte's next bit. -/
def crcStep (x : Byte × Byte) : Byte × Byte := (crcRound x.1 x.2, x.2 >>> 1)

theorem crcBits_succ (n : Nat) (c cur : Byte) : crcBits (n + 1) c cur = crcBits n (crcRound c cur) (cur >>> 1) := rfl

theorem crcBits_eq_iterate (n : Nat) (c cur : Byte) : crcBits n c cur = (crcStep^[n] (c, cur)).1 := by
  induction n generalizing c cur with
  | zero => rfl
  | succ n ih => exact ih (crcRound c cur) (cur >>> 1)

theorem crcTrinamic_concat (bs : List Byte) (b : Byte) : crcTrinamic (bs ++ [b]) = crcBits 8 (crcTrinamic bs) b := by
  rw [crcTrinamic, List.foldl_concat, crcTrinamic]

/-- Settles O8: the row is the shared evaluation of the checksum, and the default one takes each byte through its rounds. -/
theorem crc8RowEffect : Obligations.Crc8RowEffect := by
  intro s t T bs hr hT hp
  refine ⟨crc8 s.params.crc bs, evaluated_run hr hT hp rfl, fun hcrc => ⟨fun hnil => ?_, fun b => ?_⟩⟩
  · rw [hcrc, hnil]
    rfl
  · have hbyte : crc8 s.params.crc (bs ++ [b]) = (crcStep^[8] (crc8 s.params.crc bs, b)).1 := by
      rw [hcrc]
      exact (crcTrinamic_concat bs b).trans (crcBits_eq_iterate 8 _ b)
    refine (evaluated_run hr hT hp rfl).trans ?_
    rw [hbyte]
    rfl

/-! ### Linearity (R128) -/

theorem crcRound_eq_xor (c cur : Byte) :
    crcRound c cur = (c <<< 1) ^^^ (if c.getLsbD 7 ^^ cur.getLsbD 0 then 0x07#8 else 0#8) := by
  unfold crcRound
  split
  · rfl
  · exact (BitVec.xor_zero).symm

/-- The feedback of a round is linear in the bit that decides it. -/
theorem feedback_xor (p q : Bool) :
    (if p ^^ q then 0x07#8 else 0#8) = (if p then 0x07#8 else 0#8) ^^^ (if q then 0x07#8 else 0#8) := by
  revert p q
  decide

theorem crcRound_xor (c c' b b' : Byte) : crcRound (c ^^^ c') (b ^^^ b') = crcRound c b ^^^ crcRound c' b' := by
  simp only [crcRound_eq_xor, BitVec.shiftLeft_xor_distrib, BitVec.getLsbD_xor, feedback_xor]
  ac_rfl

theorem crcBits_xor (n : Nat) (c c' b b' : Byte) : crcBits n (c ^^^ c') (b ^^^ b') = crcBits n c b ^^^ crcBits n c' b' := by
  induction n generalizing c c' b b' with
  | zero => rfl
  | succ n ih => simp only [crcBits_succ, crcRound_xor, BitVec.ushiftRight_xor_distrib, ih]

/-- Linearity over two byte lists of one length, fed from any two checksums. -/
theorem foldl_crcBits_xor (c c' : Byte) (a b : List Byte) (h : a.length = b.length) :
    (List.zipWith (fun x y => x ^^^ y) a b).foldl (crcBits 8) (c ^^^ c') =
      a.foldl (crcBits 8) c ^^^ b.foldl (crcBits 8) c' := by
  induction a generalizing b c c' with
  | nil =>
    cases b with
    | nil => rfl
    | cons y b => cases h
  | cons x a ih =>
    cases b with
    | nil => cases h
    | cons y b =>
      simp only [List.zipWith_cons_cons, List.foldl_cons, crcBits_xor]
      exact ih _ _ b (Nat.succ.inj h)

theorem crcTrinamic_zipWith_xor {a b : List Byte} (h : a.length = b.length) :
    crcTrinamic (List.zipWith (fun x y => x ^^^ y) a b) = crcTrinamic a ^^^ crcTrinamic b :=
  foldl_crcBits_xor 0#8 0#8 a b h

theorem crcTrinamic_replicate_zero (n : Nat) : crcTrinamic (List.replicate n 0#8) = 0#8 := by
  induction n with
  | zero => rfl
  | succ n ih =>
    rw [List.replicate_succ', crcTrinamic_concat, ih]
    decide

/-! ### A changed byte changes the checksum (R128) -/

/-- Where two checksums agree, their difference is sent to 0, by linearity. -/
theorem crcBits_difference {n : Nat} {c c' b b' : Byte} (h : crcBits n c b = crcBits n c' b') :
    crcBits n (c ^^^ c') (b ^^^ b') = 0#8 := by
  rw [crcBits_xor, h, BitVec.xor_self]

/-- Eight rounds are one to one in the checksum: of all differences only 0 is sent to 0. -/
theorem crcBits_checksum_injective (b : Byte) : Function.Injective (crcBits 8 · b) := by
  have hker : ∀ d : Byte, crcBits 8 d 0#8 = 0#8 → d = 0#8 := by decide +kernel
  intro c c' h
  have hdiff := crcBits_difference h
  rw [BitVec.xor_self] at hdiff
  exact BitVec.xor_eq_zero_iff.mp (hker _ hdiff)

/-- Eight rounds are one to one in the byte fed: they feed in all of its bits. -/
theorem crcBits_byte_injective (c : Byte) : Function.Injective (crcBits 8 c) := by
  have hker : ∀ d : Byte, crcBits 8 0#8 d = 0#8 → d = 0#8 := by decide +kernel
  intro b b' h
  have hdiff := crcBits_difference h
  rw [BitVec.xor_self] at hdiff
  exact BitVec.xor_eq_zero_iff.mp (hker _ hdiff)

/-- The bytes after a point carry a difference of the checksums there to the end. -/
theorem foldl_crcBits_injective (bs : List Byte) : Function.Injective (bs.foldl (crcBits 8)) := by
  induction bs with
  | nil => exact Function.injective_id
  | cons b bs ih => exact ih.comp (crcBits_checksum_injective b)

/-- A nonzero error in one byte changes the checksum. -/
theorem crcTrinamic_modify_ne {a : List Byte} {n : Nat} {d : Byte} (hn : n < a.length) (hd : d ≠ 0#8) :
    crcTrinamic (a.modify n (fun x => x ^^^ d)) ≠ crcTrinamic a := by
  intro h
  have hsplit : a = a.take n ++ a[n] :: a.drop (n + 1) := by rw [← List.drop_eq_getElem_cons hn, List.take_append_drop]
  rw [List.modify_eq_take_cons_drop hn, congrArg crcTrinamic hsplit] at h
  simp only [crcTrinamic, List.foldl_append, List.foldl_cons] at h
  have hbyte : a[n] ^^^ d = a[n] := crcBits_byte_injective _ (foldl_crcBits_injective _ h)
  exact hd ((BitVec.xor_right_inj a[n]).mp (hbyte.trans BitVec.xor_zero.symm))

theorem shiftLeft_one_ne_zero {bit : Nat} (h : bit < 8) : 1#8 <<< bit ≠ 0#8 := by
  have hall : ∀ i : Fin 8, 1#8 <<< i.val ≠ 0#8 := by decide
  exact hall ⟨bit, h⟩

/-- Settles O9: linearity gives (c), and with the rounds one to one in each argument (d); the frame of (e) is closed. -/
theorem crcDefaultProperties : Obligations.CrcDefaultProperties :=
  ⟨rfl, crcTrinamic_replicate_zero, fun _ _ => crcTrinamic_zipWith_xor,
    fun _ _ _ hlen hn hbit => crcTrinamic_modify_ne (hlen ▸ hn) (shiftLeft_one_ne_zero hbit), by decide +kernel⟩

/-! ### READ's and WRITE's issue (46_read_write.md R190, R200) -/

theorem registerChecks_none {s : State} {t : Nat} {T : Transceiver} {regAddr : Byte} (hc : s.ctx = .stallTolerant)
    (hv : paramsValid s.params = true) (hT : s.transceiver t = some T) (hidle : T.phase = .idle)
    (hreg : regAddr.toNat ≤ 0x7F) (hbus : (s.bus T.bus).busy = false) :
    firstFault (s.registerChecks t regAddr) = none := by
  simp [State.registerChecks, State.requestChecks, State.ownerChecks, hc, hv, hT, idle_of_some hT, hidle,
    admitsReg_eq_true hreg, contended_of_some hT, hbus]

theorem State.startOperation_bus_same (s : State) (t : Nat) (T : Transceiver) :
    (s.startOperation t T).bus T.bus = { s.bus T.bus with busy := true } :=
  (State.startOperation_bus s t T T.bus).trans (if_pos rfl)

/-- Settles O33: no precondition fails, so the issue is the start of the operation, with the request built. -/
theorem readStarts : Obligations.ReadStarts := by
  intro s t T regAddr hc hv hT hidle hreg hbus
  exact ⟨_, (guarded_none (registerChecks_none hc hv hT hidle hreg hbus)).trans (withTransceiver_some hT),
    State.startOperation_transceiver_same _ _ _, State.startOperation_bus_same s t _, rfl,
    (MicroFrame.refl s _ _ _).startOperation⟩

/-- The framer writes the wire frame of R71. -/
theorem writeDatagram_eq_encode (crc : CrcChoice) (addr regAddr : Byte) (value : Word) :
    writeDatagram crc addr regAddr value =
      encode (.writeFrame addr (regAddr.setWidth 7) value
        (crc8 crc ((writeDatagram crc addr regAddr value).take 7))) := by
  have hreg : regAddr ||| writeFlag = regByte true (regAddr.setWidth 7) := or_writeFlag regAddr
  simp only [writeDatagram, closed, encode, hreg]
  rfl

/-- Settles O36: no precondition fails, so the issue is the start of the operation, with the frame built. -/
theorem writeStarts : Obligations.WriteStarts := by
  intro s t T regAddr value hc hv hT hidle hreg hbus
  refine ⟨_, writeDatagram s.params.crc T.cfg.slaveAddr regAddr value,
    (guarded_none (registerChecks_none hc hv hT hidle hreg hbus)).trans (withTransceiver_some hT),
    State.startOperation_transceiver_same _ _ _, ?_, State.startOperation_bus_same s t _, rfl,
    (MicroFrame.refl s _ _ _).startOperation⟩
  conv_lhs => rw [writeDatagram_eq_encode]
  exact decode_encode_frame rfl

end Sys2Proof.Machine

/-! PROOFS of the statements of the family `43_transceiver.md`. -/

namespace Sys2Proof.Machine

/-! ### FLUSH (43_transceiver.md R141, R150) -/

section Flush

variable {s : State} {t : Nat} {T : Transceiver}

theorem microOp_flush (p : Params) (hp : T.phase = .preFlush ∨ T.phase = .postFlush) : microOp p T = some .flush := by
  obtain hp | hp := hp <;> simp only [microOp, hp]

/-- A turn that finds a byte discards it. -/
theorem exec_flush_cons {b : Byte} {rest : List Byte} (hr : s.running = some t) (hT : s.transceiver t = some T)
    (hp : T.phase = .preFlush ∨ T.phase = .postFlush) (hx : (s.uart T.uart).rx = b :: rest) :
    exec .flush s = .next ((s.setRx T.uart rest).setTransceiver t { T with flushed := T.flushed + 1 }) := by
  rw [exec, execFlush, onSequencer_run hr hT (microOp_flush _ hp), hx]

/-- The turn of PreFlush that finds the FIFO empty. -/
theorem exec_flush_preFlush_nil (hr : s.running = some t) (hT : s.transceiver t = some T) (hp : T.phase = .preFlush)
    (hx : (s.uart T.uart).rx = []) :
    exec .flush s = .next ((s.emit (.flushed T.flushed)).setTransceiver t { T with phase := .dirTx }) := by
  rw [exec, execFlush, onSequencer_run hr hT (microOp_flush _ (.inl hp)), hx, hp]

/-- The turn of PostFlush that finds the FIFO empty. -/
theorem exec_flush_postFlush_nil (hr : s.running = some t) (hT : s.transceiver t = some T) (hp : T.phase = .postFlush)
    (hx : (s.uart T.uart).rx = []) : exec .flush s = s.afterTransact t T := by
  rw [exec, execFlush, onSequencer_run hr hT (microOp_flush _ (.inr hp)), hx, hp]

/-- The channel after a turn that has left `rest` in its FIFO. -/
theorem State.uart_discard (s : State) (t : Nat) (T : Transceiver) (u : Nat) (rest : List Byte) :
    ((s.setRx u rest).setTransceiver t T).uart u = { s.uart u with rx := rest } := by
  rw [State.uart_setTransceiver, State.uart_setRx, if_pos rfl]

/-- PreFlush, by induction on the bytes that wait: each is discarded and counted, and one more turn moves on to DirTx. -/
theorem repeat_flush_preFlush (bs : List Byte) (hr : s.running = some t) (hT : s.transceiver t = some T)
    (hp : T.phase = .preFlush) (hx : (s.uart T.uart).rx = bs) :
    ∃ s', repeatExec .flush (bs.length + 1) s = .next s' ∧
      s'.uart T.uart = { s.uart T.uart with rx := [] } ∧
      s'.events = s.events ++ [.flushed (T.flushed + bs.length)] ∧
      s'.transceiver t = some { T with phase := .dirTx, flushed := T.flushed + bs.length } ∧
      MicroFrame s s' none (some T.uart) (some t) := by
  induction bs generalizing s T with
  | nil =>
    refine ⟨_, repeatExec_one (exec_flush_preFlush_nil hr hT hp hx), ?_, rfl,
      State.transceiver_setTransceiver_same _ _ _, ((MicroFrame.refl s _ _ _).emit _).setTransceiver _⟩
    rw [State.uart_setTransceiver, State.uart_emit, ← hx]
  | cons b bs ih =>
    have hturn := exec_flush_cons hr hT (.inl hp) hx
    have huart := State.uart_discard s t { T with flushed := T.flushed + 1 } T.uart bs
    obtain ⟨s', hrun, hu, hev, hT', hframe⟩ := ih
      (s := (s.setRx T.uart bs).setTransceiver t { T with flushed := T.flushed + 1 }) hr
      (State.transceiver_setTransceiver_same _ _ _) hp (congrArg Uart.rx huart)
    have hcount : T.flushed + 1 + bs.length = T.flushed + (b :: bs).length := by rw [List.length_cons]; omega
    rw [hcount] at hev hT'
    refine ⟨s', ?_, ?_, hev, hT', (((MicroFrame.refl s _ _ _).setUart _).setTransceiver _).trans hframe⟩
    · rw [List.length_cons, repeatExec, hturn]
      exact hrun
    · rw [hu, huart]

end Flush

/-- Settles O18: one turn of the loop, and the whole loop of PreFlush. -/
theorem flushDiscardsPending : Obligations.FlushDiscardsPending := by
  intro s t T hr hT hp
  exact ⟨fun b rest hx => ⟨_, exec_flush_cons hr hT hp hx, State.uart_discard _ _ _ _ _, rfl,
      State.transceiver_setTransceiver_same _ _ _, ((MicroFrame.refl s _ _ _).setUart _).setTransceiver _⟩,
    fun hpre => repeat_flush_preFlush _ hr hT hpre rfl⟩

/-- Settles O21: the last turn of PostFlush is the end of the operation, with the transaction's result as its answer. -/
theorem postFlushReturnsResult : Obligations.PostFlushReturnsResult := by
  intro s t T dg n r hr hT hp hj hres hx
  have hend : s.afterTransact t T = .next ((s.emit (.flushed T.flushed)).endOperation t T (.transact r)) := by
    simp only [State.afterTransact, hj, hres]
  refine ⟨_, (exec_flush_postFlush_nil hr hT hp hx).trans hend, State.endOperation_transceiver_same _ _ _ _, ?_, rfl,
    ((MicroFrame.refl s _ _ _).emit _).endOperation _⟩
  rw [State.endOperation_bus, if_pos rfl, State.bus_emit]

/-! ### WAIT (43_transceiver.md R144, R146, 46_read_write.md R203) -/

section Wait

variable {s : State} {t us : Nat} {T : Transceiver} {ph next : Phase}

theorem execWait_free (run : ∀ f, onSequencer (.wait us) s f = f t T) (hh : T.hold = .free) :
    execWait us s = .next (s.setTransceiver t { T with hold := .started }) := by
  rw [execWait, run, hh]

theorem execWait_started (run : ∀ f, onSequencer (.wait us) s f = f t T) (hh : T.hold = .started) :
    execWait us s = .next s := by
  rw [execWait, run, hh]

theorem execWait_completed (run : ∀ f, onSequencer (.wait us) s f = f t T)
    (hrow : (ph, next) ∈ [(Phase.turnaround, Phase.dirRx), (.replyWait, .scanEnter), (.wReplyWait, .wEnd)])
    (hp : T.phase = ph) (hh : T.hold = .completed) :
    execWait us s = .next ((s.emit (.waited us)).setTransceiver t { T with hold := .free, phase := next }) := by
  simp only [List.mem_cons, Prod.mk.injEq, List.not_mem_nil, or_false] at hrow
  rw [execWait, run, hh]
  obtain ⟨rfl, rfl⟩ | ⟨rfl, rfl⟩ | ⟨rfl, rfl⟩ := hrow <;> simp only [hp]

end Wait

/-- Settles O20: each row of the table names the WAIT of its phase, and WAIT acts by the hold. -/
theorem waitEffect : Obligations.WaitEffect := by
  intro s t T hr hT ph us next hrow hp
  obtain ⟨hi, hnext⟩ : microOp s.params T = some (.wait us) ∧
      (ph, next) ∈ [(Phase.turnaround, Phase.dirRx), (.replyWait, .scanEnter), (.wReplyWait, .wEnd)] := by
    simp only [List.mem_cons, Prod.mk.injEq, List.not_mem_nil, or_false] at hrow
    obtain ⟨rfl, rfl, rfl⟩ | ⟨rfl, rfl, rfl⟩ | ⟨rfl, rfl, rfl⟩ := hrow <;> simp [microOp, hp]
  have run : ∀ f, onSequencer (.wait us) s f = f t T := fun f => onSequencer_run hr hT hi
  exact ⟨fun hh => ⟨_, execWait_free run hh, State.transceiver_setTransceiver_same _ _ _, rfl,
      (MicroFrame.refl s _ _ _).setTransceiver _⟩,
    execWait_started run,
    fun hh => ⟨_, execWait_completed run hnext hp hh, State.transceiver_setTransceiver_same _ _ _, rfl,
      ((MicroFrame.refl s _ _ _).emit _).setTransceiver _⟩⟩

end Sys2Proof.Machine

/-! PROOFS of the statements of the family `44_synchronizer.md`. -/

namespace Sys2Proof.Machine

/-! ### The two polling rows -/

/-- SCAN_POLL and CAPTURE_POLL: the phase of each, its result when the budget has run out, and what becomes of a byte (R162,
R167). -/
inductive PollRow : Instr → Phase → TransactResult → (Transceiver → Byte → Option Transceiver) → Prop where
  | scan : PollRow .scanPoll .scan .noReply scanByte
  | capture : PollRow .capturePoll .capture .incompleteFrame captureByte

section Rows

variable {s s' : State} {t : Nat} {T T' : Transceiver} {i : Instr} {ph : Phase} {expired : TransactResult}
  {accept : Transceiver → Byte → Option Transceiver}

theorem PollRow.microOp_eq (row : PollRow i ph expired accept) (p : Params) (hp : T.phase = ph) :
    microOp p T = some i := by
  cases row <;> simp only [microOp, hp]

/-- Each row is one poll. -/
theorem PollRow.exec_eq (row : PollRow i ph expired accept) (hr : s.running = some t) (hT : s.transceiver t = some T)
    (hp : T.phase = ph) : exec i s = poll t T expired accept s := by
  have hi := row.microOp_eq s.params hp
  cases row <;> exact onSequencer_run hr hT hi

/-- The registers a byte may write. -/
theorem PollRow.accept_writes (row : PollRow i ph expired accept) {b : Byte} (h : accept T b = some T') :
    T' = { T with
      window := T'.window, acc := T'.acc, capCount := T'.capCount, result := T'.result, phase := T'.phase,
      flushed := T'.flushed } := by
  cases row with
  | scan =>
    unfold scanByte at h
    split at h <;> cases h
    rfl
  | capture =>
    unfold captureByte at h
    split at h
    · split at h <;> cases h <;> rfl
    · cases h

end Rows

/-! ### One CAPTURE_POLL -/

/-- A byte short of the fifth. -/
theorem captureByte_short {T : Transceiver} {a : BitVec 64} {k : Nat} (b : Byte) (hp : T.phase = .capture)
    (ha : T.acc = some a) (hk : T.capCount = some k) (h5 : k + 1 ≠ captureLen) :
    captureByte T b = some { T with acc := some (shiftAcc a b), capCount := some (k + 1) } := by
  simp only [captureByte, ha, hk, if_neg h5, ← hp]

/-- Settles O25: one poll, whose byte shifts into the accumulator, and the fifth byte ends the capture. -/
theorem capturePollEffect : Obligations.CapturePollEffect := by
  intro s t T n ms a k hr hT hp hb _ hm ha hk
  have hbyte : ∀ b, captureByte (T.polled n ms s.clk) b =
      some (if k + 1 = 5 then
        { T.polled n ms s.clk with
          acc := some (shiftAcc a b), capCount := some 5, result := some (.frame (shiftAcc a b)), phase := .postFlush,
          flushed := 0 }
      else { T.polled n ms s.clk with acc := some (shiftAcc a b), capCount := some (k + 1) }) := fun b => by
    by_cases h5 : k + 1 = 5
    · obtain rfl : k = 4 := by omega
      exact captureByte_fifth (T := T.polled n ms s.clk) b ha hk
    · rw [if_neg h5]
      exact captureByte_short (T := T.polled n ms s.clk) b hp ha hk h5
  obtain ⟨s', hpoll, hexp, hempty, hread, hframe⟩ :=
    poll_effect (t := t) (s := s) (expired := .incompleteFrame) (accept := captureByte) hb hm
      (fun b => by rw [hbyte b]; rfl)
  refine ⟨s', _, _, (PollRow.capture.exec_eq hr hT hp).trans hpoll, rfl, rfl, fun h0 => ?_, hempty,
    fun h0 b rest hx => ?_, hframe⟩
  · have hzero : budgetAfter n ms s.clk = 0 := h0
    simpa only [Transceiver.polled, ticksOf, hzero] using hexp h0
  · obtain ⟨hrec, huart, hev⟩ := hread h0 b rest hx
    exact ⟨shiftAcc a b, shiftAcc_toNat a b, hrec.trans (hbyte b), huart, hev⟩

/-! ### CAPTURE_ENTER -/

/-- Settles O24: the window's three bytes stand in the accumulator with zeros above them. -/
theorem captureEnterEffect : Obligations.CaptureEnterEffect := by
  intro s t T w hr hT hp hw
  have hi : microOp s.params T = some .captureEnter := by simp only [microOp, hp]
  refine ⟨_, w.setWidth 64, (onSequencer_run hr hT hi).trans ?_, BitVec.toNat_setWidth_of_le (by decide),
    State.transceiver_setTransceiver_same _ _ _, rfl, (MicroFrame.refl s _ _ _).setTransceiver _⟩
  simp only [hw]

/-! ### What the scan and the capture never write (R171) -/

/-- No bus, transmit log or failure flag differs, so no pin does: it is a field of its bus. -/
structure LeavesBusAndFlag (s s' : State) : Prop where
  bus : ∀ b, s'.bus b = s.bus b
  txlog : ∀ u, (s'.uart u).txlog = (s.uart u).txlog
  readFailed : ∀ k K, s.transceiver k = some K → ∃ K', s'.transceiver k = some K' ∧ K'.readFailed = K.readFailed

namespace LeavesBusAndFlag

variable {s s1 s' : State} {t : Nat} {T T' : Transceiver} {i : Instr} {ph : Phase} {expired : TransactResult}
  {accept : Transceiver → Byte → Option Transceiver}

theorem refl (s : State) : LeavesBusAndFlag s s := ⟨fun _ => rfl, fun _ => rfl, fun _ K h => ⟨K, h, rfl⟩⟩

theorem emit (h : LeavesBusAndFlag s s1) (e : Event) : LeavesBusAndFlag s (s1.emit e) := { h with }

theorem ticked (h : LeavesBusAndFlag s s1) (ticked : Bool) :
    LeavesBusAndFlag s (if ticked then s1.emit .tick else s1) := by
  cases ticked
  · exact h
  · exact h.emit _

theorem setRx (h : LeavesBusAndFlag s s1) (u : Nat) (rest : List Byte) : LeavesBusAndFlag s (s1.setRx u rest) :=
  { h with
    txlog := fun k => by
      rw [← h.txlog k, State.uart_setRx]
      split
      · rename_i e
        rw [e]
      · rfl }

theorem setTransceiver (h : LeavesBusAndFlag s s1) (hT : s.transceiver t = some T)
    (hf : T'.readFailed = T.readFailed) : LeavesBusAndFlag s (s1.setTransceiver t T') :=
  { h with
    readFailed := fun k K hK => by
      rw [State.transceiver_setTransceiver]
      split
      · rename_i e
        cases hT.symm.trans (e ▸ hK)
        exact ⟨T', rfl, hf⟩
      · exact h.readFailed k K hK }

theorem stopOperation (hT : s.transceiver t = some T) (f : OpFault) : LeavesBusAndFlag s (s.stopOperation t T f) :=
  LeavesBusAndFlag.setTransceiver (s1 := s.raise f) { refl s with } hT rfl

theorem poll (row : PollRow i ph expired accept) (hT : s.transceiver t = some T)
    (h : poll t T expired accept s = .next s') : LeavesBusAndFlag s s' := by
  obtain ⟨s2, hpoll, hcase⟩ := poll_cases t T expired accept s
  cases hpoll.symm.trans h
  obtain ⟨T', ticked, hk, hcase⟩ | ⟨-, rfl⟩ := hcase
  · have hflag : T'.readFailed = T.readFailed := by
      obtain ⟨n, ms, -, -, ⟨-, rfl, -⟩ | ⟨-, rfl, -⟩⟩ := Transceiver.tick_some hk <;> rfl
    have htick := (refl s).ticked ticked
    obtain ⟨-, rfl⟩ | ⟨-, -, rfl⟩ | ⟨-, b, rest, T'', -, ha, rfl⟩ := hcase
    · exact htick.setTransceiver hT hflag
    · exact htick.setTransceiver hT hflag
    · have hkeep : T''.readFailed = T'.readFailed := by rw [row.accept_writes ha]
      exact ((htick.setRx _ _).emit _).setTransceiver hT (hkeep.trans hflag)
  · exact stopOperation hT _

end LeavesBusAndFlag

/-- Settles O29: each of the four rows writes at most one receive FIFO and one record, whose flag it keeps. -/
theorem pollsLeaveBusAndFlag : Obligations.PollsLeaveBusAndFlag := by
  intro s s' i hi h
  suffices hleaves : LeavesBusAndFlag s s' from ⟨hleaves.bus, hleaves.txlog, hleaves.readFailed⟩
  simp only [List.mem_cons, List.not_mem_nil, or_false] at hi
  obtain rfl | rfl | rfl | rfl := hi <;> obtain ⟨t, T, -, hT, -, h⟩ := onSequencer_next h
  · split at h
    · cases h
      exact (LeavesBusAndFlag.refl s).setTransceiver hT rfl
    · obtain ⟨-, -, rfl⟩ := State.noDatagram_next h
      exact .stopOperation hT _
  · exact .poll .scan hT h
  · split at h <;> cases h
    · exact (LeavesBusAndFlag.refl s).setTransceiver hT rfl
    · exact .stopOperation hT _
  · exact .poll .capture hT h

/-! ### Polls on a clock that does not move -/

/-- Budget is left, and the clock stands where the last poll saw it: a poll at `now` neither ticks nor expires. -/
def Transceiver.steadyAt (T : Transceiver) (now : Word) : Prop :=
  ∃ n, T.budget = some n ∧ 1 ≤ n ∧ T.lastMs = some now

/-- A record in the phase `ph` takes bytes one after the other, `accept` saying what becomes of each. -/
inductive Takes (accept : Transceiver → Byte → Option Transceiver) (ph : Phase) :
    Transceiver → List Byte → Transceiver → Prop where
  | done (T : Transceiver) : Takes accept ph T [] T
  | byte {T T1 T' : Transceiver} {b : Byte} {bs : List Byte} (hp : T.phase = ph) (ha : accept T b = some T1)
      (rest : Takes accept ph T1 bs T') : Takes accept ph T (b :: bs) T'

section Steady

variable {s s1 : State} {t : Nat} {T T' : Transceiver} {i : Instr} {ph : Phase} {expired : TransactResult}
  {accept : Transceiver → Byte → Option Transceiver} {bs rest : List Byte} {moves : List Move}

theorem PollRow.accept_steady (row : PollRow i ph expired accept) {b : Byte} {now : Word} (h : accept T b = some T')
    (hn : T.steadyAt now) : T'.steadyAt now := by
  rw [row.accept_writes h]
  exact hn

/-- Such a poll reads the head byte. -/
theorem PollRow.exec_steady (row : PollRow i ph expired accept) {b : Byte} (hr : s.running = some t)
    (hT : s.transceiver t = some T) (hp : T.phase = ph) (hn : T.steadyAt s.clk) (hx : (s.uart T.uart).rx = b :: rest)
    (ha : accept T b = some T') :
    exec i s = .next (((s.setRx T.uart rest).emit (.rx b)).setTransceiver t T') := by
  obtain ⟨n, hb, h1, hm⟩ := hn
  rw [row.exec_eq hr hT hp, poll_steady hb h1 hm, hx]
  simp only [ha]

theorem runSteps_succ (h : step s = .next s1) (n : Nat) : runSteps (n + 1) s = runSteps n s1 := by
  rw [runSteps, h]

theorem runSteps_add {m : Nat} (h : runSteps m s = .next s1) (n : Nat) : runSteps (m + n) s = runSteps n s1 := by
  induction m generalizing s with
  | zero =>
    cases h
    rw [Nat.zero_add]
  | succ m ih =>
    rw [Nat.succ_add]
    simp only [runSteps] at h ⊢
    split at h
    · exact ih h
    · cases h
    · cases h

/-- The state in which the sequencer of `t` takes its step, with `moves` to come. -/
def State.sequencing (t : Nat) (moves : List Move) (s : State) : State := { s with schedule := moves, running := some t }

/-- A sequencer that no fault has stopped runs the micro-step of its phase. -/
theorem step_sequencer (hs : s.schedule = .sequencer t :: moves) (hT : s.transceiver t = some T)
    (hstop : T.stopped = false) (hi : microOp s.params T = some i) : step s = exec i (s.sequencing t moves) :=
  ((sequencerStepRunsPhase s t T moves hT).1 hstop hs).1 i hi

/-- Polls of a stream on a clock that does not move, by induction on the bytes: each is read, recorded and taken. As moves of
the schedule they are the same run, unless a fault has stopped the operation (R213). -/
theorem repeat_poll (row : PollRow i ph expired accept) (h : Takes accept ph T bs T') (hr : s.running = some t)
    (hT : s.transceiver t = some T) (hn : T.steadyAt s.clk) (hx : (s.uart T.uart).rx = bs ++ rest) :
    ∃ s', repeatExec i bs.length s = .next s' ∧ s'.transceiver t = some T' ∧
      s'.uart T.uart = { s.uart T.uart with rx := rest } ∧ s'.events = s.events ++ bs.map .rx ∧
      MicroFrame s s' none (some T.uart) (some t) ∧
      (T.stopped = false →
        runSteps bs.length { s with schedule := List.replicate bs.length (.sequencer t) ++ s.schedule } = .next s') := by
  induction h generalizing s with
  | done T =>
    refine ⟨s, rfl, hT, ?_, by simp, MicroFrame.refl _ _ _ _, fun _ => rfl⟩
    rw [List.nil_append] at hx
    rw [← hx]
  | @byte T T1 T' b bs hp ha _ ih =>
    have hkeep := row.accept_writes ha
    have huart : T1.uart = T.uart := by rw [hkeep]
    have hstop : T1.stopped = T.stopped := by rw [hkeep]
    have hpoll := row.exec_steady hr hT hp hn hx ha
    obtain ⟨s', hrun, hT', hu, hev, hframe, hsteps⟩ := ih
      (s := ((s.setRx T.uart (bs ++ rest)).emit (.rx b)).setTransceiver t T1) hr
      (State.transceiver_setTransceiver_same _ _ _) (row.accept_steady ha hn)
      (by rw [huart, State.uart_setTransceiver, State.uart_emit, State.uart_setRx, if_pos rfl])
    rw [huart] at hu hframe
    refine ⟨s', ?_, hT', ?_, ?_,
      (((MicroFrame.refl s _ _ _).setUart _).emit _ |>.setTransceiver _).trans hframe, fun hs => ?_⟩
    · rw [List.length_cons, repeatExec, hpoll]
      exact hrun
    · rw [hu, State.uart_setTransceiver, State.uart_emit, State.uart_setRx, if_pos rfl]
    · simpa using hev
    · rw [List.length_cons, List.replicate_succ, List.cons_append]
      have hstep := (step_sequencer (s := { s with schedule := .sequencer t :: _ }) rfl hT hs (row.microOp_eq _ hp)).trans
        (row.exec_steady (s := s.sequencing t (List.replicate bs.length (.sequencer t) ++ s.schedule)) rfl hT hp hn hx ha)
      rw [runSteps_succ hstep, State.sequencing, ← hr]
      exact hsteps (hstop.trans hs)

end Steady

/-! ### The window and the header (R160, R162, R164) -/

/-- The window of three bytes, after one more. -/
theorem shiftWindow_bytes (x y z b : Byte) : shiftWindow (x ++ y ++ z) b = y ++ z ++ b := by
  apply BitVec.eq_of_toNat_eq
  have hx := x.isLt
  have hy := y.isLt
  have hz := z.isLt
  have hb := b.isLt
  rw [shiftWindow_toNat, toNat_append8, toNat_append8, toNat_append8, toNat_append8]
  omega

/-- From window 0 the window holds the last three bytes of the stream, with three zero bytes put before it. -/
theorem window_of_stream (bs : List Byte) :
    ∃ front x y z, [0#8, 0#8, 0#8] ++ bs = front ++ [x, y, z] ∧ bs.foldl shiftWindow 0#24 = x ++ y ++ z := by
  induction bs using List.reverseRecOn with
  | nil => exact ⟨[], 0#8, 0#8, 0#8, rfl, rfl⟩
  | append_singleton bs b ih =>
    obtain ⟨front, x, y, z, hstream, hwindow⟩ := ih
    refine ⟨front ++ [x], y, z, b, ?_, ?_⟩
    · rw [← List.append_assoc, hstream]
      simp
    · rw [List.foldl_append, List.foldl_cons, List.foldl_nil, hwindow, shiftWindow_bytes]

theorem threeBytes_inj {x y z x' y' z' : Byte} (h : x ++ y ++ z = x' ++ y' ++ z') : x = x' ∧ y = y' ∧ z = z' := by
  have h := congrArg BitVec.toNat h
  simp only [toNat_append8] at h
  have hy := y.isLt
  have hy' := y'.isLt
  have hz := z.isLt
  have hz' := z'.isLt
  exact ⟨BitVec.eq_of_toNat_eq (by omega), BitVec.eq_of_toNat_eq (by omega), BitVec.eq_of_toNat_eq (by omega)⟩

/-- The stream so far ends in the header exactly when the window is the target. -/
theorem endsInHeader_iff (g0 g2 : Byte) (bs : List Byte) :
    endsInHeader g0 g2 bs ↔ bs.foldl shiftWindow 0#24 = targetOf g0 g2 := by
  obtain ⟨front, x, y, z, hstream, hwindow⟩ := window_of_stream bs
  rw [hwindow, targetOf_eq, endsInHeader, hstream]
  constructor
  · rintro ⟨front', h⟩
    obtain ⟨-, hlast⟩ := List.append_inj' h rfl
    cases hlast
    rfl
  · intro h
    obtain ⟨rfl, rfl, rfl⟩ := threeBytes_inj h
    exact ⟨front, rfl⟩

/-! ### The scan of a stream -/

/-- The record of a scan whose window has become `w`: locked if that is the target `g`, else still scanning. -/
def Transceiver.scanned (T : Transceiver) (w g : BitVec 24) : Transceiver :=
  { T with window := some w, phase := if w = g then .captureEnter else .scan }

theorem scanByte_eq {T : Transceiver} {w g : BitVec 24} (hw : T.window = some w) (hg : T.target = some g) (b : Byte) :
    scanByte T b = some (T.scanned (shiftWindow w b) g) := by
  simp only [scanByte, hw, hg, Transceiver.scanned]

/-- The scan takes every byte up to the first at which the window is the target. -/
theorem takes_scan {T : Transceiver} {w g : BitVec 24} (b : Byte) (bs : List Byte) (hp : T.phase = .scan)
    (hw : T.window = some w) (hg : T.target = some g)
    (hfirst : ∀ k, 0 < k → k < (b :: bs).length → ((b :: bs).take k).foldl shiftWindow w ≠ g) :
    Takes scanByte .scan T (b :: bs) (T.scanned ((b :: bs).foldl shiftWindow w) g) := by
  induction bs generalizing T w b with
  | nil => exact .byte hp (scanByte_eq hw hg b) (.done _)
  | cons c bs ih =>
    have hopen : shiftWindow w b ≠ g := hfirst 1 (by simp) (by simp)
    exact .byte hp (scanByte_eq hw hg b) (ih (T := T.scanned (shiftWindow w b) g) c (if_neg hopen) rfl hg
      fun k h0 hk => hfirst (k + 1) (by omega) (by simpa using hk))

/-- The scan of a stream from window 0, of which no shorter beginning ended in the header. -/
theorem takes_stream {T : Transceiver} {g0 g2 : Byte} {bs : List Byte} (hp : T.phase = .scan)
    (hw : T.window = some 0#24) (hg : T.target = some (targetOf g0 g2)) (hne : bs ≠ [])
    (hfirst : ∀ k, 0 < k → k < bs.length → ¬ endsInHeader g0 g2 (bs.take k)) :
    Takes scanByte .scan T bs (T.scanned (bs.foldl shiftWindow 0#24) (targetOf g0 g2)) := by
  obtain ⟨b, bs, rfl⟩ := List.exists_cons_of_ne_nil hne
  exact takes_scan b bs hp hw hg fun k h0 hk => mt (endsInHeader_iff g0 g2 _).mpr (hfirst k h0 hk)

/-- Settles O26: the scan takes the stream byte by byte, and its window is the target exactly where the stream ends in the
header. -/
theorem scanLocksOnFirstHeader : Obligations.ScanLocksOnFirstHeader := by
  intro s t T n g0 g2 bs rest hr hT hp hb hn hm hw hg hx hne hfirst
  obtain ⟨s', hrun, hT', hu, hev, hframe, -⟩ :=
    repeat_poll .scan (takes_stream hp hw hg hne hfirst) hr hT ⟨n, hb, hn, hm⟩ hx
  refine ⟨s', _, hrun, hT', fun hend => ?_, fun hend => if_neg (mt (endsInHeader_iff g0 g2 bs).mpr hend), hu, hev, hframe⟩
  have hlock := (endsInHeader_iff g0 g2 bs).mp hend
  exact ⟨if_pos hlock, congrArg some hlock⟩

/-! ### The silent scan (R161, R168, R169) -/

section Silent

variable {s : State} {t : Nat} {T : Transceiver} {expired : TransactResult}
  {accept : Transceiver → Byte → Option Transceiver} {n : Nat} {ms : Word} {moves : List Move}

/-- The scan's move is one poll. -/
theorem step_scan (hs : s.schedule = .sequencer t :: moves) (hT : s.transceiver t = some T) (hstop : T.stopped = false)
    (hp : T.phase = .scan) : step s = poll t T .noReply scanByte (s.sequencing t moves) :=
  (step_sequencer hs hT hstop (PollRow.scan.microOp_eq _ hp)).trans (PollRow.scan.exec_eq rfl hT hp)

/-- A poll of the scan that finds no byte expires or leaves the record to the tick rule. -/
theorem step_scan_silent (hs : s.schedule = .sequencer t :: moves) (hT : s.transceiver t = some T)
    (hstop : T.stopped = false) (hp : T.phase = .scan) (hb : T.budget = some n) (hm : T.lastMs = some ms)
    (hx : (s.uart T.uart).rx = []) :
    ∃ s1, step s = .next s1 ∧
      s1.transceiver t =
        some (if budgetAfter n ms s.clk = 0 then
          { T.polled n ms s.clk with result := some .noReply, phase := .postFlush, flushed := 0 }
        else T.polled n ms s.clk) ∧
      MicroFrame (s.sequencing t moves) s1 none none (some t) := by
  have htick : T.tick (s.sequencing t moves).clk = some (T.polled n ms s.clk, decide (s.clk ≠ ms)) :=
    Transceiver.tick_eq_polled hb hm
  have hbudget : (T.polled n ms s.clk).budget = some 0 ↔ budgetAfter n ms s.clk = 0 := Option.some_inj
  have hx' : ((s.sequencing t moves).uart T.uart).rx = [] := hx
  refine ⟨_, (step_scan hs hT hstop hp).trans ?_, State.transceiver_setTransceiver_same _ _ _,
    ((MicroFrame.refl _ none none (some t)).ticked (decide (s.clk ≠ ms))).setTransceiver _⟩
  simp only [poll, htick, hbudget, hx']
  split <;> rfl

/-- The tick rule takes from the budget what `changesSeen` counts for the poll. -/
theorem budgetAfter_eq_sub (n : Nat) (ms now : Word) : budgetAfter n ms now = n - if now = ms then 0 else 1 := by
  unfold budgetAfter
  split <;> rfl

/-- A silent scan whose polls have observed fewer than `n` changes goes on, by induction on the moves. Whatever moves come
after, the changes they observe count on from there. -/
theorem run_silentScan (quiet : List Move) (hT : s.transceiver t = some T) (hstop : T.stopped = false)
    (hp : T.phase = .scan) (hb : T.budget = some n) (hm : T.lastMs = some ms) (hx : (s.uart T.uart).rx = [])
    (hq : quietMoves t quiet) (hs : s.schedule = quiet ++ moves) (hlt : changesSeen quiet s.clk ms < n) :
    ∃ s' ms', runSteps quiet.length s = .next s' ∧
      s'.transceiver t = some { T with budget := some (n - changesSeen quiet s.clk ms), lastMs := some ms' } ∧
      s'.schedule = moves ∧ (s'.uart T.uart).rx = [] ∧
      ∀ more, changesSeen (quiet ++ more) s.clk ms = changesSeen quiet s.clk ms + changesSeen more s'.clk ms' := by
  induction quiet generalizing s T n ms with
  | nil =>
    refine ⟨s, ms, rfl, ?_, hs, hx, fun more => by simp [changesSeen]⟩
    rw [hT, changesSeen, Nat.sub_zero, ← hb, ← hm]
  | cons m quiet ih =>
    have hq' : quietMoves t quiet := fun m' h => hq m' (List.mem_cons_of_mem _ h)
    obtain rfl | ⟨d, rfl⟩ := hq m List.mem_cons_self
    · have hleft := budgetAfter_eq_sub n ms s.clk
      rw [changesSeen] at hlt
      obtain ⟨s1, hstep, hT1, hframe⟩ := step_scan_silent hs hT hstop hp hb hm hx
      rw [if_neg (by omega)] at hT1
      have hclk : s1.clk = s.clk := hframe.frame.clk
      have hx1 : (s1.uart T.uart).rx = [] := (congrArg Uart.rx (hframe.frame.uarts _ (by simp))).trans hx
      obtain ⟨s', ms', hrun, hT', hs', hx', hmore⟩ := ih hT1 hstop hp rfl rfl hx1 hq' hframe.frame.schedule
        (by rw [hclk]; omega)
      rw [hclk] at hT' hmore
      refine ⟨s', ms', (runSteps_succ hstep _).trans hrun, ?_, hs', hx', fun more => ?_⟩
      · rw [hT', hleft, Nat.sub_sub, changesSeen]
        rfl
      · rw [List.cons_append, changesSeen, changesSeen, hmore, Nat.add_assoc]
    · have hstep : step s = .next (({ s with schedule := quiet ++ moves } : State).advance d) := step_cons hs
      obtain ⟨s', ms', hrun, hT', hs', hx', hmore⟩ :=
        ih (s := ({ s with schedule := quiet ++ moves } : State).advance d) hT hstop hp hb hm hx hq' rfl hlt
      exact ⟨s', ms', (runSteps_succ hstep _).trans hrun, hT', hs', hx', hmore⟩

end Silent

/-- Settles O28: before the poll that observes the last change the scan goes on, and there it expires. -/
theorem silentScanTimesOut : Obligations.SilentScanTimesOut := by
  intro s t T n ms quiet moves hT hstop hp hb hn hm hx hq hs
  refine ⟨fun hlt => ?_, fun before hquiet hlt heq => ?_⟩
  · obtain ⟨s', ms', hrun, hT', hs', -, -⟩ := run_silentScan quiet hT hstop hp hb hm hx hq hs hlt
    exact ⟨s', _, hrun, hT', hs', hp, rfl, rfl⟩
  · subst hquiet
    obtain ⟨s1, ms1, hrun, hT1, hs1, hx1, hmore⟩ := run_silentScan (moves := .sequencer t :: moves) before hT hstop hp hb hm
      hx (fun m h => hq m (List.mem_append_left _ h)) (by simpa using hs) hlt
    have hlast := hmore [.sequencer t]
    rw [heq] at hlast
    have h0 : budgetAfter (n - changesSeen before s.clk ms) ms1 s1.clk = 0 := by
      rw [budgetAfter_eq_sub]
      simp only [changesSeen] at hlast
      omega
    obtain ⟨s2, hstep, hT2, hframe⟩ := step_scan_silent hs1 hT1 hstop hp rfl rfl hx1
    rw [if_pos h0] at hT2
    refine ⟨s2, _, ?_, hT2, hframe.frame.schedule, rfl, rfl, congrArg some h0⟩
    rw [List.length_append]
    exact (runSteps_add hrun 1).trans (runSteps_succ hstep 0)

/-! ### A READ from its scan on (R164, R165, R167, 45_validator.md R180, 46_read_write.md R190) -/

/-- Where `n` moves of the sequencer of `t` bring `s` on a clock that stands still: its record is `T`, the bytes `rx` wait,
the events `es` are recorded, and `moves` are to come. -/
structure Reaches (n : Nat) (s s' : State) (t : Nat) (T : Transceiver) (moves : List Move) (rx : List Byte)
    (es : List Event) : Prop where
  run : runSteps n s = .next s'
  record : s'.transceiver t = some T
  running : s'.running = some t
  schedule : s'.schedule = moves
  waiting : (s'.uart T.uart).rx = rx
  events : s'.events = s.events ++ es
  params : s'.params = s.params
  clk : s'.clk = s.clk

section Stages

variable {s s1 s' : State} {t : Nat} {T T1 T' : Transceiver} {i : Instr} {moves moves1 : List Move}
  {rx rx1 bs rest : List Byte} {es es1 : List Event}

theorem Reaches.trans {m n : Nat} (h : Reaches m s s1 t T1 moves1 rx1 es1) (g : Reaches n s1 s' t T moves rx es) :
    Reaches (m + n) s s' t T moves rx (es1 ++ es) :=
  { g with
    run := (runSteps_add h.run n).trans g.run
    events := by rw [g.events, h.events, List.append_assoc]
    params := g.params.trans h.params
    clk := g.clk.trans h.clk }

/-- One micro-step is one move. -/
theorem Reaches.micro {b u : Option Nat} (hs : s.schedule = .sequencer t :: moves) (hT : s.transceiver t = some T)
    (hstop : T.stopped = false) (hi : microOp s.params T = some i)
    (hexec : exec i (s.sequencing t moves) = .next s') (hT' : s'.transceiver t = some T')
    (hx : (s'.uart T'.uart).rx = rx) (hev : s'.events = s.events ++ es)
    (hf : MicroFrame (s.sequencing t moves) s' b u (some t)) : Reaches 1 s s' t T' moves rx es where
  run := runSteps_succ ((step_sequencer hs hT hstop hi).trans hexec) 0
  record := hT'
  running := hf.frame.running
  schedule := hf.frame.schedule
  waiting := hx
  events := hev
  params := hf.frame.params
  clk := hf.frame.clk

theorem Takes.uart_eq {ph : Phase} {expired : TransactResult} {accept : Transceiver → Byte → Option Transceiver}
    (row : PollRow i ph expired accept) (h : Takes accept ph T bs T') : T'.uart = T.uart := by
  induction h with
  | done T => rfl
  | byte _ ha _ ih => rw [ih, row.accept_writes ha]

/-- The polls of a stream are as many moves. -/
theorem reaches_polls {ph : Phase} {expired : TransactResult} {accept : Transceiver → Byte → Option Transceiver}
    (row : PollRow i ph expired accept) (h : Takes accept ph T bs T')
    (hs : s.schedule = List.replicate bs.length (.sequencer t) ++ moves) (hr : s.running = some t)
    (hT : s.transceiver t = some T) (hstop : T.stopped = false) (hn : T.steadyAt s.clk)
    (hx : (s.uart T.uart).rx = bs ++ rest) : ∃ s', Reaches bs.length s s' t T' moves rest (bs.map .rx) := by
  obtain ⟨s', -, hT', hu, hev, hf, hrun⟩ := repeat_poll (s := { s with schedule := moves }) row h hr hT hn hx
  have hrun : runSteps bs.length s = .next s' := by
    have := hrun hstop
    rwa [← hs] at this
  exact ⟨s',
    { run := hrun
      record := hT'
      running := hf.frame.running.trans hr
      schedule := hf.frame.schedule
      waiting := by rw [h.uart_eq row, hu]
      events := hev
      params := hf.frame.params
      clk := hf.frame.clk }⟩

/-- SCAN_ENTER of a READ (R160). -/
theorem reaches_scan {b0 b1 reg bc : Byte} (hs : s.schedule = .sequencer t :: moves) (hT : s.transceiver t = some T)
    (hstop : T.stopped = false) (hp : T.phase = .scanEnter) (hj : T.job = .read) (hq : T.req = some [b0, b1, reg, bc])
    (hx : (s.uart T.uart).rx = rx) :
    ∃ s', Reaches 1 s s' t
      { T with
        target := some (targetOf b0 reg), window := some 0#24, budget := some s.params.scanTimeout,
        lastMs := some s.clk, phase := .scan } moves rx [] := by
  obtain ⟨s', g, hexec, hT', hg, hev, hf⟩ := scanEnterEffect (s.sequencing t moves) t T [b0, b1, reg, bc] b0 reg
    s.params.scanTimeout rfl hT hp (.inl ⟨hj, hq, rfl⟩) rfl rfl
  obtain rfl : g = targetOf b0 reg := BitVec.eq_of_toNat_eq (hg.trans (targetOf_toNat b0 reg).symm)
  have hu := hf.frame.uarts T.uart (by simp)
  exact ⟨s', .micro hs hT hstop (by simp only [microOp, hp]) hexec hT' ((congrArg Uart.rx hu).trans hx)
    (hev.trans (List.append_nil _).symm) hf⟩

/-- CAPTURE_ENTER (R166). -/
theorem reaches_capture {w : BitVec 24} (hs : s.schedule = .sequencer t :: moves) (hT : s.transceiver t = some T)
    (hstop : T.stopped = false) (hp : T.phase = .captureEnter) (hw : T.window = some w)
    (hx : (s.uart T.uart).rx = rx) :
    ∃ s', Reaches 1 s s' t
      { T with
        acc := some (w.setWidth 64), capCount := some 0, budget := some s.params.abortWindow, phase := .capture }
      moves rx [] := by
  obtain ⟨s', a, hexec, ha, hT', hev, hf⟩ := captureEnterEffect (s.sequencing t moves) t T w rfl hT hp hw
  obtain rfl : a = w.setWidth 64 := BitVec.eq_of_toNat_eq (ha.trans (BitVec.toNat_setWidth_of_le (by decide)).symm)
  have hu := hf.frame.uarts T.uart (by simp)
  exact ⟨s', .micro hs hT hstop (by simp only [microOp, hp]) hexec hT' ((congrArg Uart.rx hu).trans hx)
    (hev.trans (List.append_nil _).symm) hf⟩

/-- The capture takes five bytes, and they make the frame of the header and themselves (R167, 30_encoding.md R78). -/
theorem takes_reply {b0 b1 b2 : Byte} (c0 c1 c2 c3 c4 : Byte) (hp : T.phase = .capture)
    (ha : T.acc = some ((b0 ++ b1 ++ b2).setWidth 64)) (hk : T.capCount = some 0) :
    Takes captureByte .capture T [c0, c1, c2, c3, c4]
      { T with
        acc := some (frameOf b0 b1 b2 c0 c1 c2 c3 c4), capCount := some 5,
        result := some (.frame (frameOf b0 b1 b2 c0 c1 c2 c3 c4)), phase := .postFlush, flushed := 0 } := by
  rw [← shiftAcc_frame]
  exact .byte hp (captureByte_short c0 hp ha hk (by decide)) <| .byte hp (captureByte_short c1 hp rfl rfl (by decide)) <|
    .byte hp (captureByte_short c2 hp rfl rfl (by decide)) <| .byte hp (captureByte_short c3 hp rfl rfl (by decide)) <|
    .byte hp (captureByte_fifth c4 rfl rfl) (.done _)

/-- A frame with a good checksum other than 0 is accepted, with the value of its bytes 3 to 6 (45_validator.md R180). -/
theorem verdictOf_accept {crc : CrcChoice} {b0 b1 b2 c0 c1 c2 c3 c4 : Byte}
    (hcrc : crc8 crc [b0, b1, b2, c0, c1, c2, c3] = c4) (h0 : c4 ≠ 0#8) :
    verdictOf crc (frameOf b0 b1 b2 c0 c1 c2 c3 c4) = .accept (wordOf c0 c1 c2 c3) := by
  have hbytes := frameBytes_frameOf b0 b1 b2 c0 c1 c2 c3 c4
  have hsum : crc8 crc ((frameBytes (frameOf b0 b1 b2 c0 c1 c2 c3 c4)).take 7) = c4 := by rw [hbytes]; exact hcrc
  simp only [frameBytes, List.cons.injEq] at hbytes
  obtain ⟨-, -, -, h3, h4, h5, h6, h7, -⟩ := hbytes
  simp only [verdictOf, hsum, h3, h4, h5, h6, h7, ne_eq, not_true_eq_false, if_false, if_neg h0]

/-- The end of a READ with an accepted frame: the last turn of PostFlush and VALIDATE. -/
theorem reaches_return {f : BitVec 64} {k : Nat} {value : Word} (hs : s.schedule = .sequencer t :: .sequencer t :: moves)
    (hT : s.transceiver t = some T) (hstop : T.stopped = false) (hp : T.phase = .postFlush) (hj : T.job = .read)
    (hres : T.result = some (.frame f)) (hk : T.attempt = some k) (hx : (s.uart T.uart).rx = [])
    (hv : verdictOf s.params.crc f = .accept value) :
    ∃ s', Reaches 2 s s' t
        { T with
          attempt := some (k + 1), readFailed := false, phase := .idle, job := .none, hold := .free,
          answer := some (.read value true) }
        moves [] [.flushed T.flushed, .attempt k .ok] ∧
      (s'.bus T.bus).busy = false := by
  have hturn : exec .flush (s.sequencing t (.sequencer t :: moves)) =
      .next (((s.sequencing t (.sequencer t :: moves)).emit (.flushed T.flushed)).setTransceiver t
        { T with attempt := some (k + 1), phase := .validate }) := by
    rw [exec_flush_postFlush_nil (s := s.sequencing t _) rfl hT hp hx]
    simp only [State.afterTransact, hj, hres, hk]
  obtain ⟨s1, hflush⟩ : ∃ s1, Reaches 1 s s1 t { T with attempt := some (k + 1), phase := .validate }
      (.sequencer t :: moves) [] [.flushed T.flushed] :=
    ⟨_, .micro hs hT hstop (microOp_flush _ (.inr hp)) hturn (State.transceiver_setTransceiver_same _ _ _) hx rfl
      (((MicroFrame.refl _ none none (some t)).emit _).setTransceiver _)⟩
  obtain ⟨s', hexec, haccept, -, -, hf⟩ := validatePhaseEndsAttempt (s1.sequencing t moves) t _ f k rfl hflush.record rfl
    hres rfl
  rw [← hflush.params] at hv
  obtain ⟨hT', hbus, hev⟩ := haccept value hv
  have hu := hf.frame.uarts T.uart (by simp)
  exact ⟨s', hflush.trans (.micro hflush.schedule hflush.record hstop (by simp only [microOp, hres]) hexec hT'
    ((congrArg Uart.rx hu).trans hflush.waiting) hev hf), congrArg Bus.busy hbus⟩

end Stages

/-- Settles O39: SCAN_ENTER, the scan of the noise and the header, CAPTURE_ENTER, the capture of the five bytes, and the end
of the READ, each where the one before it leaves the state. -/
theorem readReturnsGenuineReply : Obligations.ReadReturnsGenuineReply := by
  intro s t T k b0 b1 bc noise reg c0 c1 c2 c3 c4 moves hT hstop hp hj hq hk hvalid hx hfirst hcrc h0 hs
  obtain ⟨stream, hstream⟩ : ∃ bs, bs = noise ++ [b0, replyMarker, reg] := ⟨_, rfl⟩
  rw [← hstream] at hx hfirst
  obtain ⟨⟨-, hscan⟩, habort⟩ :
      (1 ≤ s.params.maxRetries ∧ 1 ≤ s.params.scanTimeout) ∧ 1 ≤ s.params.abortWindow := by
    simpa only [paramsValid, Bool.and_eq_true, decide_eq_true_eq] using hvalid
  have hlen : stream.length = noise.length + 3 := by simp [hstream]
  have hnonempty : stream ≠ [] := by simp [hstream]
  have hlock : stream.foldl shiftWindow 0#24 = targetOf b0 reg :=
    (endsInHeader_iff b0 reg stream).mp ⟨[0#8, 0#8, 0#8] ++ noise, by simp [hstream]⟩
  have hmoves : noise.length + 12 = 1 + stream.length + 1 + [c0, c1, c2, c3, c4].length + 2 := by
    simp only [List.length_cons, List.length_nil]
    omega
  rw [hmoves] at hs ⊢
  simp only [List.replicate_add, List.append_assoc] at hs
  obtain ⟨s1, h1⟩ := reaches_scan hs hT hstop hp hj hq hx
  obtain ⟨s2, h2⟩ := reaches_polls .scan (takes_stream rfl rfl rfl hnonempty (by rw [hlen]; exact hfirst)) h1.schedule
    h1.running h1.record hstop ⟨_, rfl, hscan, congrArg some h1.clk.symm⟩ h1.waiting
  obtain ⟨s3, h3⟩ := reaches_capture h2.schedule h2.record hstop (if_pos hlock) (congrArg some hlock) h2.waiting
  have hentered := (h1.trans h2).trans h3
  obtain ⟨s4, h4⟩ := reaches_polls .capture (takes_reply c0 c1 c2 c3 c4 rfl (by rw [targetOf_eq]) rfl) h3.schedule
    h3.running h3.record hstop ⟨_, rfl, by rw [h2.params, h1.params]; exact habort, congrArg some hentered.clk.symm⟩
    h3.waiting
  have hcaptured := hentered.trans h4
  obtain ⟨s5, h5, hbusy⟩ := reaches_return h4.schedule h4.record hstop rfl hj rfl hk h4.waiting
    (verdictOf_accept (by rw [hcaptured.params]; exact hcrc) h0)
  have hall := hcaptured.trans h5
  refine ⟨s5, _, hall.run, hall.schedule, hall.record, rfl, rfl, rfl, hall.waiting, hbusy, ?_⟩
  rw [hall.events, hstream]
  simp

end Sys2Proof.Machine

/-! PROOFS of the statements of the family `45_validator.md`. -/

namespace Sys2Proof.Machine

/-! ### The rejections of VALIDATE (R180, R181) -/

theorem verdictOf_mismatch {crc : CrcChoice} {f : BitVec 64} (h : crc8 crc ((frameBytes f).take 7) ≠ frameByte f 7) :
    verdictOf crc f = .reject .checksumMismatch := if_pos h

theorem verdictOf_zeroChecksum {crc : CrcChoice} {f : BitVec 64}
    (h : crc8 crc ((frameBytes f).take 7) = frameByte f 7) (h0 : frameByte f 7 = 0#8) :
    verdictOf crc f = .reject .zeroChecksumRejected :=
  (if_neg (not_not_intro h)).trans (if_pos (h.trans h0))

/-- Only a frame closed by its checksum is accepted. -/
theorem checksum_of_accept {crc : CrcChoice} {f : BitVec 64} {v : Word} (h : verdictOf crc f = .accept v) :
    crc8 crc ((frameBytes f).take 7) = frameByte f 7 := by
  by_contra hne
  cases (verdictOf_mismatch hne).symm.trans h

section Frame

variable {crc : CrcChoice} {b0 b1 b2 b3 b4 b5 b6 b7 : Byte}

theorem take_frameBytes_frameOf :
    (frameBytes (frameOf b0 b1 b2 b3 b4 b5 b6 b7)).take 7 = [b0, b1, b2, b3, b4, b5, b6] := by
  rw [frameBytes_frameOf]
  rfl

theorem frameByte_frameOf_last : frameByte (frameOf b0 b1 b2 b3 b4 b5 b6 b7) 7 = b7 := by
  have hbytes := frameBytes_frameOf b0 b1 b2 b3 b4 b5 b6 b7
  simp only [frameBytes, List.cons.injEq] at hbytes
  obtain ⟨-, -, -, -, -, -, -, h7, -⟩ := hbytes
  exact h7

theorem verdictOf_frameOf_mismatch (h : crc8 crc [b0, b1, b2, b3, b4, b5, b6] ≠ b7) :
    verdictOf crc (frameOf b0 b1 b2 b3 b4 b5 b6 b7) = .reject .checksumMismatch :=
  verdictOf_mismatch (by rwa [take_frameBytes_frameOf, frameByte_frameOf_last])

theorem verdictOf_frameOf_zeroChecksum (h : crc8 crc [b0, b1, b2, b3, b4, b5, b6] = b7) (h0 : b7 = 0#8) :
    verdictOf crc (frameOf b0 b1 b2 b3 b4 b5 b6 b7) = .reject .zeroChecksumRejected :=
  verdictOf_zeroChecksum (by rw [take_frameBytes_frameOf, frameByte_frameOf_last, h]) (frameByte_frameOf_last.trans h0)

/-- Leading bytes of checksum 0 are rejected whatever byte 7 holds (R182, R183). -/
theorem verdictOf_frameOf_reject (h : crc8 crc [b0, b1, b2, b3, b4, b5, b6] = 0#8) :
    verdictOf crc (frameOf b0 b1 b2 b3 b4 b5 b6 b7) = .reject .checksumMismatch ∨
      verdictOf crc (frameOf b0 b1 b2 b3 b4 b5 b6 b7) = .reject .zeroChecksumRejected := by
  by_cases h7 : b7 = 0#8
  · exact .inr (verdictOf_frameOf_zeroChecksum (h.trans h7.symm) h7)
  · exact .inl (verdictOf_frameOf_mismatch (h.trans_ne (Ne.symm h7)))

end Frame

theorem exec_validate_caller {s : State} {f : BitVec 64} (hr : s.running = none) (hc : s.ctx = .stallTolerant)
    (hp : paramsValid s.params = true) :
    exec (.validate f) s = .next (s.setAnswer (.verdict (verdictOf s.params.crc f))) := by
  simp only [exec, execValidate, hr]
  exact guarded_none (requestChecks_none hc hp)

/-- Settles O30: the caller gets the verdict of the frame, and each clause is one of its branches. -/
theorem validateVerdict : Obligations.ValidateVerdict := by
  intro s b0 b1 b2 b3 b4 b5 b6 b7 hr hc hp
  refine ⟨_, exec_validate_caller hr hc hp, verdictOf_frameOf_mismatch, verdictOf_frameOf_zeroChecksum,
    fun h h0 => ⟨_, verdictOf_accept h h0, ?_⟩, fun hcrc hzeros => verdictOf_frameOf_reject ?_⟩
  · rw [toNat_wordOf]
    omega
  · rw [hcrc, hzeros]
    exact crcTrinamic_replicate_zero 7

/-! ### Checksum 0 under the default (R182, R183) -/

/-- After any bytes exactly one more makes the checksum 0: the rounds are one to one in the byte fed. -/
theorem existsUnique_crcTrinamic_concat_zero (bs : List Byte) : ∃! b, crcTrinamic (bs ++ [b]) = 0#8 := by
  simp only [crcTrinamic_concat]
  exact (Finite.injective_iff_bijective.mp (crcBits_byte_injective _)).existsUnique 0#8

/-- Settles O31: zeros have the checksum 0, and of all bytes 6 exactly one gives it. -/
theorem zeroChecksumsRejected : Obligations.ZeroChecksumsRejected := by
  intro b0 b1 b2 b3 b4 b5 b7
  have hzeros : crc8 .trinamic [0#8, 0#8, 0#8, 0#8, 0#8, 0#8, 0#8] = 0#8 := crcTrinamic_replicate_zero 7
  obtain ⟨b6, hb6, hunique⟩ := existsUnique_crcTrinamic_concat_zero [b0, b1, b2, b3, b4, b5]
  exact ⟨fun h => verdictOf_frameOf_mismatch (hzeros.trans_ne (Ne.symm h)),
    fun h => verdictOf_frameOf_zeroChecksum (hzeros.trans h.symm) h,
    b6, hb6, verdictOf_frameOf_zeroChecksum hb6 rfl, hunique⟩

/-! ### One bit flipped (R185) -/

/-- Bit `j` of a frame word is bit `j % 8` of byte `7 - j / 8` in wire order, and of no other byte. -/
theorem frameByte_one_shiftLeft {i j : Nat} (hi : i < 8) (hj : j < 64) :
    frameByte (1#64 <<< j) i = if 7 - j / 8 = i then 1#8 <<< (j % 8) else 0#8 := by
  simp only [← BitVec.twoPow_eq]
  apply BitVec.eq_of_getLsbD_eq
  intro k hk
  have hplace : j = 56 - 8 * i + k ↔ 7 - j / 8 = i ∧ j % 8 = k := by omega
  split
  · simp [frameByte, BitVec.getLsbD_twoPow, *, eq_comm]
  · simp [frameByte, BitVec.getLsbD_twoPow, *]

theorem frameByte_flip {i j : Nat} (f : BitVec 64) (hi : i < 8) (hj : j < 64) :
    frameByte (f ^^^ (1#64 <<< j)) i =
      if 7 - j / 8 = i then frameByte f i ^^^ (1#8 <<< (j % 8)) else frameByte f i := by
  have hxor : frameByte (f ^^^ (1#64 <<< j)) i = frameByte f i ^^^ frameByte (1#64 <<< j) i := BitVec.extractLsb'_xor
  rw [hxor, frameByte_one_shiftLeft hi hj]
  split
  · rfl
  · exact BitVec.xor_zero

theorem take_frameBytes_eq_map (f : BitVec 64) : (frameBytes f).take 7 = (List.range 7).map (frameByte f) := rfl

/-- The leading bytes of a frame with one bit flipped are its own with one bit of one byte flipped. -/
theorem take_frameBytes_flip {j : Nat} (f : BitVec 64) (hj : j < 64) :
    (frameBytes (f ^^^ (1#64 <<< j))).take 7 =
      ((frameBytes f).take 7).modify (7 - j / 8) (fun x => x ^^^ (1#8 <<< (j % 8))) := by
  simp only [take_frameBytes_eq_map]
  apply List.ext_getElem
  · simp only [List.length_modify, List.length_map]
  · intro i hi _
    have hi : i < 7 := by simpa using hi
    simp only [List.getElem_modify, List.getElem_map, List.getElem_range]
    exact frameByte_flip f (by omega) hj

/-- Settles O32: the flip leaves byte 7 and changes the checksum of the bytes before it. -/
theorem singleBitFlipRejected : Obligations.SingleBitFlipRejected := by
  intro f v j hv hlow hj
  have hlast : frameByte (f ^^^ (1#64 <<< j)) 7 = frameByte f 7 :=
    (frameByte_flip f (by decide) hj).trans (if_neg (by omega))
  refine ⟨.checksumMismatch, verdictOf_mismatch ?_⟩
  rw [hlast, ← checksum_of_accept hv, take_frameBytes_flip f hj]
  have hbyte : 7 - j / 8 < ((frameBytes f).take 7).length := by
    show 7 - j / 8 < 7
    omega
  exact crcTrinamic_modify_ne hbyte (shiftLeft_one_ne_zero (Nat.mod_lt j (by decide)))

end Sys2Proof.Machine

/-! PROOFS of the statements of the family `46_read_write.md`. -/

namespace Sys2Proof.Machine

/-! ### PostFlush under READ (R190, R191) -/

theorem State.endOperation_bus_same (s : State) (t : Nat) (T : Transceiver) (a : Answer) :
    (s.endOperation t T a).bus T.bus = { s.bus T.bus with busy := false } :=
  (State.endOperation_bus s t T a T.bus).trans (if_pos rfl)

section ReadPostFlush

variable {s : State} {t k : Nat} {T : Transceiver} {r : TransactResult}

/-- READ's transaction ends with a frame: the attempt is counted, and Validate is next. -/
theorem State.afterTransact_frame {f : BitVec 64} (hj : T.job = .read) (hres : T.result = some (.frame f))
    (hk : T.attempt = some k) :
    s.afterTransact t T =
      .next ((s.emit (.flushed T.flushed)).setTransceiver t { T with attempt := some (k + 1), phase := .validate }) := by
  simp only [State.afterTransact, hj, hres, hk]

/-- READ's transaction ends without a frame: the attempt is counted and has failed. -/
theorem State.afterTransact_lost (hj : T.job = .read) (hres : T.result = some r) (hf : ∀ f, r ≠ .frame f)
    (hk : T.attempt = some k) :
    s.afterTransact t T =
      .next ((s.emit (.flushed T.flushed)).failAttempt t { T with attempt := some (k + 1) } k r.kind) := by
  cases r with
  | frame f => exact absurd rfl (hf f)
  | noReply | incompleteFrame => simp only [State.afterTransact, hj, hres, hk]

/-- The two results without a frame are recorded by their own kinds. -/
theorem kind_of_mem_lost {kind : ErrorKind}
    (h : (r, kind) ∈ [(TransactResult.noReply, ErrorKind.noReply), (.incompleteFrame, .incompleteFrame)]) :
    kind = r.kind ∧ ∀ f, r ≠ .frame f := by
  simp only [List.mem_cons, Prod.mk.injEq, List.not_mem_nil, or_false] at h
  obtain ⟨rfl, rfl⟩ | ⟨rfl, rfl⟩ := h <;> exact ⟨rfl, fun _ => nofun⟩

end ReadPostFlush

/-- Settles O35: the transaction ends with a frame, or without one and with an attempt left or none. -/
theorem postFlushEndsReadTransaction : Obligations.PostFlushEndsReadTransaction := by
  intro s t T r k hr hT hp hj hres hk hx
  rw [exec_flush_postFlush_nil hr hT hp hx]
  have hframe := (MicroFrame.refl s (some T.bus) none (some t)).emit (.flushed T.flushed)
  by_cases hf : ∃ f, r = .frame f
  · obtain ⟨f, rfl⟩ := hf
    exact ⟨_, State.afterTransact_frame hj hres hk, fun _ _ => ⟨State.transceiver_setTransceiver_same _ _ _, rfl, rfl⟩,
      fun _ h => absurd rfl ((kind_of_mem_lost h).2 f), hframe.setTransceiver _⟩
  · have hf : ∀ f, r ≠ .frame f := fun f e => hf ⟨f, e⟩
    refine ⟨_, State.afterTransact_lost hj hres hf hk, fun f e => absurd e (hf f), ?_⟩
    obtain ⟨hlt, e⟩ | ⟨hle, e⟩ := State.failAttempt_cases (s.emit (.flushed T.flushed)) t
      { T with attempt := some (k + 1) } k r.kind <;> rw [e]
    · refine ⟨fun kind h => ?_, (hframe.emit _).setTransceiver _⟩
      obtain ⟨rfl, -⟩ := kind_of_mem_lost h
      exact ⟨by simp, fun _ => ⟨State.transceiver_setTransceiver_same _ _ _, rfl⟩,
        fun hle => absurd hlt (Nat.not_lt.mpr hle)⟩
    · refine ⟨fun kind h => ?_,
        (hframe.emit _).endOperation (T := Transceiver.setReadFailed true { T with attempt := some (k + 1) }) _⟩
      obtain ⟨rfl, -⟩ := kind_of_mem_lost h
      exact ⟨by simp [State.endOperation], fun hlt => absurd hle (Nat.not_le.mpr hlt), fun _ =>
        ⟨State.endOperation_transceiver_same _ _ _ _, State.endOperation_bus_same _ _ _ _⟩⟩

/-! ### WEnd under Release (R204) -/

section WriteEnd

variable {s : State} {t us : Nat} {T : Transceiver} {p : Params}

theorem microOp_wEnd_wait (hp : T.phase = .wEnd) (he : p.writeEnd = .release) (hh : T.hold ≠ .passed) :
    microOp p T = some (.wait T.cfg.delayUs.toNat) := by
  simp only [microOp, hp, he, if_neg hh]

theorem microOp_wEnd_setDir (hp : T.phase = .wEnd) (he : p.writeEnd = .release) (hh : T.hold = .passed) :
    microOp p T = some (.setDir .receive) := by
  simp only [microOp, hp, he, if_pos hh]

/-- The wait of WEnd is over, and its SET_DIR is next. -/
theorem execWait_wEnd_completed (run : ∀ f, onSequencer (.wait us) s f = f t T) (hp : T.phase = .wEnd)
    (hh : T.hold = .completed) :
    execWait us s = .next ((s.emit (.waited us)).setTransceiver t { T with hold := .passed }) := by
  rw [execWait, run, hh]
  simp only [hp]

/-- In WEnd the row is `State.setDirection` on the transceiver's bus, and the end of the WRITE. -/
theorem exec_setDir_wEnd (hr : s.running = some t) (hT : s.transceiver t = some T) (hp : T.phase = .wEnd)
    (he : s.params.writeEnd = .release) (hh : T.hold = .passed) :
    exec (.setDir .receive) s = .next ((s.setDirection T.bus .receive).endOperation t T .written) :=
  (onSequencer_run hr hT (microOp_wEnd_setDir hp he hh)).trans (by simp only [hp])

end WriteEnd

/-- Settles O37: WAIT acts by the hold, and after it the SET_DIR frees the bus, initialised or not. -/
theorem writeReleasesBus : Obligations.WriteReleasesBus := by
  intro s t T hr hT hp he
  have run : T.hold ≠ .passed → ∀ f, onSequencer (.wait T.cfg.delayUs.toNat) s f = f t T :=
    fun hh _ => onSequencer_run hr hT (microOp_wEnd_wait hp he hh)
  refine ⟨fun hh => ?_, fun hh => ?_, fun hh => ?_, fun hh => ?_⟩
  · exact ⟨_, execWait_free (run (by simp [hh])) hh, State.transceiver_setTransceiver_same _ _ _, rfl,
      (MicroFrame.refl s _ _ _).setTransceiver _⟩
  · exact execWait_started (run (by simp [hh])) hh
  · exact ⟨_, execWait_wEnd_completed (run (by simp [hh])) hp hh, State.transceiver_setTransceiver_same _ _ _, rfl,
      ((MicroFrame.refl s _ _ _).emit _).setTransceiver _⟩
  · have hbus := State.endOperation_bus_same (s.setDirection T.bus .receive) t T .written
    refine ⟨_, exec_setDir_wEnd hr hT hp he hh, State.endOperation_transceiver_same _ _ _ _, congrArg Bus.busy hbus,
      fun hi => ?_, fun hi => ?_, ((MicroFrame.refl s _ _ _).setDirection _).endOperation _⟩
    · rw [hbus, State.setDirection_of_initialized hi, State.bus_emit, State.bus_setBus_same]
      exact ⟨rfl, rfl, rfl⟩
    · rw [hbus, State.setDirection_of_uninitialized hi]
      exact ⟨rfl, rfl⟩

/-! ### A WRITE from its issue to its end (R200 to R205) -/

/-- A bus after SET_DIR (40_bus_buffer.md R102): an uninitialised one is left as it is. -/
def Bus.directed (p : Params) (d : Dir) (B : Bus) : Bus :=
  if B.initialized then { B with direction := directionOf d, pin := .output (level p d) } else B

/-- What SET_DIR records on a bus. -/
def Bus.dirEvents (d : Dir) (B : Bus) : List Event := if B.initialized then [.dirSet d] else []

theorem State.bus_setDirection_same (s : State) (b : Nat) (d : Dir) :
    (s.setDirection b d).bus b = (s.bus b).directed s.params d := by
  obtain ⟨hi, e⟩ | ⟨hi, e⟩ := State.setDirection_cases s b d <;> simp [e, Bus.directed, hi]

theorem State.events_setDirection (s : State) (b : Nat) (d : Dir) :
    (s.setDirection b d).events = s.events ++ (s.bus b).dirEvents d := by
  obtain ⟨hi, e⟩ | ⟨hi, e⟩ := State.setDirection_cases s b d <;> simp [e, Bus.dirEvents, hi]

theorem State.transceiver_setDirection (s : State) (b : Nat) (d : Dir) (k : Nat) :
    (s.setDirection b d).transceiver k = s.transceiver k := by
  obtain ⟨-, e⟩ | ⟨-, e⟩ := State.setDirection_cases s b d <;> rw [e]
  rfl

theorem State.uart_setDirection (s : State) (b : Nat) (d : Dir) (u : Nat) :
    (s.setDirection b d).uart u = s.uart u := by
  obtain ⟨-, e⟩ | ⟨-, e⟩ := State.setDirection_cases s b d <;> rw [e]
  rfl

theorem Bus.directed_initialized (p : Params) (d : Dir) (B : Bus) : (B.directed p d).initialized = B.initialized := by
  unfold Bus.directed
  split <;> rfl

/-- A channel after `bytes` have gone out on it (10_state.md R38). -/
def Uart.sent (bytes : List Byte) (U : Uart) : Uart := { U with txlog := U.txlog ++ bytes }

theorem Uart.sent_sent (bs cs : List Byte) (U : Uart) : (U.sent bs).sent cs = U.sent (bs ++ cs) := by
  simp [Uart.sent]

/-- What has become of `s` when the transceiver `t` of record `T` has sent `bytes`: its record, its bus, its channel and the
events; the rest is unchanged. -/
structure Sent (s s' : State) (t : Nat) (T T' : Transceiver) (B' : Bus) (bytes : List Byte) (es : List Event) : Prop where
  record : s'.transceiver t = some T'
  bus : s'.bus T.bus = B'
  uart : s'.uart T.uart = (s.uart T.uart).sent bytes
  events : s'.events = s.events ++ es
  frame : MicroFrame s s' (some T.bus) (some T.uart) (some t)

namespace Sent

variable {s s1 : State} {t : Nat} {T T1 : Transceiver} {p : Params} {B : Bus} {bytes : List Byte} {es : List Event}

theorem refl (hT : s.transceiver t = some T) (hB : s.bus T.bus = B) : Sent s s t T T B [] [] where
  record := hT
  bus := hB
  uart := by simp [Uart.sent]
  events := (List.append_nil _).symm
  frame := .refl _ _ _ _

theorem emit (h : Sent s s1 t T T1 B bytes es) (e : Event) : Sent s (s1.emit e) t T T1 B bytes (es ++ [e]) :=
  { h with
    events := by rw [State.emit_events, h.events, List.append_assoc]
    frame := h.frame.emit e }

theorem setTransceiver (h : Sent s s1 t T T1 B bytes es) (T' : Transceiver) :
    Sent s (s1.setTransceiver t T') t T T' B bytes es :=
  { h with
    record := State.transceiver_setTransceiver_same _ _ _
    frame := h.frame.setTransceiver T' }

theorem logTx (h : Sent s s1 t T T1 B bytes es) (b : Byte) :
    Sent s (s1.logTx T.uart b) t T T1 B (bytes ++ [b]) es :=
  { h with
    uart := by rw [State.uart_logTx, if_pos rfl, h.uart, ← Uart.sent_sent]; rfl
    frame := h.frame.setUart _ }

theorem setDirection (h : Sent s s1 t T T1 B bytes es) (hs : s.params = p) (d : Dir) :
    Sent s (s1.setDirection T.bus d) t T T1 (B.directed p d) bytes (es ++ B.dirEvents d) where
  record := (State.transceiver_setDirection _ _ _ _).trans h.record
  bus := by rw [State.bus_setDirection_same, h.bus, h.frame.frame.params, hs]
  uart := (State.uart_setDirection _ _ _ _).trans h.uart
  events := by rw [State.events_setDirection, h.bus, h.events, List.append_assoc]
  frame := h.frame.setDirection d

theorem endOperation (h : Sent s s1 t T T1 B bytes es) (a : Answer) :
    Sent s (s1.endOperation t T a) t T { T with phase := .idle, job := .none, hold := .free, answer := some a }
      { B with busy := false } bytes es :=
  { h with
    record := State.endOperation_transceiver_same _ _ _ _
    bus := (State.endOperation_bus_same _ _ _ _).trans (by rw [h.bus])
    frame := h.frame.endOperation a }

end Sent

/-- The moves `ms` bring a transceiver from the record `T` with its bus `B` to the record `T'` with the bus `B'`, whatever the
rest of the state and whatever moves come after; `bytes` are sent and `es` recorded. -/
structure Stage (t : Nat) (p : Params) (T : Transceiver) (B : Bus) (ms : List Move) (T' : Transceiver) (B' : Bus)
    (bytes : List Byte) (es : List Event) : Prop where
  bus : T'.bus = T.bus
  uart : T'.uart = T.uart
  run : ∀ s rest, s.params = p → s.transceiver t = some T → s.bus T.bus = B → s.schedule = ms ++ rest →
    ∃ s' r, runSteps ms.length s = .next s' ∧
      Sent { s with schedule := rest, running := r } s' t T T' B' bytes es

section Stages

variable {t : Nat} {p : Params} {T T1 T' : Transceiver} {B B1 B' : Bus} {m : Move} {ms ns : List Move}
  {bytes bytes' f : List Byte} {es es' : List Event} {i : Instr}

theorem Stage.trans (h : Stage t p T B ms T1 B1 bytes es) (g : Stage t p T1 B1 ns T' B' bytes' es') :
    Stage t p T B (ms ++ ns) T' B' (bytes ++ bytes') (es ++ es') where
  bus := g.bus.trans h.bus
  uart := g.uart.trans h.uart
  run := fun s rest hp hT hB hs => by
    obtain ⟨s1, r1, hrun1, h1⟩ := h.run s (ns ++ rest) hp hT hB (by rw [hs, List.append_assoc])
    obtain ⟨s', r, hrun, h2⟩ := g.run s1 rest (h1.frame.frame.params.trans hp) h1.record (by rw [h.bus, h1.bus])
      h1.frame.frame.schedule
    refine ⟨s', r, ?_, h2.record, ?_, ?_, ?_, ?_⟩
    · rw [List.length_append, runSteps_add hrun1, hrun]
    · rw [← h.bus, h2.bus]
    · have hu1 : s1.uart T.uart = (s.uart T.uart).sent bytes := h1.uart
      have hu2 : s'.uart T1.uart = (s1.uart T1.uart).sent bytes' := h2.uart
      rw [h.uart, hu1, Uart.sent_sent] at hu2
      exact hu2
    · have he1 : s1.events = s.events ++ es := h1.events
      have he2 : s'.events = s1.events ++ es' := h2.events
      rw [he2, he1, List.append_assoc]
    · have hf2 := h2.frame
      rw [h.bus, h.uart] at hf2
      exact MicroFrame.trans (s1 := { s1 with schedule := rest, running := r })
        { h1.frame with frame := { h1.frame.frame with schedule := rfl, running := rfl } } hf2

/-- One move of any agent. -/
theorem Stage.of_move (hb : T'.bus = T.bus) (hu : T'.uart = T.uart)
    (h : ∀ s : State, s.params = p → s.transceiver t = some T → s.bus T.bus = B →
      ∃ s' r, move m s = .next s' ∧ Sent { s with running := r } s' t T T' B' bytes es) :
    Stage t p T B [m] T' B' bytes es where
  bus := hb
  uart := hu
  run := fun s rest hp hT hB hs => by
    obtain ⟨s', r, hmove, hsent⟩ := h { s with schedule := rest } hp hT hB
    exact ⟨s', r, runSteps_succ ((step_cons hs).trans hmove) 0, hsent⟩

/-- One micro-step. -/
theorem Stage.micro (hstop : T.stopped = false) (hi : microOp p T = some i) (hb : T'.bus = T.bus) (hu : T'.uart = T.uart)
    (h : ∀ s : State, s.params = p → s.running = some t → s.transceiver t = some T → s.bus T.bus = B →
      (∀ f, onSequencer i s f = f t T) → ∃ s', exec i s = .next s' ∧ Sent s s' t T T' B' bytes es) :
    Stage t p T B [.sequencer t] T' B' bytes es :=
  .of_move hb hu fun s hs hT hB => by
    have hi : microOp s.params T = some i := by rw [hs, hi]
    obtain ⟨s', hexec, hsent⟩ := h { s with running := some t } hs rfl hT hB fun _ => onSequencer_run rfl hT hi
    exact ⟨s', some t, (sequencerStep_micro hT hstop hi).trans hexec, hsent⟩

/-- A write or a wait is asked for, and the environment or the delay agent completes it (R143, R144). -/
theorem Stage.held {holds : Phase → Bool} (hstop : T.stopped = false) (hi : microOp p T = some i)
    (hask : ∀ s, (∀ f, onSequencer i s f = f t T) → exec i s = .next (s.setTransceiver t { T with hold := .started }))
    (hm : ∀ s, move m s = .next (s.completeHold holds t)) (hp : holds T.phase = true) :
    Stage t p T B [.sequencer t, m] { T with hold := .completed } B [] [] := by
  have hstart : Stage t p T B [.sequencer t] { T with hold := .started } B [] [] :=
    .micro hstop hi rfl rfl fun s _ _ hT hB run => ⟨_, hask s run, (Sent.refl hT hB).setTransceiver _⟩
  have hdone : Stage t p { T with hold := .started } B [m] { T with hold := .completed } B [] [] :=
    .of_move rfl rfl fun s _ hT hB =>
      ⟨_, s.running, (hm s).trans (by rw [State.completeHold_of_held hT hp rfl]), (Sent.refl hT hB).setTransceiver _⟩
  exact hstart.trans hdone

/-- SET_DIR at the start of a WRITE (R201). -/
theorem stage_wDirTx (hstop : T.stopped = false) (hp : T.phase = .wDirTx) :
    Stage t p T B [.sequencer t] { T with phase := .wTx 0 } (B.directed p .transmit) [] (B.dirEvents .transmit) :=
  .micro hstop (i := .setDir .transmit) (by simp only [microOp, hp]) rfl rfl fun _ hs hr hT hB _ =>
    ⟨_, exec_setDir (next := .wTx 0) hr hT hp (by simp), ((Sent.refl hT hB).setDirection hs .transmit).setTransceiver _⟩

/-- One byte: its write asked for, completed and logged (R202). -/
theorem stage_byte {j : Nat} {b : Byte} (hstop : T.stopped = false) (hp : T.phase = .wTx j) (hj : T.job = .write f)
    (hb : f[j]? = some b) (hh : T.hold = .free) :
    Stage t p T B [.sequencer t, .environment (.writeDone t), .sequencer t]
      { T with hold := .free, phase := T.phase.afterByte j f.length } B [b] [.tx b] := by
  have hd : T.datagram = some f := by simp only [Transceiver.datagram, hj]
  have hbyte : T.byteAt j = some b := by simp only [Transceiver.byteAt, hd, hb]
  have hi : ∀ h, microOp p { T with hold := h } = some (.txByte j) := fun h => by simp only [microOp, hp]
  have hlog : Stage t p { T with hold := .completed } B [.sequencer t]
      { T with hold := .free, phase := T.phase.afterByte j f.length } B [b] [.tx b] :=
    .micro hstop (hi .completed) rfl rfl fun _ _ _ hT hB run =>
      ⟨_, execTxByte_completed run hd hbyte rfl, (((Sent.refl hT hB).logTx b).emit (.tx b)).setTransceiver _⟩
  exact (Stage.held hstop (hi T.hold) (fun _ run => execTxByte_free run hbyte hh) (fun _ => rfl)
    (by simp only [hp, Phase.sends])).trans hlog

/-- The bytes left to send, by induction on them. -/
theorem stage_bytes (bs pre : List Byte) (hne : bs ≠ []) (hf : f = pre ++ bs) (hstop : T.stopped = false)
    (hp : T.phase = .wTx pre.length) (hj : T.job = .write f) (hh : T.hold = .free) :
    Stage t p T B
      (List.replicate bs.length [Move.sequencer t, .environment (.writeDone t), .sequencer t]).flatten
      { T with hold := .free, phase := .wReplyWait } B bs (bs.map .tx) := by
  induction bs generalizing pre T with
  | nil => exact absurd rfl hne
  | cons b bs ih =>
    have hbyte := stage_byte (t := t) (p := p) (B := B) (b := b) hstop hp hj (by simp [hf]) hh
    cases bs with
    | nil =>
      have hnext : T.phase.afterByte pre.length f.length = .wReplyWait := by simp [hp, Phase.afterByte, hf]
      rw [hnext] at hbyte
      exact hbyte
    | cons c cs =>
      have hnext : T.phase.afterByte pre.length f.length = .wTx (pre ++ [b]).length := by
        simp [hp, Phase.afterByte, hf]
      rw [hnext] at hbyte
      exact hbyte.trans (ih (pre ++ [b]) (by simp) (by simp [hf]) hstop rfl hj rfl)

/-- The reply delay of a WRITE (R203). -/
theorem stage_wReplyWait (hstop : T.stopped = false) (hp : T.phase = .wReplyWait) (hh : T.hold = .free) :
    Stage t p T B [.sequencer t, .delay t, .sequencer t] { T with hold := .free, phase := .wEnd } B []
      [.waited p.replyDelayUs] := by
  have hi : ∀ h, microOp p { T with hold := h } = some (.wait p.replyDelayUs) := fun h => by simp only [microOp, hp]
  have hpass : Stage t p { T with hold := .completed } B [.sequencer t] { T with hold := .free, phase := .wEnd } B []
      [.waited p.replyDelayUs] :=
    .micro hstop (hi .completed) rfl rfl fun _ _ _ hT hB run =>
      ⟨_, execWait_completed (next := .wEnd) run (by simp) hp rfl, ((Sent.refl hT hB).emit _).setTransceiver _⟩
  exact (Stage.held hstop (hi T.hold) (fun _ run => execWait_free run hh) (fun _ => rfl)
    (by simp only [hp, Phase.waits])).trans hpass

/-- The record of a WRITE that has returned. -/
def Transceiver.written (T : Transceiver) : Transceiver :=
  { T with phase := .idle, job := .none, hold := .free, answer := some .written }

/-- WEnd under Hold (R204). -/
theorem stage_hold (hstop : T.stopped = false) (hp : T.phase = .wEnd) (he : p.writeEnd = .hold) :
    Stage t p T B [.sequencer t] T.written { B with busy := false } [] [] :=
  .of_move rfl rfl fun s hs hT hB =>
    have hi : microOp s.params T = none := by simp only [microOp, hp, hs, he]
    ⟨_, s.running, (sequencerStep_plain hT hstop hi).trans (plainStep_wEnd hp), (Sent.refl hT hB).endOperation _⟩

/-- WEnd under Release: the turnaround delay, then SET_DIR (R204). -/
theorem stage_release (hstop : T.stopped = false) (hp : T.phase = .wEnd) (he : p.writeEnd = .release)
    (hh : T.hold = .free) :
    Stage t p T B [.sequencer t, .delay t, .sequencer t, .sequencer t] T.written
      { B.directed p .receive with busy := false } [] (.waited T.cfg.delayUs.toNat :: B.dirEvents .receive) := by
  have hi : ∀ h, h ≠ .passed → microOp p { T with hold := h } = some (.wait T.cfg.delayUs.toNat) :=
    fun _ hn => microOp_wEnd_wait hp he hn
  have hpass : Stage t p { T with hold := .completed } B [.sequencer t] { T with hold := .passed } B []
      [.waited T.cfg.delayUs.toNat] :=
    .micro hstop (hi .completed (by simp)) rfl rfl fun _ _ _ hT hB run =>
      ⟨_, execWait_wEnd_completed run hp rfl, ((Sent.refl hT hB).emit _).setTransceiver _⟩
  have hfree : Stage t p { T with hold := .passed } B [.sequencer t] T.written { B.directed p .receive with busy := false }
      [] (B.dirEvents .receive) :=
    .micro hstop (microOp_wEnd_setDir hp he rfl) rfl rfl fun _ hs hr hT hB _ =>
      ⟨_, exec_setDir_wEnd hr hT hp (hs ▸ he) rfl, ((Sent.refl hT hB).setDirection hs .receive).endOperation _⟩
  exact (Stage.held hstop (hi T.hold (by simp [hh])) (fun _ run => execWait_free run hh) (fun _ => rfl)
    (by simp only [hp, Phase.waits])).trans (hpass.trans hfree)

/-- The bus of a WRITE that has returned, from the bus it sent on (R204). -/
def Bus.afterWrite (p : Params) (B : Bus) : Bus :=
  { (if p.writeEnd = .release then B.directed p .receive else B) with busy := false }

/-- What WEnd records with a turnaround delay of `us`, from the bus the WRITE sent on (R204). -/
def Bus.writeEndEvents (p : Params) (us : Nat) (B : Bus) : List Event :=
  if p.writeEnd = .release then .waited us :: B.dirEvents .receive else []

/-- WEnd, under Hold and under Release. -/
theorem stage_wEnd (hstop : T.stopped = false) (hp : T.phase = .wEnd) (hh : T.hold = .free) :
    Stage t p T B (writeEndMoves t p.writeEnd) T.written (B.afterWrite p) []
      (B.writeEndEvents p T.cfg.delayUs.toNat) := by
  unfold Bus.afterWrite Bus.writeEndEvents
  cases he : p.writeEnd with
  | hold => exact stage_hold hstop hp he
  | release => exact stage_release hstop hp he hh

/-- A WRITE of eight bytes, from WDirTx to its return. -/
theorem stage_write (hstop : T.stopped = false) (hp : T.phase = .wDirTx) (hj : T.job = .write f) (hlen : f.length = 8)
    (hh : T.hold = .free) :
    Stage t p T B (writeMoves t p.writeEnd) T.written ((B.directed p .transmit).afterWrite p) f
      (B.dirEvents .transmit ++ f.map .tx ++ [.waited p.replyDelayUs] ++
        (B.directed p .transmit).writeEndEvents p T.cfg.delayUs.toNat) := by
  have hbytes := stage_bytes (t := t) (p := p) (B := B.directed p .transmit) (T := { T with phase := .wTx 0 }) f []
    (by rintro rfl; simp at hlen) rfl hstop rfl hj hh
  rw [hlen] at hbytes
  have hall := ((stage_wDirTx (B := B) hstop hp).trans hbytes).trans (stage_wReplyWait hstop rfl rfl) |>.trans
    (stage_wEnd hstop rfl rfl)
  rw [List.append_nil, List.append_nil] at hall
  exact hall

end Stages

/-- The state in which the caller issues an operation, with the bytes `more` and the moves `moves` to come. -/
def State.issuing (more : List Byte) (moves : List Move) (s : State) : State :=
  { s with schedule := moves, program := more, ctx := .stallTolerant, running := none }

/-- WRITE's issue: no precondition fails, so it is the start of the operation, with the frame built (R200). -/
theorem step_write {s : State} {t : Nat} {T : Transceiver} {regAddr : Byte} {value : Word} {more : List Byte}
    {moves : List Move} (hv : paramsValid s.params = true) (hT : s.transceiver t = some T) (hidle : T.phase = .idle)
    (hreg : regAddr.toNat ≤ 0x7F) (hbus : (s.bus T.bus).busy = false)
    (hprog : s.program = encode (.write t regAddr value) ++ more) (hs : s.schedule = .caller .stallTolerant :: moves) :
    ∃ s1, step s = .next s1 ∧
      s1.transceiver t =
        some { T with
          job := .write (writeDatagram s.params.crc T.cfg.slaveAddr regAddr value), phase := .wDirTx, hold := .free,
          flushed := 0, stopped := false, answer := none } ∧
      s1.bus T.bus = { s.bus T.bus with busy := true } ∧ s1.events = s.events ∧
      MicroFrame (s.issuing more moves) s1 (some T.bus) none (some t) := by
  have hstep : step s = exec (.write t regAddr value) (s.issuing more moves) :=
    callerStepRunsDecoded s _ moves _ more hs (by rw [hprog]; exact decode_encode_operation rfl more)
  have hrun : exec (.write t regAddr value) (s.issuing more moves) = _ :=
    (guarded_none (registerChecks_none (s := s.issuing more moves) rfl hv hT hidle hreg hbus)).trans
      (withTransceiver_some (s := s.issuing more moves) hT)
  exact ⟨_, hstep.trans hrun, State.startOperation_transceiver_same _ _ _,
    State.startOperation_bus_same (s.issuing more moves) t _, rfl, (MicroFrame.refl _ _ _ _).startOperation⟩

/-- Settles O38: the issue, and then the WRITE from WDirTx to its return. -/
theorem writeRunsToEnd : Obligations.WriteRunsToEnd := by
  intro s t T regAddr value more moves hv hT hidle hreg hbus hprog hs
  obtain ⟨s1, hstep, hT1, hbus1, hev1, ⟨hf1, -, -⟩⟩ := step_write hv hT hidle hreg hbus hprog hs
  obtain ⟨s', r, hrun, hT', hbus', huart, hev, ⟨hf, -, -⟩⟩ :=
    (stage_write (p := s.params) rfl rfl rfl rfl rfl).run s1 moves hf1.params hT1 hbus1 hf1.schedule
  refine ⟨s', (runSteps_add (runSteps_succ hstep 0) _).trans hrun, hf.program.trans hf1.program, hf.schedule,
    hf.faults.trans hf1.faults, ?_, ?_, ?_, fun hi => ?_, ⟨_, hT', rfl, rfl, rfl⟩, fun b hb => ?_, fun u hu => ?_,
    fun k hk => ?_⟩
  · have hu1 : s1.uart T.uart = s.uart T.uart := hf1.uarts _ (by simp)
    have hu2 : s'.uart T.uart = (s1.uart T.uart).sent _ := huart
    rw [hu2, hu1]
    rfl
  · have hev2 : s'.events = s1.events ++ _ := hev
    rw [hev2, hev1]
    simp [Bus.dirEvents, Bus.writeEndEvents, Bus.directed_initialized]
  · exact congrArg Bus.busy hbus'
  · have hb2 : s'.bus T.bus = _ := hbus'
    rw [hb2]
    unfold Bus.afterWrite
    split <;> simp [Bus.directed, hi, directionOf, level]
  · exact (hf.buses b (by simpa using Ne.symm hb)).trans (hf1.buses b (by simpa using Ne.symm hb))
  · exact (hf.uarts u (by simpa using Ne.symm hu)).trans (hf1.uarts u (by simp))
  · exact (hf.transceivers k (by simpa using Ne.symm hk)).trans (hf1.transceivers k (by simpa using Ne.symm hk))

end Sys2Proof.Machine

/-! PROOFS of the statements of the family `60_exceptions.md`. -/

namespace Sys2Proof.Machine

/-! ### The first failing precondition (60_exceptions.md R213, R215) -/

section Preconditions

variable {checks more : List (Bool × OpFault)} {f : OpFault} {s : State} {answer run : Step} {t : Nat}

/-- What fails first in a list fails first in every longer one that starts with it. -/
theorem firstFault_of_prefix (hpre : checks <+: more) (hf : firstFault checks = some f) : firstFault more = some f := by
  obtain ⟨rest, rfl⟩ := hpre
  induction checks with
  | nil => cases hf
  | cons c cs ih =>
    obtain ⟨_ | _, g⟩ := c
    · exact ih hf
    · exact hf

theorem firstFault_append_of_none (h : firstFault checks = none) : firstFault (checks ++ more) = firstFault more := by
  induction checks with
  | nil => rfl
  | cons c cs ih =>
    obtain ⟨_ | _, g⟩ := c
    · exact ih h
    · cases h

theorem requestChecks_realTime (hc : s.ctx = .realTime) : firstFault s.requestChecks = some .unsupportedContext := by
  simp [State.requestChecks, hc]

theorem requestChecks_badParameter (hc : s.ctx = .stallTolerant) (hv : paramsValid s.params = false) :
    firstFault s.requestChecks = some .badParameter := by
  simp [State.requestChecks, hc, hv]

/-- An operation that checks the request before anything else is refused from a real-time context and with a bad parameter
(R218, R243). -/
theorem refused_of_requestChecks (hrun : answer = guarded checks s run) (hpre : s.requestChecks <+: checks) :
    (s.ctx = .realTime → answer = .next (s.raise .unsupportedContext)) ∧
    (s.ctx = .stallTolerant → paramsValid s.params = false → answer = .next (s.raise .badParameter)) :=
  ⟨fun hc => hrun.trans (guarded_some (firstFault_of_prefix hpre (requestChecks_realTime hc))),
    fun hc hv => hrun.trans (guarded_some (firstFault_of_prefix hpre (requestChecks_badParameter hc hv)))⟩

theorem ownerChecks_firstFault_none (hT : s.transceiver t = none) :
    firstFault (s.ownerChecks t ++ more) = some .notConstructed := by
  simp [State.ownerChecks, hT]

theorem ownerChecks_firstFault_some {T : Transceiver} (hT : s.transceiver t = some T) :
    firstFault (s.ownerChecks t ++ more) = if T.phase = .idle then firstFault more else some .notIdle := by
  by_cases hp : T.phase = .idle <;> simp [State.ownerChecks, hT, idle_of_some hT, hp]

/-- Past the checks of the request, READ, WRITE and TRANSACT check the transceiver, then one operand (`bad`, recorded as `f`),
then the bus (R215). -/
theorem refused_of_ownerChecks {bad : Bool}
    (hrun : answer = guarded (checks ++ s.ownerChecks t ++ [(bad, f), (s.contended t, .busContention)]) s run)
    (hreq : firstFault checks = none) :
    (s.transceiver t = none → answer = .next (s.raise .notConstructed)) ∧
    ∀ T, s.transceiver t = some T →
      (T.phase ≠ .idle → answer = .next (s.raise .notIdle)) ∧
      (T.phase = .idle → bad = true → answer = .next (s.raise f)) ∧
      (T.phase = .idle → bad = false → (s.bus T.bus).busy = true → answer = .next (s.raise .busContention)) := by
  have answers : ∀ g, firstFault (s.ownerChecks t ++ [(bad, f), (s.contended t, .busContention)]) = some g →
      answer = .next (s.raise g) := fun g hg =>
    hrun.trans (guarded_some (by rw [List.append_assoc, firstFault_append_of_none hreq, hg]))
  refine ⟨fun hT => answers _ (ownerChecks_firstFault_none hT), fun T hT => ?_⟩
  have ofOwner := ownerChecks_firstFault_some (more := [(bad, f), (s.contended t, .busContention)]) hT
  refine ⟨fun hp => answers _ (ofOwner.trans (if_neg hp)), fun hp hb => answers _ (ofOwner.trans ?_),
    fun hp hb hbus => answers _ (ofOwner.trans ?_)⟩
  · simp [hp, hb]
  · simp [hp, hb, contended_of_some hT, hbus]

end Preconditions

/-! ### READ and WRITE -/

theorem exec_readWrite {s : State} {t : Nat} {regAddr : Byte} {value : Word} {i : Instr}
    (hi : i ∈ [Instr.read t regAddr, .write t regAddr value]) :
    ∃ run, exec i s = guarded (s.registerChecks t regAddr) s run := by
  obtain rfl | rfl : i = .read t regAddr ∨ i = .write t regAddr value := by simpa using hi
  · exact ⟨_, rfl⟩
  · exact ⟨_, rfl⟩

theorem requestChecks_prefix_registerChecks (s : State) (t : Nat) (regAddr : Byte) :
    s.requestChecks <+: s.registerChecks t regAddr :=
  (List.prefix_append _ _).trans (List.prefix_append _ _)

/-- Settles O40: the request's checks come first; past them the operand is the register. -/
theorem readWritePreconditions : Obligations.ReadWritePreconditions := by
  intro s t regAddr value i hi
  obtain ⟨run, hrun⟩ := exec_readWrite (s := s) hi
  obtain ⟨hctx, hparams⟩ := refused_of_requestChecks hrun (requestChecks_prefix_registerChecks s t regAddr)
  refine ⟨hctx, hparams, fun hc hv => ?_⟩
  obtain ⟨hnone, hsome⟩ := refused_of_ownerChecks hrun (requestChecks_none hc hv)
  refine ⟨hnone, fun T hT => ?_⟩
  obtain ⟨hphase, hreg, hbus⟩ := hsome T hT
  exact ⟨hphase, fun hp h => hreg hp (by simp [admitsReg_eq_false h]),
    fun hp h => hbus hp (by simp [admitsReg_eq_true h])⟩

/-! ### TRANSACT issued directly -/

/-- The checks of the request, with TRANSACT's `scanTimeout` among the parameters (R243). -/
def State.transactRequest (s : State) (scanTimeout : Nat) : List (Bool × OpFault) :=
  s.requestChecks ++ [(decide (scanTimeout = 0), .badParameter)]

section Transact

variable {s : State} {t : Nat} {dg : List Byte} {payloadLen scanTimeout : Nat}

theorem exec_transact (s : State) (t : Nat) (dg : List Byte) (payloadLen scanTimeout : Nat) :
    ∃ run, exec (.transact t dg payloadLen scanTimeout) s =
      guarded (s.transactChecks t dg payloadLen scanTimeout) s run :=
  ⟨_, rfl⟩

theorem transactRequest_badParameter (hc : s.ctx = .stallTolerant) (h : paramsValid s.params = false ∨ scanTimeout = 0) :
    firstFault (s.transactRequest scanTimeout) = some .badParameter := by
  cases hv : paramsValid s.params with
  | false => exact firstFault_of_prefix (List.prefix_append _ _) (requestChecks_badParameter hc hv)
  | true =>
    have hzero : scanTimeout = 0 := by simpa [hv] using h
    exact (firstFault_append_of_none (requestChecks_none hc hv)).trans (if_pos (decide_eq_true hzero))

theorem transactRequest_none (hc : s.ctx = .stallTolerant) (hv : paramsValid s.params = true) (h : 1 ≤ scanTimeout) :
    firstFault (s.transactRequest scanTimeout) = none :=
  (firstFault_append_of_none (requestChecks_none hc hv)).trans (by simp; omega)

theorem transactRequest_prefix_transactChecks :
    s.transactRequest scanTimeout <+: s.transactChecks t dg payloadLen scanTimeout :=
  (List.prefix_append _ _).trans (List.prefix_append _ _)

theorem requestChecks_prefix_transactChecks : s.requestChecks <+: s.transactChecks t dg payloadLen scanTimeout :=
  (List.prefix_append _ _).trans transactRequest_prefix_transactChecks

end Transact

/-- Settles O41: the request's checks, with `scanTimeout`, come first; past them the operand is the datagram's length. -/
theorem transactPreconditions : Obligations.TransactPreconditions := by
  intro s t dg payloadLen scanTimeout
  obtain ⟨run, hrun⟩ := exec_transact s t dg payloadLen scanTimeout
  obtain ⟨hctx, -⟩ := refused_of_requestChecks hrun requestChecks_prefix_transactChecks
  have hparams (hc : s.ctx = .stallTolerant) (h : paramsValid s.params = false ∨ scanTimeout = 0) :=
    hrun.trans (guarded_some
      (firstFault_of_prefix transactRequest_prefix_transactChecks (transactRequest_badParameter hc h)))
  refine ⟨hctx, hparams, fun hc hv hscan => ?_⟩
  obtain ⟨hnone, hsome⟩ := refused_of_ownerChecks hrun (transactRequest_none hc hv hscan)
  refine ⟨hnone, fun T hT => ?_⟩
  obtain ⟨hphase, hlen, hbus⟩ := hsome T hT
  exact ⟨hphase, fun hp h => hlen hp (by simp [admitsLength]; omega),
    fun hp hl h2 => hbus hp (by simp [admitsLength, hl, h2])⟩

/-! ### Every host operation -/

theorem exec_validate_guarded {s : State} {frame : BitVec 64} (hr : s.running = none) :
    exec (.validate frame) s =
      guarded s.requestChecks s (.next (s.setAnswer (.verdict (verdictOf s.params.crc frame)))) := by
  simp only [exec, execValidate, hr]

/-- The rows of the tags 01 to 06 check the request before anything else (R218, R243; log 9). -/
theorem exec_hostOperation {s : State} {i : Instr} (hr : s.running = none) (hf : i.format = .operation)
    (htag : (encode i).head? ∈ [some 0x01#8, some 0x02#8, some 0x03#8, some 0x04#8, some 0x05#8, some 0x06#8]) :
    ∃ checks run, exec i s = guarded checks s run ∧ s.requestChecks <+: checks := by
  cases i with
  | busInit bus pin => exact ⟨_, _, rfl, List.prefix_rfl⟩
  | construct t uart rsense addr bus pin => exact ⟨_, _, rfl, List.prefix_append _ _⟩
  | read t regAddr => exact ⟨_, _, rfl, requestChecks_prefix_registerChecks s t regAddr⟩
  | write t regAddr value => exact ⟨_, _, rfl, requestChecks_prefix_registerChecks s t regAddr⟩
  | transact t dg payloadLen scanTimeout => exact ⟨_, _, rfl, requestChecks_prefix_transactChecks⟩
  | validate frame => exact ⟨_, _, exec_validate_guarded hr, List.prefix_rfl⟩
  | setDir | flush | txByte | wait | scanEnter | scanPoll | captureEnter | capturePoll | buildReadReq | buildWrite | crc8
  | turnaround => simp [encode] at htag
  | writeFrame | readReq | reply => cases hf

/-- Settles O43: each of the six checks the request before anything else. -/
theorem hostOperationsRefused : Obligations.HostOperationsRefused := by
  intro s i hr hf htag
  obtain ⟨checks, run, hrun, hpre⟩ := exec_hostOperation hr hf htag
  exact refused_of_requestChecks hrun hpre

end Sys2Proof.Machine

/-! PROOFS of the statements of the family `70_reset_and_hazards.md`. -/

namespace Sys2Proof.Machine

/-! ### Process start (70_reset_and_hazards.md R240) -/

@[simp] theorem State.bus_processStart (p : Params) (b : Nat) : (State.processStart p).bus b = Bus.start := rfl
@[simp] theorem State.uart_processStart (p : Params) (u : Nat) : (State.processStart p).uart u = Uart.start := rfl
@[simp] theorem State.transceiver_processStart (p : Params) (t : Nat) : (State.processStart p).transceiver t = none := rfl

/-- Where the block does not drive the pin, its level is the free value (log 13). -/
theorem State.pinLevel_of_undriven {s : State} {b : Nat} (h : (s.bus b).pin = .undriven) :
    s.pinLevel b = Config.startLevel b := by
  simp [State.pinLevel, h]

/-- Settles O53: every table is empty, so each bus and channel reads as its start record. -/
theorem processStartState : Obligations.ProcessStartState := by
  intro p
  refine ⟨State.transceiver_processStart p, fun b => ?_, fun u => ?_, rfl, rfl, rfl⟩
  · have hlevel : (State.processStart p).pinLevel b = Config.startLevel b :=
      State.pinLevel_of_undriven (by simp [Bus.start])
    simp [Bus.start, hlevel]
  · simp [Uart.start]

/-! ### The invariants at process start, for any parameters -/

section Invariants

variable (p : Params)

theorem State.wf_processStart : (State.processStart p).wf = true := rfl

/-- No transceiver exists whose latches could be out of step. -/
theorem latchesFit_processStart : LatchesFit (State.processStart p) := by
  intro t T hT
  simp at hT

/-- No operation is in flight, and no bus is marked busy. -/
theorem oneInFlight_processStart : OneInFlight (State.processStart p) where
  marked t T hT := by simp at hT
  one t T k K hT := by simp at hT
  real b hbusy := by simp [Bus.start] at hbusy

/-- Every bus is uninitialised, with no handle, no direction and an undriven pin. -/
theorem pinsFit_processStart : PinsFit (State.processStart p) := by
  intro b
  rw [State.bus_processStart]
  exact ⟨fun _ => ⟨rfl, rfl, rfl⟩, by simp [Bus.start], by simp [Bus.start], by simp [Bus.start]⟩

/-- No transceiver exists whose delay could disagree with its rate. -/
theorem delaysFit_processStart : DelaysFit (State.processStart p) := by
  intro t T hT
  simp at hT

end Invariants

/-- Settles O54: reset is process start with the parameters of the vectors, and process start meets each invariant. -/
theorem resetMeetsInvariants : Obligations.ResetMeetsInvariants :=
  ⟨State.wf_processStart _, latchesFit_processStart _, oneInFlight_processStart _, pinsFit_processStart _,
    delaysFit_processStart _⟩

end Sys2Proof.Machine
